-- ==== Sys2Proof/Word.lean ====
section
/-!
DEFINITION. The word types of the machine (00_scope.md R6: a nibble is 4 bits, a byte 8, a word 16; every value is
unsigned).
-/

namespace Sys2Proof

/-- A register number, a key number or a sprite height: 4 bits (R6). -/
abbrev Nibble := BitVec 4

/-- A general register, a memory cell, `DT`, `ST`, `SP` or an immediate `kk`: 8 bits (R6). -/
abbrev Byte := BitVec 8

/-- The immediate address field `nnn`: 12 bits (30_encoding.md R61). -/
abbrev Addr12 := BitVec 12

/-- An opcode, `PC`, `I` or an entry of the call stack: 16 bits (R6). -/
abbrev Word := BitVec 16

/-- A timer's period or timeout, in nanoseconds: unsigned 64 bits (10_state.md R27). -/
abbrev Duration := BitVec 64

end Sys2Proof
end

