-- ==== Sys2Proof/Syntax.lean ====
section
/-!
DEFINITION. The 34 instructions of 30_encoding.md R63, one constructor per row of spec/opcode_table.json. Operands are the
fields of R61; the nibble that classes 5 and 9 ignore (`n`) and the field that the two shifts ignore (`y`) are kept, so an
instruction is exactly a valid word (R65, log 20).
-/

namespace Sys2Proof

inductive Instr where
  /-- `00E0`, 44_draw.md R130. -/
  | cls
  /-- `00EE`, 41_control_flow.md R90. -/
  | ret
  /-- `1nnn`, R91. -/
  | jp (nnn : Addr12)
  /-- `2nnn`, R92. -/
  | call (nnn : Addr12)
  /-- `3xkk`, R95. -/
  | seImm (x : Nibble) (kk : Byte)
  /-- `4xkk`, R96. -/
  | sneImm (x : Nibble) (kk : Byte)
  /-- `5xyn`, the low nibble ignored, R97. -/
  | seReg (x y n : Nibble)
  /-- `6xkk`, 42_alu.md R100. -/
  | ldImm (x : Nibble) (kk : Byte)
  /-- `7xkk`, R101. -/
  | addImm (x : Nibble) (kk : Byte)
  /-- `8xy0`, R102. -/
  | ldReg (x y : Nibble)
  /-- `8xy1`, R103. -/
  | orReg (x y : Nibble)
  /-- `8xy2`, R105. -/
  | andReg (x y : Nibble)
  /-- `8xy3`, R106. -/
  | xorReg (x y : Nibble)
  /-- `8xy4`, R107. -/
  | addReg (x y : Nibble)
  /-- `8xy5`, R108. -/
  | subReg (x y : Nibble)
  /-- `8xy6`, the field `y` ignored, R109. -/
  | shr (x y : Nibble)
  /-- `8xy7`, R110. -/
  | subnReg (x y : Nibble)
  /-- `8xyE`, the field `y` ignored, R112. -/
  | shl (x y : Nibble)
  /-- `9xyn`, the low nibble ignored, 41_control_flow.md R98. -/
  | sneReg (x y n : Nibble)
  /-- `Annn`, 43_index_memory.md R120. -/
  | ldI (nnn : Addr12)
  /-- `Bnnn`, 41_control_flow.md R93. -/
  | jpV0 (nnn : Addr12)
  /-- `Cxkk`, 42_alu.md R111. -/
  | rnd (x : Nibble) (kk : Byte)
  /-- `Dxyn`, 44_draw.md R132. -/
  | drw (x y n : Nibble)
  /-- `Ex9E`, 45_keys_timers.md R140. -/
  | skp (x : Nibble)
  /-- `ExA1`, R141. -/
  | sknp (x : Nibble)
  /-- `Fx07`, R142. -/
  | ldVxDt (x : Nibble)
  /-- `Fx0A`, R143. -/
  | ldVxK (x : Nibble)
  /-- `Fx15`, R144. -/
  | ldDtVx (x : Nibble)
  /-- `Fx18`, R145. -/
  | ldStVx (x : Nibble)
  /-- `Fx1E`, 43_index_memory.md R121. -/
  | addI (x : Nibble)
  /-- `Fx29`, R122. -/
  | ldF (x : Nibble)
  /-- `Fx33`, R123. -/
  | ldB (x : Nibble)
  /-- `Fx55`, R124. -/
  | store (x : Nibble)
  /-- `Fx65`, R125. -/
  | load (x : Nibble)
  deriving DecidableEq, Repr

end Sys2Proof
end

