-- ==== Sys2Proof/Decode.lean ====
section
/-!
DEFINITION. The decoder, total on every word (30_encoding.md R70), the encoder written from the formats of R62 and the map
of R63, and the opcode table's numbering of bits.
-/

namespace Sys2Proof

/-- `op[lo+len-1 : lo]`, a bit slice (00_scope.md R6). -/
def opBits (op : Word) (lo len : Nat) : BitVec len := op.extractLsb' lo len

/-- The fields of R61. -/
def classOf (op : Word) : Nibble := opBits op 12 4
def xOf (op : Word) : Nibble := opBits op 8 4
def yOf (op : Word) : Nibble := opBits op 4 4
def nOf (op : Word) : Nibble := opBits op 0 4
def kkOf (op : Word) : Byte := opBits op 0 8
def nnnOf (op : Word) : Addr12 := opBits op 0 12

/-- Why a word or a run of bytes is no instruction. -/
inductive DecodeError where
  /-- The word matches no row of R63 (R66). -/
  | invalidOpCode
  /-- Fewer than the two bytes of an instruction (R60). -/
  | truncated
  deriving DecidableEq, Repr

/-- What the decoder answers. -/
inductive Decoded where
  | instr (i : Instr)
  | reject (e : DecodeError)
  deriving DecidableEq, Repr

/-- Class 0: all twelve low bits select (R64, D14). -/
def decodeClass0 (op : Word) : Decoded :=
  if op = 0x00E0#16 then .instr .cls
  else if op = 0x00EE#16 then .instr .ret
  else .reject .invalidOpCode

/-- Class 8: the low nibble selects (R64, R70). -/
def decodeClass8 (op : Word) : Decoded :=
  match (nOf op).toNat with
  | 0x0 => .instr (.ldReg (xOf op) (yOf op))
  | 0x1 => .instr (.orReg (xOf op) (yOf op))
  | 0x2 => .instr (.andReg (xOf op) (yOf op))
  | 0x3 => .instr (.xorReg (xOf op) (yOf op))
  | 0x4 => .instr (.addReg (xOf op) (yOf op))
  | 0x5 => .instr (.subReg (xOf op) (yOf op))
  | 0x6 => .instr (.shr (xOf op) (yOf op))
  | 0x7 => .instr (.subnReg (xOf op) (yOf op))
  | 0xE => .instr (.shl (xOf op) (yOf op))
  | _ => .reject .invalidOpCode

/-- Class E: the low byte selects (R64, R70). -/
def decodeClassE (op : Word) : Decoded :=
  match (kkOf op).toNat with
  | 0x9E => .instr (.skp (xOf op))
  | 0xA1 => .instr (.sknp (xOf op))
  | _ => .reject .invalidOpCode

/-- Class F: the low byte selects (R64, R70). -/
def decodeClassF (op : Word) : Decoded :=
  match (kkOf op).toNat with
  | 0x07 => .instr (.ldVxDt (xOf op))
  | 0x0A => .instr (.ldVxK (xOf op))
  | 0x15 => .instr (.ldDtVx (xOf op))
  | 0x18 => .instr (.ldStVx (xOf op))
  | 0x1E => .instr (.addI (xOf op))
  | 0x29 => .instr (.ldF (xOf op))
  | 0x33 => .instr (.ldB (xOf op))
  | 0x55 => .instr (.store (xOf op))
  | 0x65 => .instr (.load (xOf op))
  | _ => .reject .invalidOpCode

/-- `Decode(op)` of R70. -/
def decode (op : Word) : Decoded :=
  match (classOf op).toNat with
  | 0x0 => decodeClass0 op
  | 0x1 => .instr (.jp (nnnOf op))
  | 0x2 => .instr (.call (nnnOf op))
  | 0x3 => .instr (.seImm (xOf op) (kkOf op))
  | 0x4 => .instr (.sneImm (xOf op) (kkOf op))
  | 0x5 => .instr (.seReg (xOf op) (yOf op) (nOf op))
  | 0x6 => .instr (.ldImm (xOf op) (kkOf op))
  | 0x7 => .instr (.addImm (xOf op) (kkOf op))
  | 0x8 => decodeClass8 op
  | 0x9 => .instr (.sneReg (xOf op) (yOf op) (nOf op))
  | 0xA => .instr (.ldI (nnnOf op))
  | 0xB => .instr (.jpV0 (nnnOf op))
  | 0xC => .instr (.rnd (xOf op) (kkOf op))
  | 0xD => .instr (.drw (xOf op) (yOf op) (nOf op))
  | 0xE => decodeClassE op
  | _ => decodeClassF op

/-- A word from its two bytes, the byte at the lower address in bits 15:8 (20_memory.md R41). -/
def wordOfBytes (hi lo : Byte) : Word := hi ++ lo

/-- The two bytes of a word as the machine stores them, high byte first (R41, R60). -/
def bytesOfWord (w : Word) : List Byte := [opBits w 8 8, opBits w 0 8]

/-- Decoding a run of bytes: the first instruction and what follows it. Every instruction is two bytes long (R60). -/
def decodeBytes : List Byte → Decoded × List Byte
  | hi :: lo :: rest => (decode (wordOfBytes hi lo), rest)
  | short => (.reject .truncated, short)

/-- Format NNN of R62: class, 12-bit address. -/
def packNNN (cls : Nibble) (nnn : Addr12) : Word := cls ++ nnn

/-- Formats XKK and X of R62: class, register, byte (in X the byte is fixed). -/
def packXKK (cls x : Nibble) (kk : Byte) : Word := cls ++ (x ++ kk)

/-- Formats XY and XYN of R62: class, register, register, nibble. -/
def packXYN (cls x y n : Nibble) : Word := cls ++ (x ++ (y ++ n))

/-- The word of an instruction (R62, R63). -/
def encode : Instr → Word
  | .cls => 0x00E0#16
  | .ret => 0x00EE#16
  | .jp nnn => packNNN 0x1#4 nnn
  | .call nnn => packNNN 0x2#4 nnn
  | .seImm x kk => packXKK 0x3#4 x kk
  | .sneImm x kk => packXKK 0x4#4 x kk
  | .seReg x y n => packXYN 0x5#4 x y n
  | .ldImm x kk => packXKK 0x6#4 x kk
  | .addImm x kk => packXKK 0x7#4 x kk
  | .ldReg x y => packXYN 0x8#4 x y 0x0#4
  | .orReg x y => packXYN 0x8#4 x y 0x1#4
  | .andReg x y => packXYN 0x8#4 x y 0x2#4
  | .xorReg x y => packXYN 0x8#4 x y 0x3#4
  | .addReg x y => packXYN 0x8#4 x y 0x4#4
  | .subReg x y => packXYN 0x8#4 x y 0x5#4
  | .shr x y => packXYN 0x8#4 x y 0x6#4
  | .subnReg x y => packXYN 0x8#4 x y 0x7#4
  | .shl x y => packXYN 0x8#4 x y 0xE#4
  | .sneReg x y n => packXYN 0x9#4 x y n
  | .ldI nnn => packNNN 0xA#4 nnn
  | .jpV0 nnn => packNNN 0xB#4 nnn
  | .rnd x kk => packXKK 0xC#4 x kk
  | .drw x y n => packXYN 0xD#4 x y n
  | .skp x => packXKK 0xE#4 x 0x9E#8
  | .sknp x => packXKK 0xE#4 x 0xA1#8
  | .ldVxDt x => packXKK 0xF#4 x 0x07#8
  | .ldVxK x => packXKK 0xF#4 x 0x0A#8
  | .ldDtVx x => packXKK 0xF#4 x 0x15#8
  | .ldStVx x => packXKK 0xF#4 x 0x18#8
  | .addI x => packXKK 0xF#4 x 0x1E#8
  | .ldF x => packXKK 0xF#4 x 0x29#8
  | .ldB x => packXKK 0xF#4 x 0x33#8
  | .store x => packXKK 0xF#4 x 0x55#8
  | .load x => packXKK 0xF#4 x 0x65#8

/-- A row of the opcode map (R63): a word `op` selects it iff `op & mask = bits`. -/
structure OpcodeRow where
  mask : Word
  bits : Word
  deriving DecidableEq, Repr

/-- The row of an instruction in the map of R63. -/
def rowOf : Instr → OpcodeRow
  | .cls => ⟨0xFFFF#16, 0x00E0#16⟩
  | .ret => ⟨0xFFFF#16, 0x00EE#16⟩
  | .jp _ => ⟨0xF000#16, 0x1000#16⟩
  | .call _ => ⟨0xF000#16, 0x2000#16⟩
  | .seImm _ _ => ⟨0xF000#16, 0x3000#16⟩
  | .sneImm _ _ => ⟨0xF000#16, 0x4000#16⟩
  | .seReg _ _ _ => ⟨0xF000#16, 0x5000#16⟩
  | .ldImm _ _ => ⟨0xF000#16, 0x6000#16⟩
  | .addImm _ _ => ⟨0xF000#16, 0x7000#16⟩
  | .ldReg _ _ => ⟨0xF00F#16, 0x8000#16⟩
  | .orReg _ _ => ⟨0xF00F#16, 0x8001#16⟩
  | .andReg _ _ => ⟨0xF00F#16, 0x8002#16⟩
  | .xorReg _ _ => ⟨0xF00F#16, 0x8003#16⟩
  | .addReg _ _ => ⟨0xF00F#16, 0x8004#16⟩
  | .subReg _ _ => ⟨0xF00F#16, 0x8005#16⟩
  | .shr _ _ => ⟨0xF00F#16, 0x8006#16⟩
  | .subnReg _ _ => ⟨0xF00F#16, 0x8007#16⟩
  | .shl _ _ => ⟨0xF00F#16, 0x800E#16⟩
  | .sneReg _ _ _ => ⟨0xF000#16, 0x9000#16⟩
  | .ldI _ => ⟨0xF000#16, 0xA000#16⟩
  | .jpV0 _ => ⟨0xF000#16, 0xB000#16⟩
  | .rnd _ _ => ⟨0xF000#16, 0xC000#16⟩
  | .drw _ _ _ => ⟨0xF000#16, 0xD000#16⟩
  | .skp _ => ⟨0xF0FF#16, 0xE09E#16⟩
  | .sknp _ => ⟨0xF0FF#16, 0xE0A1#16⟩
  | .ldVxDt _ => ⟨0xF0FF#16, 0xF007#16⟩
  | .ldVxK _ => ⟨0xF0FF#16, 0xF00A#16⟩
  | .ldDtVx _ => ⟨0xF0FF#16, 0xF015#16⟩
  | .ldStVx _ => ⟨0xF0FF#16, 0xF018#16⟩
  | .addI _ => ⟨0xF0FF#16, 0xF01E#16⟩
  | .ldF _ => ⟨0xF0FF#16, 0xF029#16⟩
  | .ldB _ => ⟨0xF0FF#16, 0xF033#16⟩
  | .store _ => ⟨0xF0FF#16, 0xF055#16⟩
  | .load _ => ⟨0xF0FF#16, 0xF065#16⟩

/-- The 34 rows of R63, in its order. -/
def opcodeRows : List OpcodeRow :=
  [⟨0xFFFF#16, 0x00E0#16⟩, ⟨0xFFFF#16, 0x00EE#16⟩, ⟨0xF000#16, 0x1000#16⟩, ⟨0xF000#16, 0x2000#16⟩] ++
  [⟨0xF000#16, 0x3000#16⟩, ⟨0xF000#16, 0x4000#16⟩, ⟨0xF000#16, 0x5000#16⟩, ⟨0xF000#16, 0x6000#16⟩] ++
  [⟨0xF000#16, 0x7000#16⟩, ⟨0xF00F#16, 0x8000#16⟩, ⟨0xF00F#16, 0x8001#16⟩, ⟨0xF00F#16, 0x8002#16⟩] ++
  [⟨0xF00F#16, 0x8003#16⟩, ⟨0xF00F#16, 0x8004#16⟩, ⟨0xF00F#16, 0x8005#16⟩, ⟨0xF00F#16, 0x8006#16⟩] ++
  [⟨0xF00F#16, 0x8007#16⟩, ⟨0xF00F#16, 0x800E#16⟩, ⟨0xF000#16, 0x9000#16⟩, ⟨0xF000#16, 0xA000#16⟩] ++
  [⟨0xF000#16, 0xB000#16⟩, ⟨0xF000#16, 0xC000#16⟩, ⟨0xF000#16, 0xD000#16⟩, ⟨0xF0FF#16, 0xE09E#16⟩] ++
  [⟨0xF0FF#16, 0xE0A1#16⟩, ⟨0xF0FF#16, 0xF007#16⟩, ⟨0xF0FF#16, 0xF00A#16⟩, ⟨0xF0FF#16, 0xF015#16⟩] ++
  [⟨0xF0FF#16, 0xF018#16⟩, ⟨0xF0FF#16, 0xF01E#16⟩, ⟨0xF0FF#16, 0xF029#16⟩, ⟨0xF0FF#16, 0xF033#16⟩] ++
  [⟨0xF0FF#16, 0xF055#16⟩, ⟨0xF0FF#16, 0xF065#16⟩]

/-- The word selects the row (R63). -/
def OpcodeRow.selects (r : OpcodeRow) (op : Word) : Bool := op &&& r.mask == r.bits

/-- The opcode table's word: its low `nbits` bits, the bits above them 0. Every instruction has one 16-bit word (R60), so
bit 0 of `w` is bit 0 of that word. -/
def tableWord (nbits w : Nat) : Word := BitVec.ofNat 16 (w % 2 ^ nbits)

/-- What the decoder reads from the table's word, laid out as the machine stores it. -/
def decodeTableWord (nbits w : Nat) : Option Instr :=
  match (decodeBytes (bytesOfWord (tableWord nbits w))).1 with
  | .instr i => some i
  | .reject _ => none

end Sys2Proof
end

