-- ==== Sys2Proof/Config.lean ====
section
/-!
DEFINITION. What an implementation fixes (00_scope.md R5), what the outside world can do to the machine
(70_reset_and_hazards.md R245), and the values the spec leaves free (R246), as constants without a body.

The parameters are a record, `Config`, that every state carries and no step changes (60_exceptions.md R211: "fixed before
`Reset` and constant for a run"), so a statement about every state is a statement about every configuration
(DESIGN CHOICE, log 1).
-/

namespace Sys2Proof

/-- The three timers the machine registers at reset (10_state.md R28). -/
inductive SysTimer where
  | cpu
  | decay
  | refresh
  deriving DecidableEq, Repr

/-- `ADDI_VF`: what `Fx1E` writes to VF (43_index_memory.md R121). The overflow mode carries its threshold `ADDI_LIMIT`,
which the spec leaves open, so that the mode cannot be chosen without one (log 26). -/
inductive AddiVf where
  | alwaysOne
  | overflow (limit : Nat)
  deriving DecidableEq, Repr

/-- `END_OF_RUN`: the two definitions of 70_reset_and_hazards.md R224. -/
inductive EndOfRun where
  | idleLoop
  | cycles (n : Nat)
  deriving DecidableEq, Repr

/-- The implementation parameters of 00_scope.md R5 (`SP_EMPTY` of D3 and the font of D5 among them). `DECAY_HZ` is the
fixed 60 of R5 and `KEY_DIV` is computed; both are in Machine/Param.lean with the default values.

`oneDrawPerDeadline` is the model's own: it selects between two readings of the spec where its rules contradict each other
(DESIGN CHOICE, log 34). -/
structure Config where
  memSize : Nat
  progStart : Nat
  stackCap : Nat
  spEmpty : Byte
  dispW : Nat
  dispH : Nat
  font : List Byte
  cpuHz : Nat
  frameHz : Nat
  maxExecPerWake : Nat
  timerOrder : List SysTimer
  xbBcd : Nat
  xbStore : Nat
  xbLoad : Nat
  addiVf : AddiVf
  endOfRun : EndOfRun
  oneDrawPerDeadline : Bool
  deriving DecidableEq, Repr

/-- What a timer's firing does (10_state.md R27): `CpuCycle`, `Decay60`, `Refresh` or `None`. -/
inductive Callback where
  | cpuCycle
  | decay60
  | refresh
  | noCallback
  deriving DecidableEq, Repr

/-- The calls of the timer interface (48_scheduler.md R152 to R156). `start` carries how far `now()` has moved since its
last reading (R155: a fresh reading). Periods and timeouts are unsigned 64-bit numbers of nanoseconds (10_state.md R27). -/
inductive TimerCall where
  | register (callback : Callback)
  | configureOneShot (handle : Nat) (timeout : Duration)
  | configureCyclic (handle : Nat) (period : Duration) (skipMissed : Bool)
  | start (handle gap : Nat)
  | stop (handle : Nat)
  deriving DecidableEq, Repr

/-- The host's commands (60_exceptions.md R210) and its timer calls (log 13). `gap` is how far `now()` has moved since
its last reading, so from `Start` on a reading never goes back (48_scheduler.md R157; before `Start`, log 32). -/
inductive HostCommand where
  | reset
  | loadRom (bytes : List Byte)
  | start
  | pause (gap : Nat)
  | resume (gap : Nat)
  | timer (call : TimerCall)
  deriving DecidableEq, Repr

/-- Which agent moves next (70_reset_and_hazards.md R245): the scheduler thread, the host, or the rendering
collaborator. The gap of a scheduler move is used only where the move begins a wake. -/
inductive Move where
  | scheduler (gap : Nat)
  | host (command : HostCommand)
  | renderer
  deriving DecidableEq, Repr, Inhabited

/-- `RandomByte()` at the n-th draw (42_alu.md R111, U8: any value). FREE VALUE: nothing constrains it (log 7). -/
opaque Config.randomByte : Nat → Byte

/-- `KeyPressed(k)` at the n-th instant of asking (60_exceptions.md R207, U9: any value). FREE VALUE: nothing constrains
it (log 8). -/
opaque Config.keyPressed : Nat → Nibble → Bool

/-- The n-th move when no move is pending (70_reset_and_hazards.md R246: the order of the agents, the host's commands
and the time of each wake are left free). FREE VALUE: nothing constrains it (log 5). -/
opaque Config.freeMove : Nat → Move

end Sys2Proof
end

