-- ==== Sys2Proof/Machine/Param.lean ====
section
/-!
DEFINITION. Values computed from the parameters, and the parameters' default values (00_scope.md R5).
-/

namespace Sys2Proof

/-- The font of 10_state.md R23, one row a glyph. -/
def Config.defaultFont : List Byte :=
  [0xF0#8, 0x90#8, 0x90#8, 0x90#8, 0xF0#8] ++ [0x20#8, 0x60#8, 0x20#8, 0x20#8, 0x70#8] ++
  [0xF0#8, 0x10#8, 0xF0#8, 0x80#8, 0xF0#8] ++ [0xF0#8, 0x10#8, 0xF0#8, 0x10#8, 0xF0#8] ++
  [0x90#8, 0x90#8, 0xF0#8, 0x10#8, 0x10#8] ++ [0xF0#8, 0x80#8, 0xF0#8, 0x10#8, 0xF0#8] ++
  [0xF0#8, 0x80#8, 0xF0#8, 0x90#8, 0xF0#8] ++ [0xF0#8, 0x10#8, 0x20#8, 0x40#8, 0x40#8] ++
  [0xF0#8, 0x90#8, 0xF0#8, 0x90#8, 0xF0#8] ++ [0xF0#8, 0x90#8, 0xF0#8, 0x10#8, 0xF0#8] ++
  [0xF0#8, 0x90#8, 0xF0#8, 0x90#8, 0x90#8] ++ [0xE0#8, 0x90#8, 0xE0#8, 0x90#8, 0xE0#8] ++
  [0xF0#8, 0x80#8, 0x80#8, 0x80#8, 0xF0#8] ++ [0xE0#8, 0x90#8, 0x90#8, 0x90#8, 0xE0#8] ++
  [0xF0#8, 0x80#8, 0xF0#8, 0x80#8, 0xF0#8] ++ [0xF0#8, 0x80#8, 0xF0#8, 0x80#8, 0x80#8]

/-- The defaults of R5. For `CPU_HZ`, `FRAME_HZ`, `MAX_EXEC_PER_WAKE` and `END_OF_RUN`, which R5 leaves OPEN, the values of
the spec's examples (95_test_vectors.md, W6) and definition (a) of R224: DESIGN CHOICE, log 1. At most one draw commits per refresh deadline: DESIGN CHOICE, log 34. -/
def Config.default : Config where
  memSize := 4096
  progStart := 0x200
  stackCap := 16
  spEmpty := 0xFF#8
  dispW := 64
  dispH := 32
  font := Config.defaultFont
  cpuHz := 500
  frameHz := 60
  maxExecPerWake := 4
  timerOrder := [.cpu, .decay, .refresh]
  xbBcd := 0
  xbStore := 0
  xbLoad := 0
  addiVf := .alwaysOne
  endOfRun := .idleLoop
  oneDrawPerDeadline := true

/-- `DECAY_HZ`, fixed (R5). -/
def Config.decayHz : Nat := 60

/-- Nanoseconds in a second; times are in nanoseconds (10_state.md R26). -/
def Config.nsPerSecond : Nat := 1000000000

/-- `KEY_DIV = max(1, CPU_HZ div 100)` (R5, D22). -/
def Config.keyDiv (c : Config) : Nat := max 1 (c.cpuHz / 100)

/-- The period of a system timer: `10^9 div rate` (R28, D7). -/
def Config.period (c : Config) : SysTimer → Nat
  | .cpu => Config.nsPerSecond / c.cpuHz
  | .decay => Config.nsPerSecond / Config.decayHz
  | .refresh => Config.nsPerSecond / c.frameHz

/-- The callback of a system timer (R28). -/
def SysTimer.callback : SysTimer → Callback
  | .cpu => .cpuCycle
  | .decay => .decay60
  | .refresh => .refresh

/-- The catch-up policy of a system timer: strict for the CPU, skip-missed for the other two (R28, D10). -/
def SysTimer.skipMissed : SysTimer → Bool
  | .cpu => false
  | .decay => true
  | .refresh => true

/-- Where `t` stands in the list. -/
def SysTimer.position (t : SysTimer) : List SysTimer → Nat
  | [] => 0
  | u :: rest => if u = t then 0 else SysTimer.position t rest + 1

/-- The handle of a system timer: its place in `TIMER_ORDER` (R28: handle order is registration order). -/
def Config.handleOf (c : Config) (t : SysTimer) : Nat := t.position c.timerOrder

/-- What memory holds after reset (10_state.md R22): the font at address 0, then 0x00. It is also what an address that the
memory list does not name reads as (log 15). -/
def Config.resetByte (c : Config) (a : Nat) : Byte := c.font.getD a 0x00#8

/-- The end of the 64-bit clock: no run is assumed to reach it (48_scheduler.md R157, D47). -/
def Config.clockEnd : Nat := 2 ^ 64

end Sys2Proof
end

