-- ==== Sys2Proof/Machine/State.lean ====
section
/-!
DEFINITION. The state of the machine as plain data, its reset value (10_state.md R31), and the reasons a step can stop.
-/

namespace Sys2Proof.Machine

/-- A sparse array of bytes: `(index, byte)` pairs. Canonical when the indices rise strictly, all lie below the size, and no
entry equals what an index that is not listed reads as (`Cells.wf` in Machine/Ops.lean). -/
abbrev Cells := List Host.Cell

/-- `DrawPhase` (R19). `commit` is the source's phase 2, which is never stored between two cycles (D27, log 18). -/
inductive DrawPhase where
  | armed
  | waiting
  | commit
  deriving DecidableEq, Repr

/-- `KeyPhase` (R20). -/
inductive KeyPhase where
  | waitPress
  | waitRelease
  deriving DecidableEq, Repr

/-- The five kinds of trap (60_exceptions.md R191). -/
inductive TrapKind where
  | stackOverflow
  | stackUnderflow
  | invalidOpCode
  | programCounterOutOfBounds
  | memoryAccessOutOfBounds
  deriving DecidableEq, Repr

/-- The trap record (R21, R192). `addr` is an unbounded number: the would-be new PC of R197 (b) can be 65536 or more. -/
structure TrapRecord where
  kind : TrapKind
  opcode : Word
  pc : Word
  addr : Nat
  deriving DecidableEq, Repr

/-- `SchedState` (R26). -/
inductive SchedState where
  | notStarted
  | running
  | paused
  deriving DecidableEq, Repr

/-- The kind of a timer (R27). -/
inductive TimerKind where
  | unconfigured
  | oneShot
  | cyclic
  deriving DecidableEq, Repr

/-- A timer record (R27); its handle is its position in the table. `period` has the 64 bits of R27; deadlines are unbounded
(48_scheduler.md D47, log 27). -/
structure Timer where
  kind : TimerKind
  nextDeadline : Nat
  period : Duration
  active : Bool
  skipMissed : Bool
  callback : Callback
  wasActive : Bool
  phaseOffset : Int
  deriving DecidableEq, Repr

/-- An output event (R7, R29). -/
inductive Event where
  | playTone
  | stopTone
  | refresh
  deriving DecidableEq, Repr

/-- Who holds `FBLock` between two steps (R25). The CPU takes and gives it back inside one step. -/
inductive LockHolder where
  | free
  | renderer
  deriving DecidableEq, Repr

/-- Where a wake in progress stands in the loop of 48_scheduler.md R159: the timer looked at and its firings so far. -/
structure WakePos where
  handle : Nat
  count : Nat
  deriving DecidableEq, Repr

/-- What the host is told of its last command: the Boolean of `LoadRom` (20_memory.md R49), the handle of `register`
(48_scheduler.md R152), done, or an error that changed nothing (R153, R154, R155). -/
inductive Reply where
  | romLoaded (ok : Bool)
  | handle (h : Nat)
  | done
  | error
  deriving DecidableEq, Repr

/-- The whole machine. The rules cited are of 10_state.md where no file is named. -/
structure State where
  /-- The parameters, fixed for a run (60_exceptions.md R211, log 1). -/
  cfg : Config
  /-- `V0`..`VF` (R10). -/
  v : Vector Byte 16
  /-- `PC` (R13). -/
  pc : Word
  /-- `SP` (R14). -/
  sp : Byte
  /-- `I` (R15). -/
  i : Word
  /-- `DT` (R16). -/
  dt : Byte
  /-- `ST` (R16). -/
  st : Byte
  /-- `JumpFlag` (R17). -/
  jumpFlag : Bool
  /-- `Stack[0 .. STACK_CAP-1]` (R18). -/
  stack : List Word
  /-- `Mem` (R22). -/
  mem : Cells
  /-- `FB`, cell `(row, col)` at index `row * DISP_W + col` (R24, log 16). -/
  fb : Cells
  /-- `FBLock` (R25). -/
  fbLock : LockHolder
  /-- `DrawPhase` (R19). -/
  drawPhase : DrawPhase
  /-- `DrawDeadline` (R19). -/
  drawDeadline : Nat
  /-- The deadline of the draw that committed last, which "at most one `Dxyn` commit per refresh deadline" implies
  (60_exceptions.md R209, 70_reset_and_hazards.md R231, log 34). -/
  drawnDeadline : Option Nat
  /-- `KeyPhase` (R20). -/
  keyPhase : KeyPhase
  /-- `KeyCounter` (R20). -/
  keyCounter : Nat
  /-- `KeyLatched` (R20). -/
  keyLatched : Nibble
  /-- `Trap` (R21). -/
  trap : Option TrapRecord
  /-- `SchedState` (R26). -/
  sched : SchedState
  /-- `TickTime` (R26). -/
  tickTime : Nat
  /-- `Timer[0 .. NT-1]` (R27). -/
  timers : List Timer
  /-- `Tone` (R29). -/
  tone : Bool
  /-- `Out`, oldest event first, each with the `TickTime` of its wake (R29). -/
  out : List (Event × Nat)
  /-- The wake in progress (48_scheduler.md R159, log 4). -/
  wake : Option WakePos
  /-- The last reading of `now()` (48_scheduler.md R157, log 6; before `Start`, log 32). -/
  now : Nat
  /-- `ComposeBusy` (R30, 60_exceptions.md R206, log 9). -/
  composeBusy : Bool
  /-- The rendering collaborator has not taken its copy yet (60_exceptions.md R206, log 9). -/
  copyPending : Bool
  /-- The copy of `FB` the rendering collaborator took last (60_exceptions.md R206, log 9). -/
  frame : Cells
  /-- Host commands that came inside a wake (48_scheduler.md R166, log 11). -/
  hostQueue : List HostCommand
  /-- The answer to the last host command (60_exceptions.md R210, log 13). -/
  reply : Option Reply
  /-- The model's own: the next movers, oldest first (log 5). -/
  moves : List Move
  /-- The model's own: how many free moves have been taken (log 5). -/
  moveDraws : Nat
  /-- The model's own: how many random bytes have been drawn (log 7). -/
  randDraws : Nat
  /-- The model's own: at how many instants the keys have been asked for (log 8). -/
  keyDraws : Nat
  /-- The model's own: how many CPU cycles have completed, for `END_OF_RUN` (70_reset_and_hazards.md R224, log 22). -/
  cycles : Nat
  deriving DecidableEq, Repr

/-- The row of a system timer in the table of R28, as it stands after reset. -/
def Timer.resetRow (c : Config) (t : SysTimer) : Timer where
  kind := .cyclic
  nextDeadline := 0
  period := BitVec.ofNat 64 (c.period t)
  active := false
  skipMissed := t.skipMissed
  callback := t.callback
  wasActive := false
  phaseOffset := 0

/-- The state after `Reset` under a configuration (R31). The fields that R31 does not name have the values of the log
entries in INVENTORY.md. -/
def State.resetWith (c : Config) : State where
  cfg := c
  v := Vector.replicate 16 0x00#8
  pc := BitVec.ofNat 16 c.progStart
  sp := c.spEmpty
  i := 0x0000#16
  dt := 0x00#8
  st := 0x00#8
  jumpFlag := false
  stack := List.replicate c.stackCap 0x0000#16
  mem := []
  fb := []
  fbLock := .free
  drawPhase := .armed
  drawDeadline := 0
  drawnDeadline := none
  keyPhase := .waitPress
  keyCounter := 0
  keyLatched := 0x0#4
  trap := none
  sched := .notStarted
  tickTime := 0
  timers := c.timerOrder.map (Timer.resetRow c)
  tone := false
  out := []
  wake := none
  now := 0
  composeBusy := false
  copyPending := false
  frame := []
  hostQueue := []
  reply := none
  moves := []
  moveDraws := 0
  randDraws := 0
  keyDraws := 0
  cycles := 0

/-- The machine right after reset, with the default parameters. -/
def State.reset : State := State.resetWith Config.default

/-- Why the machine stops with a fault. The spec's five traps are no faults of the model: they are taken, and the machine
goes on in a trapped state (60_exceptions.md R192). -/
inductive Fault where
  /-- `Pop` with an `SP` that is neither `SP_EMPTY` nor the index of an entry, which R14 says never happens. Raised by RET.
  Safe: the spec gives no value there (log 17). -/
  | noSuchStackEntry
  /-- A draw is armed and the table has no refresh timer, which 10_state.md R28 says never happens. Raised by DRW. Safe
  (log 24). -/
  | noRefreshTimer
  /-- A timer that was never configured fires, which 48_scheduler.md R155 says never happens. Raised by the scheduler.
  Safe (log 24). -/
  | unconfiguredTimerFired
  deriving DecidableEq, Repr

/-- Why the machine refuses a step. -/
inductive Refusal where
  /-- An instruction that has no meaning yet; raised by an arm of `exec` only. Safe. -/
  | notModelled (mnemonic : String)
  /-- A host command in a state where 60_exceptions.md R210 does not admit it. Safe (log 12). -/
  | commandNotAdmitted
  /-- A timer call while paused (48_scheduler.md R169). Safe (log 12). -/
  | timerCallNotAdmitted
  /-- A timer call on a handle that was never registered, of which the spec says nothing. Safe (log 13). -/
  | noSuchTimer
  /-- A reading of the clock at 2^64 ns or later (48_scheduler.md R157, D47, U18). Safe (log 6). -/
  | clockBeyond64Bits
  deriving DecidableEq, Repr

end Sys2Proof.Machine
end

