-- ==== Sys2Proof/Machine/Ops.lean ====
section
/-!
DEFINITION. The shared operations: registers, memory (20_memory.md R43, R44), the call stack (R47, R48), control transfer
(40_cpu_cycle.md R84), taking a trap (60_exceptions.md R192), output events (10_state.md R29), and the inputs that a free
value answers (R30).
-/

namespace Sys2Proof.Machine

/-- What a step or a meaning answers. -/
abbrev Result := Host.Outcome State Fault Refusal

/-! ### Sparse arrays of bytes -/

/-- The byte at index `a`; an index that is not listed reads as `blank a`. -/
def Cells.read (blank : Nat → Byte) : Cells → Nat → Byte
  | [], a => blank a
  | (k, b) :: rest, a => if a = k then b else Cells.read blank rest a

/-- One byte written, the canonical form kept: the blank byte is not listed. -/
def Cells.write (blank : Nat → Byte) : Cells → Nat → Byte → Cells
  | [], a, b => if b = blank a then [] else [(a, b)]
  | (k, x) :: rest, a, b =>
    if a < k then (if b = blank a then (k, x) :: rest else (a, b) :: (k, x) :: rest)
    else if a = k then (if b = blank a then rest else (a, b) :: rest)
    else (k, x) :: Cells.write blank rest a b

/-- The canonical form, for indices from `lo` up. -/
def Cells.wfFrom (blank : Nat → Byte) (size : Nat) : Nat → Cells → Bool
  | _, [] => true
  | lo, (k, b) :: rest => decide (lo ≤ k) && decide (k < size) && b != blank k && Cells.wfFrom blank size (k + 1) rest

/-- The canonical form: indices rise strictly and lie below `size`, and no entry is blank. -/
def Cells.wf (blank : Nat → Byte) (size : Nat) (m : Cells) : Bool := Cells.wfFrom blank size 0 m

/-- The `n` bytes from index `a` on, first byte first. -/
def Cells.readList (blank : Nat → Byte) (m : Cells) : Nat → Nat → List Byte
  | _, 0 => []
  | a, n + 1 => Cells.read blank m a :: Cells.readList blank m (a + 1) n

/-- The bytes written one by one in ascending order from index `a` on (R41). -/
def Cells.writeList (blank : Nat → Byte) (m : Cells) : Nat → List Byte → Cells
  | _, [] => m
  | a, b :: bs => Cells.writeList blank (Cells.write blank m a b) (a + 1) bs

/-! ### Memory -/

/-- Memory is in canonical form: its unlisted addresses hold their reset contents (log 15). -/
def Memory.wf (c : Config) (m : Cells) : Bool := Cells.wf c.resetByte c.memSize m

/-- One byte of memory. -/
def State.readByte (s : State) (a : Nat) : Byte := Cells.read s.cfg.resetByte s.mem a

/-- The range of `n` bytes at `a` lies in memory: the check of R43 and R44, on unbounded numbers (R40). -/
def State.inMemory (s : State) (a n : Nat) : Bool := decide (a + n ≤ s.cfg.memSize)

/-- `MemRead(addr, n)` (R43); `none` where it raises. -/
def State.memRead (s : State) (a : Word) (n : Nat) : Option (List Byte) :=
  if s.inMemory a.toNat n then some (Cells.readList s.cfg.resetByte s.mem a.toNat n) else none

/-- Bytes stored from address `a` on, without a check. -/
def State.storeBytes (s : State) (a : Nat) (bytes : List Byte) : State :=
  { s with mem := Cells.writeList s.cfg.resetByte s.mem a bytes }

/-- `MemWrite(addr, n, bytes)` (R44): all or nothing; `none` where it raises. -/
def State.memWrite (s : State) (a : Word) (bytes : List Byte) : Option State :=
  if s.inMemory a.toNat bytes.length then some (s.storeBytes a.toNat bytes) else none

/-- `read_instruction(pc)`: the big-endian word at `PC` (R41, R45). -/
def State.fetchWord (s : State) : Word :=
  wordOfBytes (s.readByte s.pc.toNat) (s.readByte (s.pc.toNat + 1))

/-! ### Registers -/

/-- `V[x]` (10_state.md R10). -/
def State.reg (s : State) (x : Nibble) : Byte := s.v[x.toNat]'x.isLt

/-- `V[x] <- b` (R10). -/
def State.setReg (s : State) (x : Nibble) (b : Byte) : State := { s with v := s.v.set x.toNat b x.isLt }

/-- The number of the flag register VF (R12). -/
def flagReg : Nibble := 0xF#4

/-- `V[F] <- flag`, 1 or 0 (R12). -/
def State.setFlag (s : State) (flag : Bool) : State := s.setReg flagReg (if flag then 0x01#8 else 0x00#8)

/-- The flag first, the result second, in the order of 42_alu.md R104. -/
def State.setFlagThenReg (s : State) (flag : Bool) (x : Nibble) (result : Byte) : State :=
  (s.setFlag flag).setReg x result

/-- `I <- a` (R15). -/
def State.setI (s : State) (a : Word) : State := { s with i := a }

/-- `DT <- b` (R16). -/
def State.setDt (s : State) (b : Byte) : State := { s with dt := b }

/-- `ST <- b` (R16). -/
def State.setSt (s : State) (b : Byte) : State := { s with st := b }

/-- `V[x], V[x+1], ...` written from a list of bytes, from register number `k` on; a byte past VF goes nowhere. -/
def State.setRegsFrom (s : State) (k : Nat) : List Byte → State
  | [] => s
  | b :: bs => State.setRegsFrom (if k < 16 then s.setReg (BitVec.ofNat 4 k) b else s) (k + 1) bs

/-- `[V[0], ..., V[n-1]]`. -/
def State.regsUpTo (s : State) (n : Nat) : List Byte :=
  (List.range n).map fun k => s.reg (BitVec.ofNat 4 k)

/-! ### Control transfer -/

/-- `pc <- target` (40_cpu_cycle.md R84): PC written, `JumpFlag` set. -/
def State.transfer (s : State) (target : Word) : State := { s with pc := target, jumpFlag := true }

/-- `repeat` (R84): the cycle is repeated at the same PC. -/
def State.repeatCycle (s : State) : State := { s with jumpFlag := true }

/-- `Skip(cond)` (41_control_flow.md R94): a taken skip adds 2 to PC modulo 2^16; `JumpFlag` stays as it is. -/
def State.skipIf (s : State) (cond : Bool) : State := if cond then { s with pc := s.pc + 2#16 } else s

/-! ### Taking a trap -/

/-- `stop(handle)` (48_scheduler.md R156). -/
def State.stopTimer (s : State) (h : Nat) : State :=
  { s with timers := s.timers.modify h fun t => { t with active := false } }

/-- `raise K(info)` (60_exceptions.md R192): the record written with the word fetched in this cycle and the PC of this
moment, and `T_CPU` stopped. Nothing else changes. -/
def State.raise (s : State) (kind : TrapKind) (op : Word) (addr : Nat) : State :=
  { s.stopTimer (s.cfg.handleOf .cpu) with trap := some ⟨kind, op, s.pc, addr⟩ }

/-- The cause codes of R191; 0 means no trap. -/
def TrapKind.code : TrapKind → Nat
  | .stackOverflow => 1
  | .stackUnderflow => 2
  | .invalidOpCode => 3
  | .programCounterOutOfBounds => 4
  | .memoryAccessOutOfBounds => 5

/-- The cause code the host reads (R191). -/
def State.trapCode (s : State) : Nat :=
  match s.trap with
  | none => 0
  | some r => r.kind.code

/-! ### The call stack -/

/-- The entry `Push` would write, where there is room (20_memory.md R47). -/
def State.pushIndex (s : State) : Option Nat :=
  if s.sp = s.cfg.spEmpty then some 0
  else if s.sp.toNat + 1 < s.cfg.stackCap then some (s.sp.toNat + 1)
  else none

/-- `Push(a)` (R47); `none` where it raises `StackOverflow`. -/
def State.push (s : State) (a : Word) : Option State :=
  match s.pushIndex with
  | some k => some { s with sp := BitVec.ofNat 8 k, stack := s.stack.set k a }
  | none => none

/-- What `Pop()` answers. -/
inductive PopResult where
  /-- The stack is empty: `StackUnderflow`. -/
  | empty
  /-- The address popped and the state after. -/
  | value (a : Word) (s : State)
  /-- `SP` names no entry, which 10_state.md R14 says never happens (log 17). -/
  | noEntry

/-- `Pop()` (R48). -/
def State.pop (s : State) : PopResult :=
  if s.sp = s.cfg.spEmpty then .empty
  else
    match s.stack[s.sp.toNat]? with
    | none => .noEntry
    | some a => .value a { s with sp := if s.sp = 0x00#8 then s.cfg.spEmpty else s.sp - 1#8 }

/-! ### Output events -/

/-- What an event makes of `Tone` (10_state.md R29). -/
def Event.toneAfter (e : Event) (tone : Bool) : Bool :=
  match e with
  | .playTone => true
  | .stopTone => false
  | .refresh => tone

/-- `emit e` (00_scope.md R7, 10_state.md R29): the event with the `TickTime` of the wake, and `Tone` following it. -/
def State.emit (s : State) (e : Event) : State :=
  { s with out := s.out ++ [(e, s.tickTime)], tone := e.toneAfter s.tone }

/-- The tone event of a change of ST, if it is one between zero and non-zero (60_exceptions.md R208). -/
def State.emitToneChange (s : State) (old new : Byte) : State :=
  if old = 0x00#8 ∧ new ≠ 0x00#8 then s.emit .playTone
  else if old ≠ 0x00#8 ∧ new = 0x00#8 then s.emit .stopTone
  else s

/-! ### Inputs answered by free values -/

/-- `RandomByte()` now (42_alu.md R111, log 7). -/
def State.randomByte (s : State) : Byte := Config.randomByte s.randDraws

/-- The draw is used up. -/
def State.randomDrawn (s : State) : State := { s with randDraws := s.randDraws + 1 }

/-- `KeyPressed(k)` at this instant (60_exceptions.md R207, log 8). -/
def State.keyPressed (s : State) (k : Nibble) : Bool := Config.keyPressed s.keyDraws k

/-- The instant of asking is over: a later query may get another answer. -/
def State.keysAsked (s : State) : State := { s with keyDraws := s.keyDraws + 1 }

/-- The least `k` in 0..15 with `KeyPressed(k)`, or none; the 16 queries are made at one instant (45_keys_timers.md
R143). -/
def State.firstKey (s : State) : Option Nibble :=
  ((List.range 16).map (BitVec.ofNat 4)).find? fun k => s.keyPressed k

end Sys2Proof.Machine
end

