-- ==== Sys2Proof/Machine/Operands.lean ====
section
/-!
DEFINITION. What an instruction makes of its operands before it acts on them: immediates, addresses, counts, digits, the
origin and cells of a sprite, and the extra bytes of 30_encoding.md R68.
-/

namespace Sys2Proof.Machine

/-- `zext_16` of a 12-bit address (30_encoding.md R67). -/
def addrOf (nnn : Addr12) : Word := nnn.setWidth 16

/-- `zext_16` of a byte (R67). -/
def wordOf (b : Byte) : Word := b.setWidth 16

/-- The key a register names: its low nibble (45_keys_timers.md R140, D21). -/
def keyOf (b : Byte) : Nibble := b.setWidth 4

/-- The return address `PC + 2` modulo 2^16 (41_control_flow.md R92, 10_state.md R13). -/
def State.returnAddr (s : State) : Word := s.pc + 2#16

/-- The target of `Bnnn`: `nnn + V0` as a 16-bit sum (R93, D40). -/
def State.jumpV0Target (s : State) (nnn : Addr12) : Word := addrOf nnn + wordOf (s.reg 0x0#4)

/-- The address of the glyph of a register's value: `V[x] * 5`, not masked (43_index_memory.md R122, D20). -/
def glyphAddr (b : Byte) : Word := wordOf b * 5#16

/-- Hundreds, tens and units (R123). -/
def bcdDigits (b : Byte) : List Byte :=
  [BitVec.ofNat 8 (b.toNat / 100), BitVec.ofNat 8 (b.toNat / 10 % 10), BitVec.ofNat 8 (b.toNat % 10)]

/-- How many registers `Fx55` and `Fx65` move: the field `x` plus 1 (R124, R125). -/
def blockCount (x : Nibble) : Nat := x.toNat + 1

/-- The count of additional bytes an instruction returns (30_encoding.md R68, 40_cpu_cycle.md R83). -/
def extraBytes (c : Config) : Instr → Nat
  | .ldB _ => c.xbBcd
  | .store _ => c.xbStore
  | .load _ => c.xbLoad
  | .cls | .ret | .jp _ | .call _ | .seImm _ _ | .sneImm _ _ | .seReg _ _ _ | .ldImm _ _ | .addImm _ _ | .ldReg _ _
  | .orReg _ _ | .andReg _ _ | .xorReg _ _ | .addReg _ _ | .subReg _ _ | .shr _ _ | .subnReg _ _ | .shl _ _
  | .sneReg _ _ _ | .ldI _ | .jpV0 _ | .rnd _ _ | .drw _ _ _ | .skp _ | .sknp _ | .ldVxDt _ | .ldVxK _ | .ldDtVx _
  | .ldStVx _ | .addI _ | .ldF _ => 0

/-! ### The frame buffer and the cells of a sprite -/

/-- A cell of `FB` that is not listed holds 0x00 (10_state.md R24, log 16). -/
def fbBlank (_ : Nat) : Byte := 0x00#8

/-- The index of the cell at a row and a column. -/
def Config.cellIndex (c : Config) (row col : Nat) : Nat := row * c.dispW + col

/-- `FB[row][col]` (R24). -/
def State.pixel (s : State) (row col : Nat) : Byte := Cells.read fbBlank s.fb (Config.cellIndex s.cfg row col)

/-- The frame buffer is in canonical form and every cell is 0x00 or 0xFF (R24, log 16). -/
def FrameBuffer.wf (c : Config) (fb : Cells) : Bool :=
  Cells.wf fbBlank (c.dispH * c.dispW) fb && fb.all fun e => e.2 == 0xFF#8

/-- The column of a sprite's origin: `V[x] & (DISP_W - 1)` (44_draw.md R131). -/
def State.originCol (s : State) (x : Nibble) : Nat := (s.reg x).toNat &&& (s.cfg.dispW - 1)

/-- The row of a sprite's origin: `V[y] & (DISP_H - 1)` (R131). -/
def State.originRow (s : State) (y : Nibble) : Nat := (s.reg y).toNat &&& (s.cfg.dispH - 1)

/-- The cells of one sprite row at screen row `row`: column `x0 + c` for every set bit `7 - c`, clipped at the right and
the bottom edge (R131, R133). -/
def spriteRowCells (c : Config) (x0 row : Nat) (b : Byte) : List Nat :=
  if row < c.dispH then
    ((List.range 8).filter fun k => b.getLsbD (7 - k) && decide (x0 + k < c.dispW)).map fun k =>
      Config.cellIndex c row (x0 + k)
  else []

/-- The cells of a whole sprite, row by row downward from screen row `row` (R131, R133). -/
def spriteCells (c : Config) (x0 : Nat) : Nat → List Byte → List Nat
  | _, [] => []
  | row, b :: rows => spriteRowCells c x0 row b ++ spriteCells c x0 (row + 1) rows

end Sys2Proof.Machine
end

