-- ==== Sys2Proof/Machine/Flags.lean ====
section
/-!
DEFINITION. Every value the machine writes to VF as a flag (10_state.md R12).
-/

namespace Sys2Proof.Machine

/-- `8xy4`: the 16-bit sum is above 255 (42_alu.md R107). -/
def carryFlag (a b : Byte) : Bool := decide (a.toNat + b.toNat > 255)

/-- `8xy5`, `8xy7`: the first operand is above the second, strictly (R108, R110, R113). -/
def noBorrowFlag (a b : Byte) : Bool := decide (a.toNat > b.toNat)

/-- `8xy6`: the bit shifted out on the right (R109). -/
def lowBitFlag (a : Byte) : Bool := a.getLsbD 0

/-- `8xyE`: the bit shifted out on the left (R112). -/
def highBitFlag (a : Byte) : Bool := a.getLsbD 7

/-- `Fx1E`: 1 in every execution, or 1 above the threshold, as `ADDI_VF` says (43_index_memory.md R121, D18). -/
def addIndexFlag (c : Config) (old : Word) (a : Byte) : Bool :=
  match c.addiVf with
  | .alwaysOne => true
  | .overflow limit => decide (old.toNat + a.toNat > limit)

/-- `Dxyn`: some cell of the sprite is lit before the draw (44_draw.md R133; each cell is visited once). -/
def collisionFlag (fb : Cells) (cells : List Nat) : Bool :=
  cells.any fun p => Cells.read fbBlank fb p == 0xFF#8

end Sys2Proof.Machine
end

