-- ==== Sys2Proof/Machine/Alu.lean ====
section
/-!
DEFINITION. Loads, arithmetic, logic, shifts and random: 42_alu.md R100 to R113.
-/

namespace Sys2Proof.Machine

/-- `6xkk` (R100). -/
def execLdImm (x : Nibble) (kk : Byte) (s : State) : Result := .next (s.setReg x kk)

/-- `7xkk` (R101): wraps, writes no flag. -/
def execAddImm (x : Nibble) (kk : Byte) (s : State) : Result := .next (s.setReg x (s.reg x + kk))

/-- `8xy0` (R102). -/
def execLdReg (x y : Nibble) (s : State) : Result := .next (s.setReg x (s.reg y))

/-- `8xy1` (R103). -/
def execOrReg (x y : Nibble) (s : State) : Result := .next (s.setReg x (s.reg x ||| s.reg y))

/-- `8xy2` (R105). -/
def execAndReg (x y : Nibble) (s : State) : Result := .next (s.setReg x (s.reg x &&& s.reg y))

/-- `8xy3` (R106). -/
def execXorReg (x y : Nibble) (s : State) : Result := .next (s.setReg x (s.reg x ^^^ s.reg y))

/-- `8xy4` (R107, R104). -/
def execAddReg (x y : Nibble) (s : State) : Result :=
  .next (s.setFlagThenReg (carryFlag (s.reg x) (s.reg y)) x (s.reg x + s.reg y))

/-- `8xy5` (R108, R104). -/
def execSubReg (x y : Nibble) (s : State) : Result :=
  .next (s.setFlagThenReg (noBorrowFlag (s.reg x) (s.reg y)) x (s.reg x - s.reg y))

/-- `8xy6` (R109, R104): the operand is VX; `y` is ignored. -/
def execShr (x _y : Nibble) (s : State) : Result :=
  .next (s.setFlagThenReg (lowBitFlag (s.reg x)) x (s.reg x >>> 1))

/-- `8xy7` (R110, R104). -/
def execSubnReg (x y : Nibble) (s : State) : Result :=
  .next (s.setFlagThenReg (noBorrowFlag (s.reg y) (s.reg x)) x (s.reg y - s.reg x))

/-- `8xyE` (R112, R104): the operand is VX; `y` is ignored. -/
def execShl (x _y : Nibble) (s : State) : Result :=
  .next (s.setFlagThenReg (highBitFlag (s.reg x)) x (s.reg x <<< 1))

/-- `Cxkk` (R111): the byte is a free value (log 7). -/
def execRnd (x : Nibble) (kk : Byte) (s : State) : Result :=
  .next (s.randomDrawn.setReg x (s.randomByte &&& kk))

end Sys2Proof.Machine
end

