-- ==== Sys2Proof/Machine/Control.lean ====
section
/-!
DEFINITION. Control transfer: 41_control_flow.md R90 to R99. Each meaning is the execute step of the cycle (40_cpu_cycle.md
R83); the advance of PC and the clearing of `JumpFlag` are the cycle's (Machine/Cycle.lean).
-/

namespace Sys2Proof.Machine

/-- `00EE` (R90): pop the return address; `StackUnderflow` on an empty stack (60_exceptions.md R196). -/
def execRet (s : State) : Result :=
  match s.pop with
  | .empty => .next (s.raise .stackUnderflow (encode .ret) 0)
  | .value a s' => .next (s'.transfer a)
  | .noEntry => .fault .noSuchStackEntry

/-- `1nnn` (R91). -/
def execJp (nnn : Addr12) (s : State) : Result := .next (s.transfer (addrOf nnn))

/-- `2nnn` (R92): push `PC + 2`; `StackOverflow` on a full stack, the record's `addr` the address not pushed
(60_exceptions.md R191, R195). -/
def execCall (nnn : Addr12) (s : State) : Result :=
  match s.push s.returnAddr with
  | some s' => .next (s'.transfer (addrOf nnn))
  | none => .next (s.raise .stackOverflow (encode (.call nnn)) s.returnAddr.toNat)

/-- `Bnnn` (R93). -/
def execJpV0 (nnn : Addr12) (s : State) : Result := .next (s.transfer (s.jumpV0Target nnn))

/-- `3xkk` (R95). -/
def execSeImm (x : Nibble) (kk : Byte) (s : State) : Result := .next (s.skipIf (s.reg x == kk))

/-- `4xkk` (R96). -/
def execSneImm (x : Nibble) (kk : Byte) (s : State) : Result := .next (s.skipIf (s.reg x != kk))

/-- `5xyn` (R97); the low nibble is ignored (30_encoding.md R65). -/
def execSeReg (x y _n : Nibble) (s : State) : Result := .next (s.skipIf (s.reg x == s.reg y))

/-- `9xyn` (R98); the low nibble is ignored (30_encoding.md R65). -/
def execSneReg (x y _n : Nibble) (s : State) : Result := .next (s.skipIf (s.reg x != s.reg y))

end Sys2Proof.Machine
end

