-- ==== Sys2Proof/Machine/Draw.lean ====
section
/-!
DEFINITION. The frame buffer: clear and draw, 44_draw.md R130 to R134. Each update of `FB` is one atomic step under `FBLock`
(10_state.md R25); where the rendering collaborator holds the lock, the cycle does not begin (`cycleHeld` in
Machine/Cycle.lean, log 10).
-/

namespace Sys2Proof.Machine

/-- `00E0` (R130): every cell becomes 0x00, which in canonical form is the empty list. -/
def execCls (s : State) : Result := .next { s with fb := [] }

/-- One cell XORed with 0xFF (R133). -/
def flipCell (fb : Cells) (p : Nat) : Cells :=
  Cells.write fbBlank fb p (Cells.read fbBlank fb p ^^^ 0xFF#8)

/-- The body of the loop of R133: `hit` is set if the cell is lit, then the cell is flipped. -/
def plotCell (acc : Cells × Bool) (p : Nat) : Cells × Bool :=
  (flipCell acc.1 p, acc.2 || Cells.read fbBlank acc.1 p == 0xFF#8)

/-- The loop of R133 over a sprite's cells. -/
def drawCells (fb : Cells) (cells : List Nat) : Cells × Bool := cells.foldl plotCell (fb, false)

/-- `Commit(x, y, n)` (R133) and the return to phase 0 (R132). The origin is read from the registers and the sprite from
memory before anything is written. The deadline of the draw is remembered (log 34). -/
def State.commitDraw (s : State) (x y n : Nibble) : State :=
  match s.memRead s.i n.toNat with
  | none => s.raise .memoryAccessOutOfBounds (encode (.drw x y n)) s.i.toNat
  | some rows =>
    let r := drawCells s.fb (spriteCells s.cfg (s.originCol x) (s.originRow y) rows)
    { s.setFlag r.2 with fb := r.1, drawPhase := .armed, drawnDeadline := some s.drawDeadline }

/-- The refresh-deadline query (48_scheduler.md R175). -/
def State.refreshDeadline (s : State) : Option Nat :=
  (s.timers[s.cfg.handleOf .refresh]?).map Timer.nextDeadline

/-- A draw has already committed at the refresh deadline `d`, or at a later one, and the configuration admits one a deadline
(60_exceptions.md R209, log 34). -/
def State.alreadyDrawn (s : State) (d : Nat) : Bool :=
  s.cfg.oneDrawPerDeadline &&
    match s.drawnDeadline with
    | some e => decide (d ≤ e)
    | none => false

/-- `Dxyn` (R132): armed, waiting, commit. A stored `commit` phase, which no run has, commits (log 18).

"at most one `Dxyn` commit per refresh deadline happens" (60_exceptions.md R209, 70_reset_and_hazards.md R231, R132): a draw that
finds the refresh timer still at a deadline at which one has committed, in a late wake before `T_REFRESH` fires, stays armed and
repeats its cycle until the timer has its next deadline. The pseudocode of R132 records the deadline there all the same, so a
second draw would commit at it. The rules contradict each other; DESIGN CHOICE, log 34: the configuration selects the reading. -/
def execDrw (x y n : Nibble) (s : State) : Result :=
  match s.drawPhase with
  | .armed =>
    match s.refreshDeadline with
    | some d =>
      if s.alreadyDrawn d then .next s.repeatCycle
      else .next ({ s with drawDeadline := d, drawPhase := .waiting }).repeatCycle
    | none => .fault .noRefreshTimer
  | .waiting => if s.tickTime ≥ s.drawDeadline then .next (s.commitDraw x y n) else .next s.repeatCycle
  | .commit => .next (s.commitDraw x y n)

/-- The instruction would update `FB` in this state, so it needs `FBLock` (R130, R132, R133; the sprite is read before the
lock is taken). -/
def needsLock (s : State) : Instr → Bool
  | .cls => true
  | .drw _ _ n =>
    (match s.drawPhase with
      | .armed => false
      | .waiting => decide (s.tickTime ≥ s.drawDeadline)
      | .commit => true) && s.inMemory s.i.toNat n.toNat
  | .ret | .jp _ | .call _ | .seImm _ _ | .sneImm _ _ | .seReg _ _ _ | .ldImm _ _ | .addImm _ _ | .ldReg _ _
  | .orReg _ _ | .andReg _ _ | .xorReg _ _ | .addReg _ _ | .subReg _ _ | .shr _ _ | .subnReg _ _ | .shl _ _
  | .sneReg _ _ _ | .ldI _ | .jpV0 _ | .rnd _ _ | .skp _ | .sknp _ | .ldVxDt _ | .ldVxK _ | .ldDtVx _ | .ldStVx _
  | .addI _ | .ldF _ | .ldB _ | .store _ | .load _ => false

end Sys2Proof.Machine
end

