-- ==== Sys2Proof/Machine/Index.lean ====
section
/-!
DEFINITION. The index register and memory: 43_index_memory.md R120 to R126. `I` is the base of every access and no access
changes it (R126).
-/

namespace Sys2Proof.Machine

/-- `Annn` (R120). -/
def execLdI (nnn : Addr12) (s : State) : Result := .next (s.setI (addrOf nnn))

/-- `Fx1E` (R121): VX and the old `I` are read first; `I` wraps modulo 2^16; VF is written in every execution. -/
def execAddI (x : Nibble) (s : State) : Result :=
  .next ((s.setI (s.i + wordOf (s.reg x))).setFlag (addIndexFlag s.cfg s.i (s.reg x)))

/-- `Fx29` (R122). -/
def execLdF (x : Nibble) (s : State) : Result := .next (s.setI (glyphAddr (s.reg x)))

/-- `Fx33` (R123). -/
def execLdB (x : Nibble) (s : State) : Result :=
  match s.memWrite s.i (bcdDigits (s.reg x)) with
  | some s' => .next s'
  | none => .next (s.raise .memoryAccessOutOfBounds (encode (.ldB x)) s.i.toNat)

/-- `Fx55` (R124). -/
def execStore (x : Nibble) (s : State) : Result :=
  match s.memWrite s.i (s.regsUpTo (blockCount x)) with
  | some s' => .next s'
  | none => .next (s.raise .memoryAccessOutOfBounds (encode (.store x)) s.i.toNat)

/-- `Fx65` (R125, D29). -/
def execLoad (x : Nibble) (s : State) : Result :=
  match s.memRead s.i (blockCount x) with
  | some bytes => .next (s.setRegsFrom 0 bytes)
  | none => .next (s.raise .memoryAccessOutOfBounds (encode (.load x)) s.i.toNat)

end Sys2Proof.Machine
end

