-- ==== Sys2Proof/Machine/KeyTimer.lean ====
section
/-!
DEFINITION. Keys and timer registers: 45_keys_timers.md R140 to R146. The state of the keys is a free value at every
instant of asking (log 8).
-/

namespace Sys2Proof.Machine

/-- `Ex9E` (R140): one query. -/
def execSkp (x : Nibble) (s : State) : Result :=
  .next (s.keysAsked.skipIf (s.keyPressed (keyOf (s.reg x))))

/-- `ExA1` (R141): one query. -/
def execSknp (x : Nibble) (s : State) : Result :=
  .next (s.keysAsked.skipIf (!s.keyPressed (keyOf (s.reg x))))

/-- `KeyCounter <- n` (10_state.md R20). -/
def State.setKeyCounter (s : State) (n : Nat) : State := { s with keyCounter := n }

/-- `KeyPhase <- p` (R20). -/
def State.setKeyPhase (s : State) (p : KeyPhase) : State := { s with keyPhase := p }

/-- `KeyLatched <- k` (R20). -/
def State.latchKey (s : State) (k : Nibble) : State := { s with keyLatched := k }

/-- A key found pressed (R143): latched, written to VX, the cue started, the release awaited. -/
def State.keyFound (s : State) (x k : Nibble) : State :=
  (((s.latchKey k).setReg x (k.setWidth 8)).emit .playTone).setKeyPhase .waitRelease

/-- The latched key found released (R143): the cue stopped; the instruction is complete. -/
def State.keyReleased (s : State) : State := (s.emit .stopTone).setKeyPhase .waitPress

/-- A polling cycle of `Fx0A` (R143). -/
def State.pollKeys (s : State) (x : Nibble) : State :=
  match s.keyPhase with
  | .waitPress =>
    match s.firstKey with
    | some k => (s.keysAsked.keyFound x k).repeatCycle
    | none => s.keysAsked.repeatCycle
  | .waitRelease =>
    if s.keyPressed s.keyLatched then s.keysAsked.repeatCycle else s.keysAsked.keyReleased

/-- `Fx0A` (R143): the counter first; a cycle that does not poll only counts. -/
def execLdVxK (x : Nibble) (s : State) : Result :=
  if s.keyCounter + 1 < s.cfg.keyDiv then .next (s.setKeyCounter (s.keyCounter + 1)).repeatCycle
  else .next ((s.setKeyCounter 0).pollKeys x)

/-- `Fx07` (R142). -/
def execLdVxDt (x : Nibble) (s : State) : Result := .next (s.setReg x s.dt)

/-- `Fx15` (R144). -/
def execLdDtVx (x : Nibble) (s : State) : Result := .next (s.setDt (s.reg x))

/-- `Fx18` (R145): the tone event of a change between zero and non-zero. -/
def execLdStVx (x : Nibble) (s : State) : Result :=
  .next ((s.setSt (s.reg x)).emitToneChange s.st (s.reg x))

end Sys2Proof.Machine
end

