-- ==== Sys2Proof/Machine/Scheduler.lean ====
section
/-!
DEFINITION. The clock scheduler but for the CPU cycle (48_scheduler.md R150 to R178): the timer interface, rescheduling, the
two slow callbacks, the host's commands (60_exceptions.md R210), and the rendering collaborator's actions (R206).
-/

namespace Sys2Proof.Machine

/-! ### Time -/

/-- A fresh reading of `now()`, `gap` later than the last (R157); none at 2^64 ns or later (D47, U18). -/
def State.readClock (s : State) (gap : Nat) : Option State :=
  if s.now + gap < Config.clockEnd then some { s with now := s.now + gap } else none

/-! ### The timer table -/

/-- The record that `register` appends (R152). -/
def Timer.registered (cb : Callback) : Timer where
  kind := .unconfigured
  nextDeadline := 0
  period := 0#64
  active := false
  skipMissed := false
  callback := cb
  wasActive := false
  phaseOffset := 0

/-- `configure_one_shot` (R153) on a record, for a timeout that is not 0. -/
def Timer.asOneShot (t : Timer) (timeout : Duration) : Timer := { t with kind := .oneShot, period := timeout }

/-- `configure_cyclic` (R154) on a record, for a period that is not 0. -/
def Timer.asCyclic (t : Timer) (period : Duration) (skip : Bool) : Timer :=
  { t with kind := .cyclic, period := period, skipMissed := skip }

/-- `start` (R155) on a configured record, at time `t`. -/
def Timer.startedAt (tm : Timer) (t : Nat) : Timer := { tm with nextDeadline := t + tm.period.toNat, active := true }

/-- The timer fires: it is active and its deadline is at or before the snapshot (R159). -/
def Timer.due (tm : Timer) (tick : Nat) : Bool := tm.active && decide (tm.nextDeadline ≤ tick)

/-- The least whole number not below `a / b`. -/
def ceilDiv (a b : Nat) : Nat := (a + b - 1) / b

/-- How many periods a skip-missed timer's deadline moves (R161, D32): at least one, and on to the first grid point at or
after the snapshot. -/
def Timer.periodsToSkip (tm : Timer) (tick : Nat) : Nat := max 1 (ceilDiv (tick - tm.nextDeadline) tm.period.toNat)

/-- `Reschedule` (R160, R161, R162). -/
def Timer.reschedule (tm : Timer) (tick : Nat) : Timer :=
  match tm.kind with
  | .oneShot => { tm with active := false }
  | .cyclic =>
    if tm.skipMissed then { tm with nextDeadline := tm.nextDeadline + tm.periodsToSkip tick * tm.period.toNat }
    else { tm with nextDeadline := tm.nextDeadline + tm.period.toNat }
  | .unconfigured => tm

/-- `Pause` on one record at time `t` (R166). -/
def Timer.pausedAt (tm : Timer) (t : Nat) : Timer :=
  if tm.active then { tm with phaseOffset := (tm.nextDeadline : Int) - t, wasActive := true, active := false }
  else { tm with wasActive := false }

/-- `Resume` on one record at time `t` (R167). -/
def Timer.resumedAt (tm : Timer) (t : Nat) : Timer :=
  if tm.wasActive then
    { tm with nextDeadline := ((t : Int) + tm.phaseOffset).toNat, active := true, wasActive := false }
  else tm

/-- One record of the table changed. -/
def State.changeTimer (s : State) (h : Nat) (f : Timer → Timer) : State := { s with timers := s.timers.modify h f }

/-! ### The timer interface as calls -/

/-- The host is told. -/
def State.answer (s : State) (r : Reply) : State := { s with reply := some r }

/-- A timer call where it is admitted (R152 to R156). A zero period or timeout and a `start` on an unconfigured timer
change nothing and answer an error (D34).

What `now()` reads for a `start` call before `Start`, which R169 admits, is open: R157 defines the time source from `Start`
on. DESIGN CHOICE, log 32: it is the last reading plus the gap, counted from 0 at `Reset`; `Start` then puts it back to
0. -/
def State.timerCall (s : State) : TimerCall → Result
  | .register cb =>
    .next (State.answer { s with timers := s.timers ++ [Timer.registered cb] } (.handle s.timers.length))
  | .configureOneShot h timeout =>
    match s.timers[h]? with
    | none => .refused .noSuchTimer
    | some _ =>
      if timeout = 0#64 then .next (s.answer .error)
      else .next ((s.changeTimer h fun t => t.asOneShot timeout).answer .done)
  | .configureCyclic h period skip =>
    match s.timers[h]? with
    | none => .refused .noSuchTimer
    | some _ =>
      if period = 0#64 then .next (s.answer .error)
      else .next ((s.changeTimer h fun t => t.asCyclic period skip).answer .done)
  | .start h gap =>
    match s.timers[h]? with
    | none => .refused .noSuchTimer
    | some tm =>
      if tm.kind = .unconfigured then .next (s.answer .error)
      else
        match s.readClock gap with
        | none => .refused .clockBeyond64Bits
        | some s' => .next ((s'.changeTimer h fun t => t.startedAt s'.now).answer .done)
  | .stop h =>
    match s.timers[h]? with
    | none => .refused .noSuchTimer
    | some _ => .next ((s.stopTimer h).answer .done)

/-! ### The callbacks of the two slow timers -/

/-- The tick of DT (R172). -/
def State.tickDt (s : State) : State := if s.dt = 0x00#8 then s else s.setDt (s.dt - 1#8)

/-- The tick of ST: `stop_tone` exactly where it becomes zero (R172, 60_exceptions.md R208). -/
def State.tickSt (s : State) : State :=
  if s.st = 0x00#8 then s else (s.setSt (s.st - 1#8)).emitToneChange s.st (s.st - 1#8)

/-- `Decay60` (R172): DT first, then ST. -/
def State.decay60 (s : State) : State := s.tickDt.tickSt

/-- `Refresh` once no composition is running (R173): the collaborator starts one (60_exceptions.md R206). -/
def State.refreshSignal (s : State) : State :=
  { s.emit .refresh with composeBusy := true, copyPending := true }

/-! ### The host's commands -/

/-- `Reset` (70_reset_and_hazards.md R220): the state of 10_state.md R31. What belongs to the outside world (the pending
moves, the collaborator's composition, the counters of free values) is not the machine's to reset (log 25). -/
def State.resetMachine (s : State) : State :=
  { State.resetWith s.cfg with
    composeBusy := s.composeBusy, copyPending := s.copyPending, frame := s.frame, hostQueue := s.hostQueue,
    moves := s.moves, moveDraws := s.moveDraws, randDraws := s.randDraws, keyDraws := s.keyDraws, reply := some .done }

/-- `LoadRom(bytes)` (20_memory.md R49): the bound is strict, and a failed load changes nothing but the answer. -/
def State.loadRom (s : State) (bytes : List Byte) : State :=
  if bytes.length < s.cfg.memSize - s.cfg.progStart then
    (s.storeBytes s.cfg.progStart bytes).answer (.romLoaded true)
  else s.answer (.romLoaded false)

/-- `start` of one system timer at time 0 (R165). -/
def startSystemTimer (c : Config) (timers : List Timer) (t : SysTimer) : List Timer :=
  timers.modify (c.handleOf t) fun tm => tm.startedAt 0

/-- `Start` (R165): the time origin, and the three system timers started at 0, in handle
order (which is `TIMER_ORDER`). -/
def State.startScheduler (s : State) : State :=
  State.answer
    { s with
      sched := .running, now := 0, tickTime := 0,
      timers := s.cfg.timerOrder.foldl (startSystemTimer s.cfg) s.timers }
    .done

/-- `Pause` at the present reading (R166). -/
def State.pauseScheduler (s : State) : State :=
  State.answer { s with sched := .paused, timers := s.timers.map fun tm => Timer.pausedAt tm s.now } .done

/-- `Resume` at the present reading (R167). -/
def State.resumeScheduler (s : State) : State :=
  State.answer { s with sched := .running, timers := s.timers.map fun tm => Timer.resumedAt tm s.now } .done

/-- A host command between two wakes: its effect where 60_exceptions.md R210 admits it, else refused (R247, U14). -/
def State.hostCommand (s : State) : HostCommand → Result
  | .reset => if s.sched = .running then .refused .commandNotAdmitted else .next s.resetMachine
  | .loadRom bytes => if s.sched = .running then .refused .commandNotAdmitted else .next (s.loadRom bytes)
  | .start => if s.sched = .notStarted then .next s.startScheduler else .refused .commandNotAdmitted
  | .pause gap =>
    if s.sched = .running then
      match s.readClock gap with
      | some s' => .next s'.pauseScheduler
      | none => .refused .clockBeyond64Bits
    else .refused .commandNotAdmitted
  | .resume gap =>
    if s.sched = .paused then
      match s.readClock gap with
      | some s' => .next s'.resumeScheduler
      | none => .refused .clockBeyond64Bits
    else .refused .commandNotAdmitted
  | .timer call => if s.sched = .paused then .refused .timerCallNotAdmitted else s.timerCall call

/-! ### The rendering collaborator -/

/-- The next action of the rendering collaborator (60_exceptions.md R206): take `FBLock`; copy `FB` and give the lock back;
finish the composition. With nothing to do it does nothing. -/
def State.rendererMove (s : State) : State :=
  match s.fbLock with
  | .renderer => { s with frame := s.fb, fbLock := .free, copyPending := false }
  | .free =>
    if s.composeBusy && s.copyPending then { s with fbLock := .renderer }
    else { s with composeBusy := false }

/-! ### One wake, step by step -/

/-- A wake begins (R159): the clock is read into `TickTime` and the loop stands before the first timer. -/
def State.beginWake (s : State) (gap : Nat) : Result :=
  match s.readClock gap with
  | some s' => .next { s' with tickTime := s'.now, wake := some ⟨0, 0⟩ }
  | none => .refused .clockBeyond64Bits

/-- After a firing (R159): the timer is rescheduled and its count goes up. -/
def State.afterFiring (s : State) (p : WakePos) : State :=
  { s.changeTimer p.handle fun t => t.reschedule s.tickTime with wake := some ⟨p.handle, p.count + 1⟩ }

/-- The loop turns to the next timer (R159). -/
def State.nextTimer (s : State) (p : WakePos) : State := { s with wake := some ⟨p.handle + 1, 0⟩ }

/-- The wake is over (R159). -/
def State.endWake (s : State) : State := { s with wake := none }

end Sys2Proof.Machine
end

