-- ==== Sys2Proof/Machine/Cycle.lean ====
section
/-!
DEFINITION. The CPU cycle (40_cpu_cycle.md R80 to R87) around `exec`, and the firing of a timer (48_scheduler.md R159).
-/

namespace Sys2Proof.Machine

/-- Step 4 of R80: the PC update with its bound check (R81), then `JumpFlag` cleared. A cycle whose execute step raised a
trap has ended there (R85). -/
def State.endCycle (s : State) (op : Word) (extra : Nat) : State :=
  if s.trap.isSome then s
  else if s.jumpFlag then { s with jumpFlag := false, cycles := s.cycles + 1 }
  else if s.pc.toNat + 2 + extra ≥ s.cfg.memSize then
    s.raise .programCounterOutOfBounds op (s.pc.toNat + 2 + extra)
  else { s with pc := BitVec.ofNat 16 (s.pc.toNat + 2 + extra), jumpFlag := false, cycles := s.cycles + 1 }

/-- Steps 2 to 4 of R80 for the word fetched: decode, execute, update. -/
def State.runWord (s : State) (op : Word) : Result :=
  match decode op with
  | .reject _ => .next (s.raise .invalidOpCode op s.pc.toNat)
  | .instr i =>
    match exec i s with
    | .next s' => .next (s'.endCycle op (extraBytes s.cfg i))
    | .fault f => .fault f
    | .refused r => .refused r

/-- The fetch check of R82 fails: the two bytes at PC do not both lie in memory. -/
def State.fetchOutside (s : State) : Bool := decide (s.pc.toNat + 1 ≥ s.cfg.memSize)

/-- `CpuCycle()` (R80). Once trapped the machine runs no cycle (R86; DEDUCED for a `T_CPU` that a timer call restarted,
log 14). -/
def State.cpuCycle (s : State) : Result :=
  if s.trap.isSome then .next s
  else if s.fetchOutside then .next (s.raise .programCounterOutOfBounds 0x0000#16 s.pc.toNat)
  else s.runWord s.fetchWord

/-- The cycle cannot begin: it would update `FB` and the rendering collaborator holds `FBLock` (10_state.md R25, D41). -/
def State.cycleHeld (s : State) : Bool :=
  s.fbLock == .renderer && s.trap.isNone && !s.fetchOutside &&
    match decode s.fetchWord with
    | .instr i => needsLock s i
    | .reject _ => false

/-- The callback cannot run yet: a cycle that needs `FBLock`, or `Refresh` while a composition is running (48_scheduler.md
R173). -/
def State.callbackHeld (s : State) : Callback → Bool
  | .cpuCycle => s.cycleHeld
  | .refresh => s.composeBusy
  | .decay60 | .noCallback => false

/-- A callback, run to completion (R159, R170, R172, R173). -/
def State.runCallback (s : State) : Callback → Result
  | .cpuCycle => s.cpuCycle
  | .decay60 => .next s.decay60
  | .refresh => .next s.refreshSignal
  | .noCallback => .next s

/-- What a firing of the timer `tm` at handle `h` runs. A cycle happens only as a firing of `T_CPU` (40_cpu_cycle.md R86): a
timer that the host registered with `CpuCycle` runs nothing (DEDUCED, log 33). -/
def State.callbackOf (s : State) (h : Nat) (tm : Timer) : Callback :=
  if tm.callback = .cpuCycle ∧ h ≠ s.cfg.handleOf .cpu then .noCallback else tm.callback

/-- A due timer fires: its callback, then `Reschedule` (R159). While the callback is held the scheduler thread waits and
nothing changes. -/
def State.fireTimer (s : State) (p : WakePos) (tm : Timer) : Result :=
  if tm.kind = .unconfigured then .fault .unconfiguredTimerFired
  else if s.callbackHeld (s.callbackOf p.handle tm) then .next s
  else
    match s.runCallback (s.callbackOf p.handle tm) with
    | .next s' => .next (s'.afterFiring p)
    | .fault f => .fault f
    | .refused r => .refused r

/-- One test of the loop of R159. -/
def State.wakeStep (s : State) (p : WakePos) : Result :=
  match s.timers[p.handle]? with
  | none => .next s.endWake
  | some tm =>
    if tm.due s.tickTime && decide (p.count < s.cfg.maxExecPerWake) then s.fireTimer p tm
    else .next (s.nextTimer p)

/-- A move of the scheduler thread: while running, the next test of the wake in progress or the beginning of a wake; not
started or paused, nothing (R159). -/
def State.schedulerMove (s : State) (gap : Nat) : Result :=
  match s.sched with
  | .notStarted => .next s
  | .paused => .next s
  | .running =>
    match s.wake with
    | some p => s.wakeStep p
    | none => s.beginWake gap

/-- The next move: the first pending one, else a free value (log 5). -/
def State.takeMove (s : State) : Move × State :=
  match s.moves with
  | m :: rest => (m, { s with moves := rest })
  | [] => (Config.freeMove s.moveDraws, { s with moveDraws := s.moveDraws + 1 })

/-- One move of one agent. A host command that comes inside a wake waits for its end (R166, log 11). -/
def State.runMove (s : State) : Move → Result
  | .scheduler gap => s.schedulerMove gap
  | .renderer => .next s.rendererMove
  | .host c =>
    match s.wake with
    | none => s.hostCommand c
    | some _ => .next { s with hostQueue := s.hostQueue ++ [c] }

/-- One step of the machine: a host command that waited for the end of a wake, else one move of one agent. -/
def State.advance (s : State) : Result :=
  match s.wake, s.hostQueue with
  | none, c :: rest => ({ s with hostQueue := rest } : State).hostCommand c
  | _, _ => s.takeMove.2.runMove s.takeMove.1

/-- The two bytes of a table word stored at PC, where they lie in memory. -/
def State.placeWord (s : State) (nbits w : Nat) : State :=
  if s.fetchOutside then s else s.storeBytes s.pc.toNat (bytesOfWord (tableWord nbits w))

/-- The next scheduler move fires `T_CPU`: a wake stands before it, it is active and due, it has fired less often than the
bound, no trap stands, and the collaborator does not hold `FBLock`. -/
def State.beforeCpuFiring (s : State) : State :=
  { s.changeTimer (s.cfg.handleOf .cpu) fun t => { t with active := true, nextDeadline := s.tickTime } with
    sched := .running, wake := some ⟨s.cfg.handleOf .cpu, 0⟩, trap := none, fbLock := .free,
    moves := .scheduler 0 :: s.moves }

end Sys2Proof.Machine
end

