-- ==== Sys2Proof/Machine/Step.lean ====
section
/-!
DEFINITION. The step of the machine, and how the host places one instruction (log 3, log 4).
-/

namespace Sys2Proof.Machine

/-- One step: one move of one agent (70_reset_and_hazards.md R245). -/
def step (s : State) : Host.Outcome State Fault Refusal := s.advance

/-- The state in which the very next step fetches and runs the table's word: the word stored at PC and a wake that is
about to fire `T_CPU`. -/
def State.withFetchWord (s : State) (nbits w : Nat) : State := (s.placeWord nbits w).beforeCpuFiring

end Sys2Proof.Machine
end

