-- ==== Sys2Proof/WellFormed.lean ====
section
/-!
DEFINITION. Two checks: `Instr.wf`, the form in which an assembler emits an instruction, and `Config.wf`, the constraints a
configuration must meet (00_scope.md R5, D39).
-/

namespace Sys2Proof

/-- The field that an instruction ignores is 0, as an assembler emits it (30_encoding.md R65 (a) for classes 5 and 9;
DEDUCED for the `y` field of the shifts, which the syntax of R63 does not name). An instruction that is not in this form
decodes and runs all the same (log 20). -/
def Instr.wf : Instr → Bool
  | .seReg _ _ n => n == 0
  | .sneReg _ _ n => n == 0
  | .shr _ y => y == 0
  | .shl _ y => y == 0
  | _ => true

/-- A power of two, at least 8 (D4, D39). -/
def Config.dispSizeWf (n : Nat) : Bool :=
  decide (8 ≤ n) && (n &&& (n - 1)) == 0

/-- `TIMER_ORDER` is an order of the three system timers (R5). -/
def Config.timerOrderWf (l : List SysTimer) : Bool :=
  l.length == 3 && l.contains .cpu && l.contains .decay && l.contains .refresh

/-- The constraints of R5 and D39: `FONT_LEN <= PROG_START < MEM_SIZE <= 65536`, `1 <= STACK_CAP <= 255`, `SP_EMPTY` outside
`[0, STACK_CAP-1]`, display sizes powers of two of at least 8, both rates in 1..10^9 (so that no period is 0),
`MAX_EXEC_PER_WAKE >= 1`. -/
def Config.wf (c : Config) : Bool :=
  decide (c.font.length ≤ c.progStart) && decide (c.progStart < c.memSize) && decide (c.memSize ≤ 65536) &&
  decide (1 ≤ c.stackCap) && decide (c.stackCap ≤ 255) && decide (c.stackCap ≤ c.spEmpty.toNat) &&
  Config.dispSizeWf c.dispW && Config.dispSizeWf c.dispH &&
  decide (1 ≤ c.cpuHz) && decide (c.cpuHz ≤ 1000000000) &&
  decide (1 ≤ c.frameHz) && decide (c.frameHz ≤ 1000000000) &&
  decide (1 ≤ c.maxExecPerWake) && Config.timerOrderWf c.timerOrder

end Sys2Proof
end

