-- ==== Sys2Proof/Safety.lean ====
section
/-!
DEFINITION. What claims are stated in: a safe state, the end of a run (70_reset_and_hazards.md R224), where a step of the
scheduler stands, frames, the table of reset values, and the invariant of the machine, one part for each promise the spec
makes about its state.
-/

namespace Sys2Proof.Machine

/-- No trap has been taken: a trapped state is a fault of the program (R224, R247). -/
def State.safe (s : State) : Bool := s.trap.isNone

/-- Definition (a) of R224: PC stands at a jump to itself and no multi-cycle instruction is in progress. -/
def State.inIdleLoop (s : State) : Bool :=
  !s.fetchOutside && decide (decode s.fetchWord = .instr (.jp (s.pc.setWidth 12))) &&
  decide (addrOf (s.pc.setWidth 12) = s.pc) && decide (s.drawPhase = .armed) && decide (s.keyPhase = .waitPress)

/-- The program has finished, as the parameter `END_OF_RUN` says (R224); a trapped state is never a normal end. -/
def State.finished (s : State) : Bool :=
  s.safe &&
  match s.cfg.endOfRun with
  | .idleLoop => s.inIdleLoop
  | .cycles n => decide (n ≤ s.cycles)

/-! ### Where a step of the scheduler stands -/

/-- The next move is the scheduler's and leaves the state `u` to run in (log 5); the scheduler runs, and its wake stands at
`p`, before the timer `tm` (48_scheduler.md R159, log 4). -/
def State.StandsAt (s u : State) (p : WakePos) (tm : Timer) : Prop :=
  (∃ gap, s.takeMove = (.scheduler gap, u)) ∧ s.sched = .running ∧ s.wake = some p ∧ s.timers[p.handle]? = some tm

/-- The next step fires the timer `tm`: the wake stands before it, it is configured, active and due, and it has fired less
often in this wake than the bound (R159, R163). -/
structure State.Fires (s u : State) (p : WakePos) (tm : Timer) : Prop where
  stands : s.StandsAt u p tm
  configured : tm.kind ≠ .unconfigured
  active : tm.active = true
  due : tm.nextDeadline ≤ s.tickTime
  bound : p.count < s.cfg.maxExecPerWake

/-- The next step fires `T_CPU` (R170). -/
def State.FiresCpu (s u : State) (p : WakePos) (tm : Timer) : Prop :=
  s.Fires u p tm ∧ p.handle = s.cfg.handleOf .cpu ∧ tm.callback = .cpuCycle

/-! ### Frames -/

/-- Nothing but the registers of the list may differ between the two states. -/
def State.ChangesOnlyRegs (s t : State) (xs : List Nibble) : Prop :=
  t = { s with v := t.v } ∧ ∀ y, y ∉ xs → t.reg y = s.reg y

/-- Nothing but memory may differ, and every byte outside the `n` bytes at `a` reads as before. -/
def State.ChangesOnlyBytes (s t : State) (a n : Nat) : Prop :=
  t = { s with mem := t.mem } ∧ ∀ p, p < a ∨ a + n ≤ p → t.readByte p = s.readByte p

/-- Nothing but what a trap writes differs: the record, and the `active` bit of `T_CPU`, which is 0 (60_exceptions.md
R192). -/
def State.ChangesOnlyByTrap (s t : State) (r : TrapRecord) : Prop :=
  t = { s with trap := some r, timers := t.timers } ∧ t.timers.length = s.timers.length ∧
  ∀ h tm, s.timers[h]? = some tm →
    t.timers[h]? = some (if h = s.cfg.handleOf .cpu then { tm with active := false } else tm)

/-- The set pixel of a sprite of `n` rows at `I` that falls on the cell `(row, col)`, with the origin `(x0, y0)`
(44_draw.md R131): the cell lies in the 8-by-`n` rectangle at the origin, and bit `7 - (col - x0)` of the row's byte is
set. -/
def State.spriteCovers (s : State) (x0 y0 n row col : Nat) : Bool :=
  decide (y0 ≤ row) && decide (row < y0 + n) && decide (x0 ≤ col) && decide (col < x0 + 8) &&
  (s.readByte (s.i.toNat + (row - y0))).getLsbD (7 - (col - x0))

/-- The value of `Tone` that a trace of events leaves (10_state.md R29): the last tone event decides. -/
def toneAfterEvents : Bool → List (Event × Nat) → Bool
  | tone, [] => tone
  | tone, (e, _) :: rest => toneAfterEvents (e.toneAfter tone) rest

/-- `Tone` follows the tone events of `Out` (R29). -/
def State.ToneInv (s : State) : Prop := s.tone = toneAfterEvents false s.out

/-- The table of 10_state.md R31, with the contents of memory of R22 and R23, the blank `FB` of R24, and the rows of the three
system timers of R28. -/
structure State.HasResetValues (s : State) : Prop where
  v : ∀ x, s.reg x = 0x00#8
  pc : s.pc.toNat = s.cfg.progStart
  sp : s.sp = s.cfg.spEmpty
  i : s.i = 0x0000#16
  dt : s.dt = 0x00#8
  st : s.st = 0x00#8
  jumpFlag : s.jumpFlag = false
  stack : s.stack = List.replicate s.cfg.stackCap 0x0000#16
  font : ∀ a, (h : a < s.cfg.font.length) → s.readByte a = s.cfg.font[a]
  rest : ∀ a, s.cfg.font.length ≤ a → s.readByte a = 0x00#8
  fb : ∀ row col, s.pixel row col = 0x00#8
  fbLock : s.fbLock = .free
  drawPhase : s.drawPhase = .armed
  drawDeadline : s.drawDeadline = 0
  keyPhase : s.keyPhase = .waitPress
  keyCounter : s.keyCounter = 0
  keyLatched : s.keyLatched = 0x0#4
  trap : s.trap = none
  sched : s.sched = .notStarted
  tickTime : s.tickTime = 0
  tone : s.tone = false
  out : s.out = []
  timerCount : s.timers.length = 3
  timers : ∀ t : SysTimer, ∃ tm, s.timers[s.cfg.handleOf t]? = some tm ∧ tm.kind = .cyclic ∧
    tm.period.toNat = s.cfg.period t ∧ tm.callback = t.callback ∧ tm.skipMissed = t.skipMissed ∧ tm.active = false ∧
    tm.nextDeadline = 0 ∧ tm.wasActive = false ∧ tm.phaseOffset = 0

/-! ### The invariant -/

/-- Memory is in canonical form. -/
def State.MemoryInv (s : State) : Prop := Memory.wf s.cfg s.mem = true

/-- `FB` is in canonical form and every cell is 0x00 or 0xFF (10_state.md R24). -/
def State.FrameBufferInv (s : State) : Prop := FrameBuffer.wf s.cfg s.fb = true

/-- The stack has `STACK_CAP` entries and "`SP` only ever holds the sentinel or an index in range" (10_state.md R14,
R18). -/
def State.StackInv (s : State) : Prop :=
  s.stack.length = s.cfg.stackCap ∧ (s.sp = s.cfg.spEmpty ∨ s.sp.toNat < s.cfg.stackCap)

/-- Between two steps `JumpFlag` is 0 (R17), `DrawPhase` is never `Commit` (R19) and `KeyCounter` stays below `KEY_DIV`
(R20). -/
def State.CycleInv (s : State) : Prop :=
  s.jumpFlag = false ∧ s.drawPhase ≠ .commit ∧ s.keyCounter < s.cfg.keyDiv

/-- The snapshot is no later than the last reading, and the clock has not run over 64 bits (48_scheduler.md R157, R158). -/
def State.ClockInv (s : State) : Prop := s.tickTime ≤ s.now ∧ s.now < Config.clockEnd

/-- A configured timer has a period that is not 0 (10_state.md R27); an unconfigured one is neither active nor put aside by
a pause (48_scheduler.md R155). -/
def Timer.Legal (tm : Timer) : Prop :=
  (tm.kind ≠ .unconfigured → tm.period ≠ 0#64) ∧ (tm.kind = .unconfigured → tm.active = false ∧ tm.wasActive = false)

/-- Every timer is legal, and each system timer stands at its handle, configured, with its callback (R28, R151). -/
def State.TimerInv (s : State) : Prop :=
  (∀ tm ∈ s.timers, tm.Legal) ∧
  ∀ t : SysTimer, ∃ tm, s.timers[s.cfg.handleOf t]? = some tm ∧ tm.kind ≠ .unconfigured ∧ tm.callback = t.callback

/-- A wake is in progress only while the scheduler runs, and no timer has fired oftener in it than the bound allows
(48_scheduler.md R159, R163). -/
def State.WakeInv (s : State) : Prop :=
  ∀ p, s.wake = some p → s.sched = .running ∧ p.count ≤ s.cfg.maxExecPerWake

/-- The rendering collaborator holds `FBLock` only to take the copy of a composition in progress (60_exceptions.md
R206). -/
def State.LockInv (s : State) : Prop := s.fbLock = .renderer → s.composeBusy = true ∧ s.copyPending = true

/-- Where the configuration admits one draw per refresh deadline, a draw that waits has a later deadline than the one that
committed last (60_exceptions.md R209, log 34). -/
def State.DrawInv (s : State) : Prop :=
  s.cfg.oneDrawPerDeadline = true → s.drawPhase = .waiting → ∀ d, s.drawnDeadline = some d → d < s.drawDeadline

/-- The invariant of the machine. -/
structure State.Inv (s : State) : Prop where
  config : s.cfg.wf = true
  memory : s.MemoryInv
  frameBuffer : s.FrameBufferInv
  stack : s.StackInv
  cycle : s.CycleInv
  clock : s.ClockInv
  timer : s.TimerInv
  wake : s.WakeInv
  lock : s.LockInv
  draw : s.DrawInv

end Sys2Proof.Machine
end

