-- ==== Sys2Proof/Certificates/Slice0/Obligations.lean ====
section
/-!
DEFINITION. The statements for the provers. Each says which rule of spec/ it rests on; where it rests on a choice of the
model, it names the log entry.
-/

open Sys2Proof Sys2Proof.Machine

/-! ### Encoding -/

/-- Words written out from the encodings of 30_encoding.md R61, R63 and the decode vectors of 95_test_vectors.md section 2
decode to the instructions named there. The bits that R65 says are ignored (the low nibble of 0x5121, the `y` field of 0x8126)
come back as operands, which is the model's choice, log 20: R70 and the vectors name `SE V1, V2` and `SHR V1` without them. -/
def Obligations.SpecWordsDecodeAsNamed : Prop :=
  decode 0x00E0#16 = .instr .cls ∧ decode 0x00EE#16 = .instr .ret ∧ decode 0x0000#16 = .reject .invalidOpCode ∧
  decode 0x1ABC#16 = .instr (.jp 0xABC#12) ∧ decode 0x5121#16 = .instr (.seReg 0x1#4 0x2#4 0x1#4) ∧
  decode 0x6105#16 = .instr (.ldImm 0x1#4 0x05#8) ∧ decode 0x8014#16 = .instr (.addReg 0x0#4 0x1#4) ∧
  decode 0x8126#16 = .instr (.shr 0x1#4 0x2#4) ∧ decode 0x8128#16 = .reject .invalidOpCode ∧
  decode 0xBF00#16 = .instr (.jpV0 0xF00#12) ∧ decode 0xD125#16 = .instr (.drw 0x1#4 0x2#4 0x5#4) ∧
  decode 0xE19E#16 = .instr (.skp 0x1#4) ∧ decode 0xF133#16 = .instr (.ldB 0x1#4) ∧
  decode 0xF1FF#16 = .reject .invalidOpCode

/-- Decoding what the encoder writes gives the instruction back, for every instruction with every operand (30_encoding.md
R61, R62, R70; the ignored bits of R65 are operands here, log 20). -/
def Obligations.DecodeOfEncodeIsTheInstruction : Prop := ∀ i : Instr, decode (encode i) = .instr i

/-- Every word that decodes is the word of the instruction it decodes to (R61, R62). That the bits which R65 says are ignored
come back too is the model's choice, not the spec's: log 20 keeps them as operands. -/
def Obligations.EncodeOfDecodeIsTheWord : Prop := ∀ (op : Word) (i : Instr), decode op = .instr i → encode i = op

/-- R63: 34 rows; a word that decodes selects the row of its instruction; no two rows match the same word; a word that
matches no row is invalid, and no other word is; and every row is some instruction's. -/
def Obligations.OpcodeMapRowsSelectTheirWords : Prop :=
  opcodeRows.length = 34 ∧
  (∀ op i, decode op = .instr i → rowOf i ∈ opcodeRows ∧ (rowOf i).selects op = true) ∧
  (∀ op r r', r ∈ opcodeRows → r' ∈ opcodeRows → r.selects op = true → r'.selects op = true → r = r') ∧
  (∀ op, decode op = .reject .invalidOpCode ↔ ∀ r ∈ opcodeRows, r.selects op = false) ∧
  (∀ r ∈ opcodeRows, ∃ i, rowOf i = r)

/-- R66: which words are invalid, class by class. -/
def Obligations.InvalidWordsByClass : Prop :=
  ∀ op : Word, decode op = .reject .invalidOpCode ↔
    ((classOf op = 0x0#4 ∧ nnnOf op ≠ 0x0E0#12 ∧ nnnOf op ≠ 0x0EE#12) ∨
      (classOf op = 0x8#4 ∧ nOf op ∈ [0x8#4, 0x9#4, 0xA#4, 0xB#4, 0xC#4, 0xD#4, 0xF#4]) ∨
      (classOf op = 0xE#4 ∧ kkOf op ≠ 0x9E#8 ∧ kkOf op ≠ 0xA1#8) ∨
      (classOf op = 0xF#4 ∧
        kkOf op ∉ [0x07#8, 0x0A#8, 0x15#8, 0x18#8, 0x1E#8, 0x29#8, 0x33#8, 0x55#8, 0x65#8]))

/-! ### The cycle and traps -/

/-- What a step of the scheduler does in its wake, one test of the loop of 48_scheduler.md R159 a step (the granularity is the
model's, log 4). With no wake in progress and no command waiting, the clock's fresh reading goes into `TickTime` and a wake
begins before the first timer (R158; the reading is the model's form of it, log 6). A timer that is not due, or has fired
`MAX_EXEC_PER_WAKE` times, is passed over without its callback (R163); past the last timer the wake ends. A firing of `T_CPU`
with no trap taken and both bytes at PC in memory (high byte first, 20_memory.md R41) and decoding to `i` is `exec i`, then the
cycle's PC update with the fetched word and the instruction's extra bytes, then the reschedule (40_cpu_cycle.md R80, R83); it
waits and changes nothing while it needs `FBLock` and the collaborator holds it (log 10). Once trapped, and for any timer but
`T_CPU` registered with `CpuCycle`, a firing runs no cycle (R86; logs 14, 33). Where the scheduler does not run (`NotStarted` or
`Paused`), its move changes nothing and only is used up (R159, R166; the form is log 28). -/
def Obligations.StepRunsTheDecodedInstruction : Prop :=
  (∀ (s u : State) (gap : Nat), s.takeMove = (.scheduler gap, u) → s.sched = .running → s.wake = none →
    s.hostQueue = [] → s.now + gap < Config.clockEnd →
    step s = .next { u with now := s.now + gap, tickTime := s.now + gap, wake := some ⟨0, 0⟩ }) ∧
  (∀ (s u : State) (gap : Nat) (p : WakePos), s.takeMove = (.scheduler gap, u) → s.sched = .running → s.wake = some p →
    s.timers.length ≤ p.handle → step s = .next { u with wake := none }) ∧
  (∀ (s u : State) (p : WakePos) (tm : Timer), s.StandsAt u p tm →
    (tm.active = false ∨ s.tickTime < tm.nextDeadline ∨ s.cfg.maxExecPerWake ≤ p.count) →
    step s = .next { u with wake := some ⟨p.handle + 1, 0⟩ }) ∧
  (∀ (s u t : State) (p : WakePos) (tm : Timer) (i : Instr), s.FiresCpu u p tm →
    s.trap = none → s.pc.toNat + 1 < s.cfg.memSize →
    decode (BitVec.ofNat 16 ((s.readByte s.pc.toNat).toNat * 256 + (s.readByte (s.pc.toNat + 1)).toNat)) = .instr i →
    (s.fbLock = .renderer ∧ needsLock s i = true → step s = .next u) ∧
    (s.fbLock = .free ∨ needsLock s i = false → exec i u = .next t →
      step s = .next
        ((t.endCycle (BitVec.ofNat 16 ((s.readByte s.pc.toNat).toNat * 256 + (s.readByte (s.pc.toNat + 1)).toNat))
          (extraBytes s.cfg i)).afterFiring p))) ∧
  (∀ (s u : State) (p : WakePos) (tm : Timer), s.Fires u p tm →
    (tm.callback = .cpuCycle ∧ (s.trap.isSome ∨ p.handle ≠ s.cfg.handleOf .cpu)) ∨ tm.callback = .noCallback →
    step s = .next (u.afterFiring p)) ∧
  ∀ (s u : State) (gap : Nat), s.takeMove = (.scheduler gap, u) → s.sched ≠ .running →
    (s.wake = none → s.hostQueue = []) → step s = .next u

/-- R80 step 4 and R81: with `JumpFlag` 0, PC moves by `2 + extra` where that is below `MEM_SIZE`, and otherwise
`ProgramCounterOutOfBounds` is raised with the would-be PC and the instruction's effects stay; with `JumpFlag` 1, PC
stays; `JumpFlag` is 0 afterwards. A cycle whose execute step has raised a trap has ended there, so nothing of it is changed any
more, PC and the record among them (R85, 60_exceptions.md R203). The extra bytes of every instruction but the three of 30_encoding.md R68 are 0
(40_cpu_cycle.md R83). The counter of completed cycles is the model's own (log 22). -/
def Obligations.PcUpdateAdvancesHoldsOrTraps : Prop :=
  (∀ (s : State) (op : Word) (extra : Nat), s.trap = none →
    (s.jumpFlag = true → s.endCycle op extra = { s with jumpFlag := false, cycles := s.cycles + 1 }) ∧
    (s.jumpFlag = false → s.pc.toNat + 2 + extra < s.cfg.memSize → s.cfg.memSize ≤ 65536 →
      ∃ t, s.endCycle op extra = t ∧ t.pc.toNat = s.pc.toNat + 2 + extra ∧
        t = { s with pc := t.pc, cycles := s.cycles + 1 }) ∧
    (s.jumpFlag = false → s.cfg.memSize ≤ s.pc.toNat + 2 + extra →
      s.ChangesOnlyByTrap (s.endCycle op extra)
        ⟨.programCounterOutOfBounds, op, s.pc, s.pc.toNat + 2 + extra⟩)) ∧
  (∀ (s : State) (op : Word) (extra : Nat), s.trap.isSome → s.endCycle op extra = s) ∧
  ∀ (c : Config) (i : Instr), (∀ x, i ≠ .ldB x) → (∀ x, i ≠ .store x) → (∀ x, i ≠ .load x) → extraBytes c i = 0

/-- R82: a cycle whose PC does not have both bytes in memory raises `ProgramCounterOutOfBounds` with opcode 0 and does
nothing else; a step that fires `T_CPU` there is that cycle and the reschedule (a firing is one step: log 4). -/
def Obligations.FetchOutsideMemoryTraps : Prop :=
  (∀ s : State, s.trap = none → s.cfg.memSize ≤ s.pc.toNat + 1 →
    ∃ t, s.cpuCycle = .next t ∧
      s.ChangesOnlyByTrap t ⟨.programCounterOutOfBounds, 0x0000#16, s.pc, s.pc.toNat⟩) ∧
  ∀ (s u : State) (p : WakePos) (tm : Timer), s.FiresCpu u p tm → s.trap = none → s.cfg.memSize ≤ s.pc.toNat + 1 →
    ∃ t, u.ChangesOnlyByTrap t ⟨.programCounterOutOfBounds, 0x0000#16, s.pc, s.pc.toNat⟩ ∧
      step s = .next (t.afterFiring p)

/-- R194: the decode step raises `InvalidOpCode` on a word that is no instruction; nothing changes but the record and the
`active` bit of `T_CPU` (R192); the zero word is one of them. A step that fires `T_CPU` at such a word is that cycle and the
reschedule (R159; that a firing is one step is the model's choice, log 4). -/
def Obligations.InvalidWordRaisesInvalidOpCode : Prop :=
  (∀ (s : State) (e : DecodeError), s.trap = none → s.pc.toNat + 1 < s.cfg.memSize →
    decode s.fetchWord = .reject e →
    ∃ t, s.cpuCycle = .next t ∧ s.ChangesOnlyByTrap t ⟨.invalidOpCode, s.fetchWord, s.pc, s.pc.toNat⟩) ∧
  (∀ (s u : State) (p : WakePos) (tm : Timer) (e : DecodeError), s.FiresCpu u p tm → s.trap = none →
    s.pc.toNat + 1 < s.cfg.memSize → decode s.fetchWord = .reject e →
    ∃ t, u.ChangesOnlyByTrap t ⟨.invalidOpCode, s.fetchWord, s.pc, s.pc.toNat⟩ ∧ step s = .next (t.afterFiring p)) ∧
  TrapKind.invalidOpCode.code = 3 ∧ decode 0x0000#16 = .reject .invalidOpCode

/-- 60_exceptions.md R192: taking a trap writes the record with the word, the PC of the moment and the address, clears the
`active` bit of `T_CPU`, and changes nothing else; the codes are those of R191. -/
def Obligations.TrapEntryWritesRecordAndStopsCpuTimer : Prop :=
  (∀ (s : State) (k : TrapKind) (op : Word) (a : Nat), s.ChangesOnlyByTrap (s.raise k op a) ⟨k, op, s.pc, a⟩) ∧
  TrapKind.stackOverflow.code = 1 ∧ TrapKind.stackUnderflow.code = 2 ∧ TrapKind.invalidOpCode.code = 3 ∧
  TrapKind.programCounterOutOfBounds.code = 4 ∧ TrapKind.memoryAccessOutOfBounds.code = 5

/-- R192, R201, R241: while the scheduler runs, a trapped machine keeps its trap record, its registers but DT and ST, its
memory, stack, frame buffer and multi-cycle state through every step. -/
def Obligations.TrappedMachineStaysTrapped : Prop :=
  ∀ (s t : State) (r : TrapRecord), s.trap = some r → s.sched = .running → step s = .next t →
    t.trap = some r ∧ t.v = s.v ∧ t.pc = s.pc ∧ t.sp = s.sp ∧ t.i = s.i ∧ t.jumpFlag = s.jumpFlag ∧
    t.stack = s.stack ∧ t.mem = s.mem ∧ t.fb = s.fb ∧ t.drawPhase = s.drawPhase ∧ t.drawDeadline = s.drawDeadline ∧
    t.drawnDeadline = s.drawnDeadline ∧
    t.keyPhase = s.keyPhase ∧ t.keyCounter = s.keyCounter ∧ t.keyLatched = s.keyLatched ∧ t.cycles = s.cycles

/-- R85, R203: an instruction that raises a trap in its execute step leaves the state of the start of the cycle but for the
trap record and the `active` bit of `T_CPU`; the record holds the instruction's word and its PC. -/
def Obligations.ExecuteTrapsArePrecise : Prop :=
  ∀ (i : Instr) (s t : State) (r : TrapRecord), s.trap = none → exec i s = .next t → t.trap = some r →
    s.ChangesOnlyByTrap t r ∧ r.opcode = encode i ∧ r.pc = s.pc

/-- R191, R199: the execute step of CALL raises `StackOverflow` only, of RET `StackUnderflow` only, of the four memory
instructions `MemoryAccessOutOfBounds` with `addr = I` only, and no other instruction raises a trap there. -/
def Obligations.EachInstructionRaisesOnlyItsOwnTrap : Prop :=
  ∀ (i : Instr) (s t : State) (r : TrapRecord), s.trap = none → exec i s = .next t → t.trap = some r →
    (r.kind = .stackOverflow ∧ ∃ nnn, i = .call nnn) ∨ (r.kind = .stackUnderflow ∧ i = .ret ∧ r.addr = 0) ∨
    (r.kind = .memoryAccessOutOfBounds ∧ r.addr = s.i.toNat ∧
      ((∃ x, i = .ldB x) ∨ (∃ x, i = .store x) ∨ (∃ x, i = .load x) ∨ ∃ x y n, i = .drw x y n))

/-! ### Control transfer -/

/-- R90: with an entry at SP, RET completes: PC is that entry, SP names the entry below (the sentinel from 0), `JumpFlag` is
set, and nothing else changes. -/
def Obligations.ReturnPopsTheTopAddress : Prop :=
  ∀ (s : State) (a : Word), s.sp ≠ s.cfg.spEmpty → s.stack[s.sp.toNat]? = some a →
    ∃ t, exec .ret s = .next t ∧ t.pc = a ∧
      (s.sp.toNat = 0 → t.sp = s.cfg.spEmpty) ∧ (0 < s.sp.toNat → t.sp.toNat = s.sp.toNat - 1) ∧
      t = { s with pc := t.pc, sp := t.sp, jumpFlag := true }

/-- R196: RET on the empty stack raises `StackUnderflow` with `addr = 0`; SP stays. -/
def Obligations.ReturnOnEmptyStackTraps : Prop :=
  ∀ s : State, s.sp = s.cfg.spEmpty →
    ∃ t, exec .ret s = .next t ∧ s.ChangesOnlyByTrap t ⟨.stackUnderflow, 0x00EE#16, s.pc, 0⟩ ∧ t.sp = s.cfg.spEmpty ∧
      TrapKind.stackUnderflow.code = 2

/-- R92 with R47: with room on the stack, CALL completes: SP names the next entry (0 from the empty stack), which holds
`PC + 2`; every other entry keeps its value; PC is the target, `JumpFlag` is set, nothing else changes. -/
def Obligations.CallPushesTheReturnAddress : Prop :=
  ∀ (s : State) (nnn : Addr12), s.cfg.stackCap ≤ 255 → s.stack.length = s.cfg.stackCap → 1 ≤ s.cfg.stackCap →
    (s.sp = s.cfg.spEmpty ∨ s.sp.toNat + 1 < s.cfg.stackCap) →
    ∃ t, exec (.call nnn) s = .next t ∧
      t.sp.toNat = (if s.sp = s.cfg.spEmpty then 0 else s.sp.toNat + 1) ∧
      t.stack[t.sp.toNat]? = some (BitVec.ofNat 16 (s.pc.toNat + 2)) ∧
      (∀ k, k ≠ t.sp.toNat → t.stack[k]? = s.stack[k]?) ∧ t.pc.toNat = nnn.toNat ∧
      t = { s with pc := t.pc, sp := t.sp, stack := t.stack, jumpFlag := true }

/-- R195: CALL on the full stack raises `StackOverflow`, with the return address that was not pushed; SP, the stack entries
and PC are unchanged. -/
def Obligations.CallOnFullStackTraps : Prop :=
  ∀ (s : State) (nnn : Addr12), s.sp ≠ s.cfg.spEmpty → s.cfg.stackCap ≤ s.sp.toNat + 1 →
    ∃ t, exec (.call nnn) s = .next t ∧
      s.ChangesOnlyByTrap t ⟨.stackOverflow, encode (.call nnn), s.pc, (s.pc + 2#16).toNat⟩ ∧
      TrapKind.stackOverflow.code = 1

/-- R91, R93: a jump completes in every state: PC is `nnn`, or the 16-bit sum `nnn + V0`, `JumpFlag` is set, nothing else
changes. -/
def Obligations.JumpsSetPcAndJumpFlag : Prop :=
  ∀ (s : State) (nnn : Addr12),
    (∃ t, exec (.jp nnn) s = .next t ∧ t.pc.toNat = nnn.toNat ∧ t = { s with pc := t.pc, jumpFlag := true }) ∧
    ∃ t, exec (.jpV0 nnn) s = .next t ∧ t.pc.toNat = (nnn.toNat + (s.reg 0x0#4).toNat) % 65536 ∧
      t = { s with pc := t.pc, jumpFlag := true }

/-- R94 to R98: a skip completes in every state: PC moves by 2 modulo 2^16 exactly when its comparison holds, and nothing
else changes; the low nibble of classes 5 and 9 plays no part (30_encoding.md R65). -/
def Obligations.SkipsMovePcExactlyWhenTaken : Prop :=
  ∀ (s : State) (x y n : Nibble) (kk : Byte) (i : Instr) (taken : Prop),
    (i = .seImm x kk ∧ (taken ↔ s.reg x = kk)) ∨ (i = .sneImm x kk ∧ (taken ↔ s.reg x ≠ kk)) ∨
      (i = .seReg x y n ∧ (taken ↔ s.reg x = s.reg y)) ∨ (i = .sneReg x y n ∧ (taken ↔ s.reg x ≠ s.reg y)) →
    ∃ t, exec i s = .next t ∧ t = { s with pc := t.pc } ∧
      (taken → t.pc.toNat = (s.pc.toNat + 2) % 65536) ∧ (¬taken → t.pc = s.pc)

/-- R90, R92, D23: a return after a call comes back to the instruction after the call with the stack pointer of before,
from every state whose stack keeps its promises (`State.StackInv`) and has room. -/
def Obligations.CallThenReturnComesBack : Prop :=
  ∀ (s : State) (nnn : Addr12), s.cfg.wf = true → s.StackInv →
    (s.sp = s.cfg.spEmpty ∨ s.sp.toNat + 1 < s.cfg.stackCap) →
    ∃ t u, exec (.call nnn) s = .next t ∧ exec .ret t = .next u ∧ u.pc = s.pc + 2#16 ∧ u.sp = s.sp ∧
      u.v = s.v ∧ u.mem = s.mem

/-- R47: from the empty stack, `STACK_CAP` pushes succeed and the entries are the addresses pushed; one further push
overflows. -/
def Obligations.StackHoldsCapacityAddresses : Prop :=
  ∀ (s : State) (as : List Word), s.cfg.wf = true → s.stack.length = s.cfg.stackCap → s.sp = s.cfg.spEmpty →
    as.length = s.cfg.stackCap →
    ∃ t, as.foldlM State.push s = some t ∧ t.stack = as ∧ t.sp.toNat = s.cfg.stackCap - 1 ∧
      ∀ a, t.push a = none

/-! ### Register and ALU -/

/-- R100 to R103, R105, R106: these six complete in every state, write VX as said and change nothing else (VF only where
`x = F`). -/
def Obligations.LoadsAndLogicWriteOnlyVx : Prop :=
  ∀ (s : State) (x y : Nibble) (kk : Byte),
    (∃ t, exec (.ldImm x kk) s = .next t ∧ t.reg x = kk ∧ s.ChangesOnlyRegs t [x]) ∧
    (∃ t, exec (.addImm x kk) s = .next t ∧ (t.reg x).toNat = ((s.reg x).toNat + kk.toNat) % 256 ∧
      s.ChangesOnlyRegs t [x]) ∧
    (∃ t, exec (.ldReg x y) s = .next t ∧ t.reg x = s.reg y ∧ s.ChangesOnlyRegs t [x]) ∧
    (∃ t, exec (.orReg x y) s = .next t ∧
      (∀ k, (t.reg x).getLsbD k = ((s.reg x).getLsbD k || (s.reg y).getLsbD k)) ∧ s.ChangesOnlyRegs t [x]) ∧
    (∃ t, exec (.andReg x y) s = .next t ∧
      (∀ k, (t.reg x).getLsbD k = ((s.reg x).getLsbD k && (s.reg y).getLsbD k)) ∧ s.ChangesOnlyRegs t [x]) ∧
    ∃ t, exec (.xorReg x y) s = .next t ∧
      (∀ k, (t.reg x).getLsbD k = ((s.reg x).getLsbD k ^^ (s.reg y).getLsbD k)) ∧ s.ChangesOnlyRegs t [x]

/-- R107 (with the order of R104): ADD completes in every state: VF is 1 if the sum of the old values is above 255 and 0
if not, then VX is the sum modulo 256, so with `x = F` the result stays; nothing else changes. -/
def Obligations.AddSetsCarryThenResult : Prop :=
  ∀ (s : State) (x y : Nibble),
    ∃ t, exec (.addReg x y) s = .next t ∧
      (t.reg x).toNat = ((s.reg x).toNat + (s.reg y).toNat) % 256 ∧
      (x ≠ 0xF#4 → (t.reg 0xF#4).toNat = if (s.reg x).toNat + (s.reg y).toNat > 255 then 1 else 0) ∧
      s.ChangesOnlyRegs t [x, 0xF#4]

/-- R108, R110 with the read-first order of R104 (D16, the spec's decision): SUB and SUBN complete in every state: the
difference modulo 256 goes to VX, and VF is 1 exactly when the first operand is strictly above the second, unless
`x = F`, where the result stays. -/
def Obligations.SubtractionsSetStrictNoBorrow : Prop :=
  ∀ (s : State) (x y : Nibble),
    (∃ t, exec (.subReg x y) s = .next t ∧
      (t.reg x).toNat = (256 + (s.reg x).toNat - (s.reg y).toNat) % 256 ∧
      (x ≠ 0xF#4 → (t.reg 0xF#4).toNat = if (s.reg y).toNat < (s.reg x).toNat then 1 else 0) ∧
      s.ChangesOnlyRegs t [x, 0xF#4]) ∧
    ∃ t, exec (.subnReg x y) s = .next t ∧
      (t.reg x).toNat = (256 + (s.reg y).toNat - (s.reg x).toNat) % 256 ∧
      (x ≠ 0xF#4 → (t.reg 0xF#4).toNat = if (s.reg x).toNat < (s.reg y).toNat then 1 else 0) ∧
      s.ChangesOnlyRegs t [x, 0xF#4]

/-- R109, R112 with R104: the shifts complete in every state: they act on VX by one place, VF gets the bit shifted out,
unless `x = F`, where the result stays; the field `y` plays no part. -/
def Obligations.ShiftsMoveVxByOnePlace : Prop :=
  ∀ (s : State) (x y : Nibble),
    (∃ t, exec (.shr x y) s = .next t ∧ (t.reg x).toNat = (s.reg x).toNat / 2 ∧
      (x ≠ 0xF#4 → (t.reg 0xF#4).toNat = (s.reg x).toNat % 2) ∧ s.ChangesOnlyRegs t [x, 0xF#4]) ∧
    ∃ t, exec (.shl x y) s = .next t ∧ (t.reg x).toNat = 2 * (s.reg x).toNat % 256 ∧
      (x ≠ 0xF#4 → (t.reg 0xF#4).toNat = (s.reg x).toNat / 128) ∧ s.ChangesOnlyRegs t [x, 0xF#4]

/-- R111: RND completes in every state, whatever byte is drawn: VX is the draw masked with `kk`; the draw is used up (the
counter is the model's own, log 7); nothing else changes. -/
def Obligations.RandomIsTheMaskedDraw : Prop :=
  ∀ (s : State) (x : Nibble) (kk : Byte),
    ∃ t, exec (.rnd x kk) s = .next t ∧
      (∀ k, (t.reg x).getLsbD k = ((Config.randomByte s.randDraws).getLsbD k && kk.getLsbD k)) ∧
      (∀ y, y ≠ x → t.reg y = s.reg y) ∧ t = { s with v := t.v, randDraws := s.randDraws + 1 }

/-! ### Index register and memory -/

/-- R120, R122: `LD I` and `LD F` complete in every state and change only `I`. -/
def Obligations.IndexLoadsWriteOnlyI : Prop :=
  ∀ (s : State) (x : Nibble) (nnn : Addr12),
    (∃ t, exec (.ldI nnn) s = .next t ∧ t.i.toNat = nnn.toNat ∧ t = { s with i := t.i }) ∧
    ∃ t, exec (.ldF x) s = .next t ∧ t.i.toNat = (s.reg x).toNat * 5 ∧ t = { s with i := t.i }

/-- R121: `ADD I` completes in every state: `I` is the sum modulo 2^16, VF is written as `ADDI_VF` says, nothing else
changes. -/
def Obligations.AddToIndexWrapsAndWritesVf : Prop :=
  ∀ (s : State) (x : Nibble),
    ∃ t, exec (.addI x) s = .next t ∧ t.i.toNat = (s.i.toNat + (s.reg x).toNat) % 65536 ∧
      (s.cfg.addiVf = .alwaysOne → t.reg 0xF#4 = 0x01#8) ∧
      (∀ limit, s.cfg.addiVf = .overflow limit →
        (t.reg 0xF#4).toNat = if limit < s.i.toNat + (s.reg x).toNat then 1 else 0) ∧
      (∀ y, y ≠ 0xF#4 → t.reg y = s.reg y) ∧ t = { s with v := t.v, i := t.i }

/-- R123: with memory in canonical form and the three bytes at `I` in memory, `LD B` completes and stores the hundreds, tens
and units of VX there, and changes no other byte and nothing else; it returns `XB_BCD`, by default 0. Out of range it raises the
trap and writes no byte. -/
def Obligations.BcdStoresTheDecimalDigits : Prop :=
  ∀ (s : State) (x : Nibble), s.MemoryInv →
    (s.i.toNat + 3 ≤ s.cfg.memSize →
      ∃ t, exec (.ldB x) s = .next t ∧
        (t.readByte s.i.toNat).toNat = (s.reg x).toNat / 100 ∧
        (t.readByte (s.i.toNat + 1)).toNat = (s.reg x).toNat / 10 % 10 ∧
        (t.readByte (s.i.toNat + 2)).toNat = (s.reg x).toNat % 10 ∧ s.ChangesOnlyBytes t s.i.toNat 3) ∧
    (s.cfg.memSize < s.i.toNat + 3 →
      ∃ t, exec (.ldB x) s = .next t ∧
        s.ChangesOnlyByTrap t ⟨.memoryAccessOutOfBounds, encode (.ldB x), s.pc, s.i.toNat⟩) ∧
    extraBytes s.cfg (.ldB x) = s.cfg.xbBcd ∧ Config.default.xbBcd = 0

/-- R124: with memory in canonical form and the range at `I` in memory, `LD [I], Vx` completes, stores V0 to VX in
ascending order from `I`, and changes no other byte and nothing else; it returns `XB_STORE`, by default 0. Out of range it
raises the trap and writes no byte. -/
def Obligations.BlockStoreWritesV0ToVx : Prop :=
  ∀ (s : State) (x : Nibble), s.MemoryInv →
    (s.i.toNat + x.toNat + 1 ≤ s.cfg.memSize →
      ∃ t, exec (.store x) s = .next t ∧
        (∀ y : Nibble, y.toNat ≤ x.toNat → t.readByte (s.i.toNat + y.toNat) = s.reg y) ∧
        s.ChangesOnlyBytes t s.i.toNat (x.toNat + 1)) ∧
    (s.cfg.memSize < s.i.toNat + x.toNat + 1 →
      ∃ t, exec (.store x) s = .next t ∧
        s.ChangesOnlyByTrap t ⟨.memoryAccessOutOfBounds, encode (.store x), s.pc, s.i.toNat⟩) ∧
    extraBytes s.cfg (.store x) = s.cfg.xbStore ∧ Config.default.xbStore = 0

/-- R125: with the range at `I` in memory, `LD Vx, [I]` completes, loads V0 to VX from ascending addresses, and changes no
other register and nothing else; it returns `XB_LOAD`, by default 0. Out of range it raises the trap and loads no
register. -/
def Obligations.BlockLoadReadsV0ToVx : Prop :=
  ∀ (s : State) (x : Nibble),
    (s.i.toNat + x.toNat + 1 ≤ s.cfg.memSize →
      ∃ t, exec (.load x) s = .next t ∧
        (∀ y : Nibble, y.toNat ≤ x.toNat → t.reg y = s.readByte (s.i.toNat + y.toNat)) ∧
        (∀ y : Nibble, x.toNat < y.toNat → t.reg y = s.reg y) ∧ t = { s with v := t.v }) ∧
    (s.cfg.memSize < s.i.toNat + x.toNat + 1 →
      ∃ t, exec (.load x) s = .next t ∧
        s.ChangesOnlyByTrap t ⟨.memoryAccessOutOfBounds, encode (.load x), s.pc, s.i.toNat⟩) ∧
    extraBytes s.cfg (.load x) = s.cfg.xbLoad ∧ Config.default.xbLoad = 0

/-- R198: an access that does not lie in memory raises `MemoryAccessOutOfBounds` with `addr = I` and changes no byte,
register or pixel: the two stores, the load, and a draw that commits. -/
def Obligations.OutOfRangeAccessTraps : Prop :=
  ∀ (s : State) (x y n : Nibble) (i : Instr) (len : Nat),
    (i = .ldB x ∧ len = 3) ∨ (i = .store x ∧ len = x.toNat + 1) ∨ (i = .load x ∧ len = x.toNat + 1) ∨
      (i = .drw x y n ∧ len = n.toNat ∧ s.drawPhase = .waiting ∧ s.drawDeadline ≤ s.tickTime) →
    s.cfg.memSize < s.i.toNat + len →
    ∃ t, exec i s = .next t ∧ s.ChangesOnlyByTrap t ⟨.memoryAccessOutOfBounds, encode i, s.pc, s.i.toNat⟩

/-- R124, R125, R126: a block load after a block store of the same count gives every register its value back, because
neither changes `I`. -/
def Obligations.BlockLoadAfterStoreRestores : Prop :=
  ∀ (s : State) (x : Nibble) (w : Vector Byte 16), s.MemoryInv → s.i.toNat + x.toNat + 1 ≤ s.cfg.memSize →
    ∃ t u, exec (.store x) s = .next t ∧ exec (.load x) { t with v := w } = .next u ∧
      ∀ y : Nibble, y.toNat ≤ x.toNat → u.reg y = s.reg y

/-- R46, R126: no instruction but the two stores touches memory, and no instruction but `LD I`, `ADD I` and `LD F` changes
`I`; no instruction but CALL and RET changes SP or the stack; no instruction but the clear and the draw changes a cell of
`FB`; no instruction but `LD DT` and `LD ST` changes DT or ST (45_keys_timers.md R146, 10_state.md R14, R15, R16, R18,
R24). -/
def Obligations.EachStateHasItsOnlyWriters : Prop :=
  ∀ (i : Instr) (s t : State), exec i s = .next t →
    (t.mem = s.mem ∨ (∃ x, i = .ldB x) ∨ ∃ x, i = .store x) ∧
    (t.i = s.i ∨ (∃ nnn, i = .ldI nnn) ∨ (∃ x, i = .addI x) ∨ ∃ x, i = .ldF x) ∧
    ((t.sp = s.sp ∧ t.stack = s.stack) ∨ i = .ret ∨ ∃ nnn, i = .call nnn) ∧
    (t.fb = s.fb ∨ i = .cls ∨ ∃ x y n, i = .drw x y n) ∧
    (t.dt = s.dt ∨ ∃ x, i = .ldDtVx x) ∧ (t.st = s.st ∨ ∃ x, i = .ldStVx x)

/-! ### Frame buffer -/

/-- R130: the clear completes in every state: every cell reads 0x00 and nothing but `FB` changes. -/
def Obligations.ClearBlanksEveryCell : Prop :=
  ∀ s : State, ∃ t, exec .cls s = .next t ∧ (∀ row col, t.pixel row col = 0x00#8) ∧ t = { s with fb := t.fb }

/-- R132, R175: an armed draw records the refresh timer's deadline and repeats its cycle; a waiting draw before its deadline
repeats its cycle and changes nothing else. Where the configuration admits one draw per refresh deadline (60_exceptions.md R209,
70_reset_and_hazards.md R231) and one has committed at the deadline that the refresh timer still stands at, the next draw stays
armed and repeats its cycle; where it does not, or none has, the pseudocode of R132 holds as it stands. That the two readings
are told apart by the configuration is the model's choice, log 34. -/
def Obligations.DrawArmsThenWaits : Prop :=
  ∀ (s : State) (x y n : Nibble),
    (∀ tm, s.drawPhase = .armed → s.timers[s.cfg.handleOf .refresh]? = some tm →
      (s.cfg.oneDrawPerDeadline = false ∨ (∀ d, s.drawnDeadline = some d → d < tm.nextDeadline) →
        exec (.drw x y n) s = .next
          { s with drawPhase := .waiting, drawDeadline := tm.nextDeadline, jumpFlag := true }) ∧
      (s.cfg.oneDrawPerDeadline = true → (∃ d, s.drawnDeadline = some d ∧ tm.nextDeadline ≤ d) →
        exec (.drw x y n) s = .next { s with jumpFlag := true })) ∧
    (s.drawPhase = .waiting → s.tickTime < s.drawDeadline →
      exec (.drw x y n) s = .next { s with jumpFlag := true })

/-- R131, R132, R133: with `FB` in canonical form, a waiting draw at or after its deadline whose sprite lies in memory
completes: the origin is VX and VY masked into the screen; a cell of the screen is XORed with 0xFF exactly where a set
pixel of the sprite falls on it, without wrapping; VF is 1 exactly when such a cell was lit; the draw returns to phase 0;
no other register and nothing else changes, but that the draw's deadline is remembered (log 34). And at most one draw commits per
refresh deadline (60_exceptions.md R209, 70_reset_and_hazards.md R231): where the configuration admits one a deadline, every step
of the machine leaves the deadline of the last commit as it was, or is a `Reset`, which forgets it, or commits a draw with a later
deadline; so between two resets the deadlines of the commits rise strictly. That it is a field of the configuration is log 34. -/
def Obligations.DrawCommitsTheSprite : Prop :=
  (∀ s t : State, s.Inv → s.cfg.oneDrawPerDeadline = true → step s = .next t →
    t.drawnDeadline = s.drawnDeadline ∨ (s.sched ≠ .running ∧ t.sched = .notStarted ∧ t.drawnDeadline = none) ∨
      (t.drawnDeadline = some s.drawDeadline ∧ s.drawDeadline ≤ s.tickTime ∧
        ∀ d, s.drawnDeadline = some d → d < s.drawDeadline)) ∧
  ∀ (s : State) (x y n : Nibble), s.cfg.wf = true → s.FrameBufferInv → s.drawPhase = .waiting →
    s.drawDeadline ≤ s.tickTime → s.i.toNat + n.toNat ≤ s.cfg.memSize →
    ∃ t, exec (.drw x y n) s = .next t ∧
      (∀ row col, row < s.cfg.dispH → col < s.cfg.dispW →
        t.pixel row col =
          if s.spriteCovers ((s.reg x).toNat % s.cfg.dispW) ((s.reg y).toNat % s.cfg.dispH) n.toNat row col
          then s.pixel row col ^^^ 0xFF#8 else s.pixel row col) ∧
      ((t.reg 0xF#4 = 0x01#8 ∧ ∃ row col, row < s.cfg.dispH ∧ col < s.cfg.dispW ∧
          s.spriteCovers ((s.reg x).toNat % s.cfg.dispW) ((s.reg y).toNat % s.cfg.dispH) n.toNat row col = true ∧
          s.pixel row col = 0xFF#8) ∨
        (t.reg 0xF#4 = 0x00#8 ∧ ∀ row col, row < s.cfg.dispH → col < s.cfg.dispW →
          s.spriteCovers ((s.reg x).toNat % s.cfg.dispW) ((s.reg y).toNat % s.cfg.dispH) n.toNat row col = true →
          s.pixel row col ≠ 0xFF#8)) ∧
      (∀ r, r ≠ 0xF#4 → t.reg r = s.reg r) ∧
      t = { s with v := t.v, fb := t.fb, drawPhase := .armed, drawnDeadline := some s.drawDeadline }

/-- R134 (a): drawing the same cells twice restores the frame buffer exactly, and the second draw collides exactly where the
first left one of them lit. -/
def Obligations.DrawingTwiceRestoresTheFrame : Prop :=
  ∀ (c : Config) (fb : Cells) (x0 y0 : Nat) (rows : List Byte), FrameBuffer.wf c fb = true →
    (drawCells (drawCells fb (spriteCells c x0 y0 rows)).1 (spriteCells c x0 y0 rows)).1 = fb ∧
    ((drawCells (drawCells fb (spriteCells c x0 y0 rows)).1 (spriteCells c x0 y0 rows)).2 = true ↔
      ∃ p ∈ spriteCells c x0 y0 rows, Cells.read fbBlank fb p = 0x00#8)

/-! ### Keys and timer registers -/

/-- R140, R141: a key skip completes in every state and under every answer of the key query: PC moves by 2 exactly when the
key named by the low nibble of VX is, or is not, pressed; one query is made (its counter is the model's own, log 8);
nothing else changes. -/
def Obligations.KeySkipsFollowTheKey : Prop :=
  ∀ (s : State) (x : Nibble),
    (∃ t, exec (.skp x) s = .next t ∧ t = { s with pc := t.pc, keyDraws := s.keyDraws + 1 } ∧
      t.pc = if Config.keyPressed s.keyDraws (BitVec.ofNat 4 (s.reg x).toNat) then s.pc + 2#16 else s.pc) ∧
    ∃ t, exec (.sknp x) s = .next t ∧ t = { s with pc := t.pc, keyDraws := s.keyDraws + 1 } ∧
      t.pc = if Config.keyPressed s.keyDraws (BitVec.ofNat 4 (s.reg x).toNat) then s.pc else s.pc + 2#16

/-- R142, R144: `LD Vx, DT` and `LD DT, Vx` complete in every state and move the byte, nothing else. -/
def Obligations.DelayTimerMoves : Prop :=
  ∀ (s : State) (x : Nibble),
    (∃ t, exec (.ldVxDt x) s = .next t ∧ t.reg x = s.dt ∧ s.ChangesOnlyRegs t [x]) ∧
    exec (.ldDtVx x) s = .next { s with dt := s.reg x }

/-- R145, 60_exceptions.md R208: `LD ST, Vx` completes in every state; `play_tone` is emitted exactly on a change from zero to
non-zero and `stop_tone` exactly on one from non-zero to zero, with the wake's `TickTime`, and `Tone` follows
(10_state.md R29). -/
def Obligations.SoundTimerWriteEmitsToneChanges : Prop :=
  ∀ (s : State) (x : Nibble),
    ∃ t, exec (.ldStVx x) s = .next t ∧ t = { s with st := s.reg x, tone := t.tone, out := t.out } ∧
      (s.st = 0x00#8 → s.reg x ≠ 0x00#8 → t.out = s.out ++ [(.playTone, s.tickTime)] ∧ t.tone = true) ∧
      (s.st ≠ 0x00#8 → s.reg x = 0x00#8 → t.out = s.out ++ [(.stopTone, s.tickTime)] ∧ t.tone = false) ∧
      ((s.st = 0x00#8 ↔ s.reg x = 0x00#8) → t.out = s.out ∧ t.tone = s.tone)

/-- R143: a cycle of `LD Vx, K` that does not poll only counts and repeats; a poll for the release repeats while the latched
key is still pressed; where it is released, the cue stops and the instruction is complete, `JumpFlag` as it was. The
answer of the key query is a free value (log 8): the statement holds for either. -/
def Obligations.KeyWaitCountsAndEndsAtRelease : Prop :=
  ∀ (s : State) (x : Nibble),
    (s.keyCounter + 1 < s.cfg.keyDiv →
      exec (.ldVxK x) s = .next { s with keyCounter := s.keyCounter + 1, jumpFlag := true }) ∧
    (s.cfg.keyDiv ≤ s.keyCounter + 1 → s.keyPhase = .waitRelease →
      exec (.ldVxK x) s = .next
        (if Config.keyPressed s.keyDraws s.keyLatched
          then { s with keyCounter := 0, keyDraws := s.keyDraws + 1, jumpFlag := true }
          else { s with keyCounter := 0, keyDraws := s.keyDraws + 1, keyPhase := .waitPress, tone := false,
                        out := s.out ++ [(.stopTone, s.tickTime)] }))

/-- R143: a poll for a press completes under every answer of the key query (a free value, log 8): either some key is
pressed, and the least such key is latched and written to VX, the cue starts, the release is awaited and the cycle
repeats, or none is, and the poll only repeats the cycle. -/
def Obligations.KeyWaitTakesTheLeastPressedKey : Prop :=
  ∀ (s : State) (x : Nibble), s.cfg.keyDiv ≤ s.keyCounter + 1 → s.keyPhase = .waitPress →
    (∃ (k : Nibble) (t : State), Config.keyPressed s.keyDraws k = true ∧
      (∀ j : Nibble, j.toNat < k.toNat → Config.keyPressed s.keyDraws j = false) ∧
      exec (.ldVxK x) s = .next t ∧ (t.reg x).toNat = k.toNat ∧ (∀ y, y ≠ x → t.reg y = s.reg y) ∧
      t = { s with v := t.v, keyCounter := 0, keyDraws := s.keyDraws + 1, keyLatched := k,
                   keyPhase := .waitRelease, tone := true, out := s.out ++ [(.playTone, s.tickTime)],
                   jumpFlag := true }) ∨
    ((∀ k : Nibble, Config.keyPressed s.keyDraws k = false) ∧
      exec (.ldVxK x) s = .next { s with keyCounter := 0, keyDraws := s.keyDraws + 1, jumpFlag := true })

/-! ### The scheduler -/

/-- 48_scheduler.md R160: a strict cyclic timer rescheduled `n` times has moved its deadline by exactly `n` periods,
whatever the snapshots, and nothing else of it changes. -/
def Obligations.StrictTimerKeepsItsGrid : Prop :=
  ∀ (tm : Timer) (ticks : List Nat), tm.kind = .cyclic → tm.skipMissed = false →
    ticks.foldl Timer.reschedule tm = { tm with nextDeadline := tm.nextDeadline + ticks.length * tm.period.toNat }

/-- R162: a one-shot timer becomes inactive after firing and its deadline keeps its value. -/
def Obligations.OneShotBecomesInactive : Prop :=
  ∀ (tm : Timer) (tick : Nat), tm.kind = .oneShot →
    tm.reschedule tick = { tm with active := false } ∧ (tm.reschedule tick).due tick = false

/-- R161 with D32: a skip-missed timer that fires moves its deadline by a whole number of periods, at least one, to the
first such point at or after the snapshot. -/
def Obligations.SkipMissedRealignsToTheGrid : Prop :=
  ∀ (tm : Timer) (tick : Nat), tm.kind = .cyclic → tm.skipMissed = true → tm.period ≠ 0#64 → tm.nextDeadline ≤ tick →
    ∃ k, 1 ≤ k ∧ tm.reschedule tick = { tm with nextDeadline := tm.nextDeadline + k * tm.period.toNat } ∧
      tick ≤ tm.nextDeadline + k * tm.period.toNat ∧
      ∀ j, 1 ≤ j → tick ≤ tm.nextDeadline + j * tm.period.toNat → k ≤ j

/-- R166, R167, R168: a pause and a later resume move the deadline of every active timer by exactly the length of the pause
and make it active again; an inactive timer keeps its deadline and stays inactive. Nothing else changes but `SchedState`, the
clock's reading and the answer to the host (logs 6, 13): registers, memory, `FB`, DT, ST and the multi-cycle state stay,
`DrawDeadline` among them (70_reset_and_hazards.md R232). -/
def Obligations.PauseThenResumeShiftsDeadlines : Prop :=
  ∀ (s p r : State) (g g' : Nat), s.sched = .running → s.hostCommand (.pause g) = .next p →
    p.hostCommand (.resume g') = .next r →
    p = { s with sched := .paused, now := s.now + g, timers := p.timers, reply := p.reply } ∧
    r = { s with now := s.now + g + g', timers := r.timers, reply := r.reply } ∧
    p.timers.length = s.timers.length ∧ r.timers.length = s.timers.length ∧
    ∀ (h : Nat) (tm : Timer), s.timers[h]? = some tm →
      (∃ q, p.timers[h]? = some q ∧ q.active = false ∧ q.nextDeadline = tm.nextDeadline ∧
        q.wasActive = tm.active ∧ (tm.active = true → q.phaseOffset = (tm.nextDeadline : Int) - (s.now + g : Nat))) ∧
      ∃ q, r.timers[h]? = some q ∧
        q = { tm with wasActive := false, phaseOffset := q.phaseOffset,
                      nextDeadline := if tm.active then tm.nextDeadline + g' else tm.nextDeadline }

/-- R172: one 60 Hz tick takes one from DT and from ST where they are not zero, emits `stop_tone` exactly when ST becomes
zero, and changes nothing else; a step that fires a timer with the callback `Decay60` is one such tick and the reschedule
(R159; a firing is one step: log 4). -/
def Obligations.DecayTickCountsDown : Prop :=
  (∀ s : State,
    s.decay60.dt.toNat = s.dt.toNat - 1 ∧ s.decay60.st.toNat = s.st.toNat - 1 ∧
    (s.st = 0x01#8 → s.decay60.out = s.out ++ [(.stopTone, s.tickTime)] ∧ s.decay60.tone = false) ∧
    (s.st ≠ 0x01#8 → s.decay60.out = s.out ∧ s.decay60.tone = s.tone) ∧
    s.decay60 = { s with dt := s.decay60.dt, st := s.decay60.st, out := s.decay60.out, tone := s.decay60.tone }) ∧
  ∀ (s u : State) (p : WakePos) (tm : Timer), s.Fires u p tm → tm.callback = .decay60 →
    step s = .next
      { u.decay60 with wake := some ⟨p.handle, p.count + 1⟩,
                       timers := s.timers.modify p.handle fun q => q.reschedule s.tickTime }

/-- R173: while a composition is running, a due refresh timer holds the scheduler: its step changes nothing but the pending
moves; with none running, the step emits `refresh`, starts a composition and reschedules the timer (the composition is the
model's form of R206, log 9). -/
def Obligations.RefreshWaitsForTheComposition : Prop :=
  ∀ (s u : State) (p : WakePos) (tm : Timer), s.Fires u p tm → tm.callback = .refresh →
    (s.composeBusy = true → step s = .next u) ∧
    (s.composeBusy = false →
      step s = .next
        { u with out := s.out ++ [(.refresh, s.tickTime)], composeBusy := true, copyPending := true,
                 wake := some ⟨p.handle, p.count + 1⟩,
                 timers := s.timers.modify p.handle fun q => q.reschedule s.tickTime })

/-- R165: `Start` in `NotStarted`, whatever was loaded or configured since `Reset` (R222), makes the scheduler run at time 0
with the three system timers active, each due one period later. The registers, memory and `FB` stay, and all else but the answer
to the host (log 13). That every other timer keeps its record, one started before `Start` among them, is the model's choice,
log 32: the spec is silent on it. Straight after reset the periods are those of 10_state.md R28. -/
def Obligations.StartStartsTheSystemTimers : Prop :=
  (∀ s : State, s.cfg.wf = true → s.sched = .notStarted → s.TimerInv →
    ∃ t, s.hostCommand .start = .next t ∧
      t = { s with sched := .running, now := 0, tickTime := 0, timers := t.timers, reply := t.reply } ∧
      t.timers.length = s.timers.length ∧
      (∀ (u : SysTimer) (tm : Timer), s.timers[s.cfg.handleOf u]? = some tm →
        t.timers[s.cfg.handleOf u]? = some { tm with nextDeadline := tm.period.toNat, active := true }) ∧
      ∀ h, (∀ u : SysTimer, h ≠ s.cfg.handleOf u) → t.timers[h]? = s.timers[h]?) ∧
  ∀ c : Config, c.wf = true →
    ∃ t, (State.resetWith c).hostCommand .start = .next t ∧
      ∀ u : SysTimer, ∃ tm, t.timers[c.handleOf u]? = some tm ∧ tm.active = true ∧
        tm.nextDeadline = c.period u ∧ tm.period.toNat = c.period u

/-- 60_exceptions.md R210: a command between wakes is refused exactly where the table does not admit it; a reading of the
clock beyond 64 bits aside (D47), an admitted one of these five completes. A timer call is refused as not admitted exactly
while paused (48_scheduler.md R169); elsewhere the calls do what R152 to R156 say: `register` appends an unconfigured record
and answers its handle; the two configure calls set kind and period (and the policy), and a zero period or timeout is an error
that changes nothing else; `start` sets the deadline one period after a fresh reading and `active`, and is an error on an
unconfigured timer; `stop` clears `active`. That these are host commands with an answer in `reply`, and the refusal of a
handle that was never registered, are the model's choice (log 13); so is what the clock reads before `Start` (log 32). A step
whose move is the host's is the command itself where no wake is in progress and none waits; inside a wake the command only
joins the queue, and when the wake is over the step serves the oldest one (R166, 70_reset_and_hazards.md R245; the queue is the
model's form of that, log 11). -/
def Obligations.HostCommandsWhereAdmitted : Prop :=
  (∀ (s : State) (bytes : List Byte) (g : Nat), s.now + g < Config.clockEnd →
    (s.hostCommand .reset = .refused .commandNotAdmitted ↔ s.sched = .running) ∧
    (s.hostCommand (.loadRom bytes) = .refused .commandNotAdmitted ↔ s.sched = .running) ∧
    (s.hostCommand .start = .refused .commandNotAdmitted ↔ s.sched ≠ .notStarted) ∧
    (s.hostCommand (.pause g) = .refused .commandNotAdmitted ↔ s.sched ≠ .running) ∧
    (s.hostCommand (.resume g) = .refused .commandNotAdmitted ↔ s.sched ≠ .paused) ∧
    ∀ c ∈ [HostCommand.reset, .loadRom bytes, .start, .pause g, .resume g],
      s.hostCommand c ≠ .refused .commandNotAdmitted → ∃ t, s.hostCommand c = .next t) ∧
  (∀ (s : State) (call : TimerCall),
    s.hostCommand (.timer call) = .refused .timerCallNotAdmitted ↔ s.sched = .paused) ∧
  (∀ (s : State) (cb : Callback), s.sched ≠ .paused →
    s.hostCommand (.timer (.register cb)) = .next
      { s with reply := some (.handle s.timers.length),
               timers := s.timers ++ [{ kind := .unconfigured, nextDeadline := 0, period := 0#64, active := false,
                                        skipMissed := false, callback := cb, wasActive := false, phaseOffset := 0 }] }) ∧
  (∀ (s : State) (h : Nat) (tm : Timer) (n : Duration) (skip : Bool) (g : Nat), s.sched ≠ .paused →
    s.timers[h]? = some tm →
    s.hostCommand (.timer (.configureOneShot h n)) = .next
      (if n = 0#64 then { s with reply := some .error }
        else { s with timers := s.timers.set h { tm with kind := .oneShot, period := n }, reply := some .done }) ∧
    s.hostCommand (.timer (.configureCyclic h n skip)) = .next
      (if n = 0#64 then { s with reply := some .error }
        else { s with timers := s.timers.set h { tm with kind := .cyclic, period := n, skipMissed := skip },
                      reply := some .done }) ∧
    (s.now + g < Config.clockEnd →
      s.hostCommand (.timer (.start h g)) = .next
        (if tm.kind = .unconfigured then { s with reply := some .error }
          else { s with now := s.now + g, reply := some .done,
                        timers := s.timers.set h
                          { tm with nextDeadline := s.now + g + tm.period.toNat, active := true } })) ∧
    s.hostCommand (.timer (.stop h)) = .next
      { s with timers := s.timers.set h { tm with active := false }, reply := some .done }) ∧
  (∀ (s : State) (h : Nat) (call : TimerCall), s.sched ≠ .paused → s.timers.length ≤ h →
    ((∃ n, call = .configureOneShot h n) ∨ (∃ n skip, call = .configureCyclic h n skip) ∨ (∃ g, call = .start h g) ∨
      call = .stop h) →
    s.hostCommand (.timer call) = .refused .noSuchTimer) ∧
  (∀ (s u : State) (c : HostCommand), s.takeMove = (.host c, u) →
    (s.wake = none → s.hostQueue = [] → step s = u.hostCommand c) ∧
    (s.wake.isSome → step s = .next { u with hostQueue := s.hostQueue ++ [c] })) ∧
  ∀ (s : State) (c : HostCommand) (rest : List HostCommand), s.wake = none → s.hostQueue = c :: rest →
    step s = ({ s with hostQueue := rest } : State).hostCommand c

/-- 20_memory.md R49: a ROM below the strict bound is copied byte for byte at `PROG_START`, every other byte stays, and true
is answered; a longer one changes nothing and false is answered. -/
def Obligations.LoadRomCopiesOrRejects : Prop :=
  ∀ (s : State) (bytes : List Byte), s.MemoryInv → s.sched ≠ .running →
    (bytes.length < s.cfg.memSize - s.cfg.progStart →
      ∃ t, s.hostCommand (.loadRom bytes) = .next t ∧ t.reply = some (.romLoaded true) ∧
        (∀ k, (h : k < bytes.length) → t.readByte (s.cfg.progStart + k) = bytes[k]) ∧
        (∀ a, a < s.cfg.progStart ∨ s.cfg.progStart + bytes.length ≤ a → t.readByte a = s.readByte a) ∧
        t = { s with mem := t.mem, reply := t.reply }) ∧
    (s.cfg.memSize - s.cfg.progStart ≤ bytes.length →
      s.hostCommand (.loadRom bytes) = .next { s with reply := some (.romLoaded false) })

/-! ### Reset and the invariant -/

/-- The table of 10_state.md R31 (`State.HasResetValues`: memory and frame buffer read byte by byte, the rows of R28) holds of
the state after reset under a configuration; and the command `Reset` (70_reset_and_hazards.md R220), wherever it is admitted
(`NotStarted` and `Paused`, 60_exceptions.md R210), completes in a state of which that table holds and whose configuration is
that of before (R211). The last lines are the model's choice, log 25: no wake, the clock and the count of cycles at 0, no draw remembered (log 34), the
answer done, and the fields of the outside world kept. -/
def Obligations.ResetLeavesTheSpecifiedValues : Prop :=
  (∀ c : Config, c.wf = true → (State.resetWith c).HasResetValues ∧ (State.resetWith c).cfg = c) ∧
  ∀ s : State, s.cfg.wf = true → s.sched ≠ .running →
    ∃ t, s.hostCommand .reset = .next t ∧ t.HasResetValues ∧ t.cfg = s.cfg ∧
      t.wake = none ∧ t.now = 0 ∧ t.cycles = 0 ∧ t.drawnDeadline = none ∧ t.reply = some .done ∧
      t.moves = s.moves ∧ t.moveDraws = s.moveDraws ∧ t.randDraws = s.randDraws ∧ t.keyDraws = s.keyDraws ∧
      t.hostQueue = s.hostQueue ∧ t.composeBusy = s.composeBusy ∧ t.copyPending = s.copyPending ∧ t.frame = s.frame

/-- The invariant holds right after reset, under every configuration that meets its constraints. -/
def Obligations.InvariantHoldsAfterReset : Prop := ∀ c : Config, c.wf = true → (State.resetWith c).Inv

/-- Every step keeps the invariant `State.Inv`: the list of memory and the list of `FB` stay canonical (the model's form of
the two arrays, logs 15, 16) and the cells of `FB` are 0x00 or 0xFF (10_state.md R24); SP holds the sentinel or an index in
range (R14); `JumpFlag` is 0 and no commit phase is stored between steps (R17, R19); `KeyCounter` stays below `KEY_DIV`
(R20); `TickTime` is not after the last reading of the clock, which is below 2^64 (48_scheduler.md R158, D47); configured
timers keep a period that is not 0 and the system timers their places (R27, R28); no timer fires oftener in a wake than the
bound (R163); the collaborator holds `FBLock` only for a copy it has still to take (`State.LockInv`: the collaborator is the
model's form of R206, log 9); a waiting draw has a later deadline than the last commit where the configuration admits one a
deadline (R209, log 34). And the clock does not go back (R157), but for `Reset` and `Start`, which put it to 0: from a
step that begins and ends in `Running` or `Paused`, the reading after is not below the one before. -/
def Obligations.EveryStepKeepsTheInvariant : Prop :=
  ∀ s t : State, s.Inv → step s = .next t →
    t.Inv ∧ (s.sched ≠ .notStarted → t.sched ≠ .notStarted → s.now ≤ t.now)

/-- From a state that meets the invariant no step ends in a fault: the model's three faults are in states no run reaches. -/
def Obligations.NoFaultFromTheInvariant : Prop := ∀ (s : State) (f : Fault), s.Inv → step s ≠ .fault f

/-- 60_exceptions.md R211: no step changes the configuration. -/
def Obligations.ConfigurationNeverChanges : Prop := ∀ s t : State, step s = .next t → t.cfg = s.cfg

/-- 10_state.md R10, 20_memory.md R52: while the scheduler runs, the registers, PC, SP, `I`, the stack, memory and `FB` change
only in a step that fires `T_CPU` (`State.FiresCpu`: the scheduler's move, the timer due and below the bound; 40_cpu_cycle.md
R86). In every other step they stay: a move of the collaborator, a host command, any other timer, and `T_CPU` passed over. -/
def Obligations.OnlyCyclesChangeTheRegisterFile : Prop :=
  ∀ s t : State, s.sched = .running → step s = .next t → (¬ ∃ u p tm, s.FiresCpu u p tm) →
    t.v = s.v ∧ t.pc = s.pc ∧ t.sp = s.sp ∧ t.i = s.i ∧ t.stack = s.stack ∧ t.mem = s.mem ∧ t.fb = s.fb

/-- 10_state.md R29: `Tone` follows the last tone event of `Out`, and every step keeps that. -/
def Obligations.ToneFollowsTheLastEvent : Prop :=
  ∀ s t : State, s.ToneInv → step s = .next t → t.ToneInv

/-- 10_state.md R25, 20_memory.md R55: while the rendering collaborator holds `FBLock` and the scheduler runs, no step
changes `FB`, and the copy it takes when it gives the lock back is the whole of `FB`. And what a step with the collaborator's
move does (60_exceptions.md R206; these three moves are the model's form of it, log 9): with `FBLock` free and a copy of a
composition pending it takes the lock; holding it, it copies `FB` and gives the lock back; otherwise it finishes and clears
`ComposeBusy`. The cycles that wait for the lock (`needsLock` in `StepRunsTheDecodedInstruction`) are exactly those that update
`FB`: a clear, and a draw in its committing cycle whose sprite lies in memory (44_draw.md R130, R132, R133; a stored commit
phase, which no run has, is log 18). -/
def Obligations.FrameBufferStaysWhileLocked : Prop :=
  (∀ s t : State, s.sched = .running → s.fbLock = .renderer → step s = .next t →
    t.fb = s.fb ∧ (t.fbLock = .free → t.frame = s.fb ∧ t.copyPending = false)) ∧
  (∀ s u : State, s.takeMove = (.renderer, u) → (s.wake = none → s.hostQueue = []) →
    (s.fbLock = .free → s.composeBusy = true → s.copyPending = true → step s = .next { u with fbLock := .renderer }) ∧
    (s.fbLock = .renderer → step s = .next { u with frame := s.fb, fbLock := .free, copyPending := false }) ∧
    (s.fbLock = .free → s.composeBusy = false ∨ s.copyPending = false → step s = .next { u with composeBusy := false })) ∧
  ∀ (s : State) (i : Instr), needsLock s i = true ↔
    i = .cls ∨ ∃ x y n, i = .drw x y n ∧ s.i.toNat + n.toNat ≤ s.cfg.memSize ∧
      (s.drawPhase = .commit ∨ (s.drawPhase = .waiting ∧ s.drawDeadline ≤ s.tickTime))
end

