-- ==== Sys2Proof/Laws/Cells.lean ====
section
/-!
SUPPORT. The laws of the sparse arrays: a read after a write gives what was written, every other index keeps its byte, and
every operation keeps the canonical form (20_memory.md R43, R44, R46).
-/

namespace Sys2Proof.Machine

variable {blank : Nat → Byte} {size : Nat}

theorem Cells.wfFrom_cons {lo k : Nat} {b : Byte} {m : Cells} :
    Cells.wfFrom blank size lo ((k, b) :: m) = true ↔
      lo ≤ k ∧ k < size ∧ b ≠ blank k ∧ Cells.wfFrom blank size (k + 1) m = true := by
  simp [Cells.wfFrom, and_assoc]

/-- A lower bound may be lowered. -/
theorem Cells.wfFrom_mono {lo lo' : Nat} {m : Cells} (h : lo' ≤ lo) (hm : Cells.wfFrom blank size lo m = true) :
    Cells.wfFrom blank size lo' m = true := by
  cases m with
  | nil => rfl
  | cons e m =>
    obtain ⟨k, b⟩ := e
    rw [Cells.wfFrom_cons] at hm ⊢
    exact ⟨by omega, hm.2⟩

/-- Below the first index nothing is listed. -/
theorem Cells.read_below {lo a : Nat} {m : Cells} (hm : Cells.wfFrom blank size lo m = true) (h : a < lo) :
    Cells.read blank m a = blank a := by
  induction m generalizing lo with
  | nil => rfl
  | cons e m ih =>
    obtain ⟨k, b⟩ := e
    rw [Cells.wfFrom_cons] at hm
    rw [Cells.read, if_neg (by omega)]
    exact ih hm.2.2.2 (by omega)

/-- At and beyond the size nothing is listed. -/
theorem Cells.read_beyond {lo a : Nat} {m : Cells} (hm : Cells.wfFrom blank size lo m = true) (h : size ≤ a) :
    Cells.read blank m a = blank a := by
  induction m generalizing lo with
  | nil => rfl
  | cons e m ih =>
    obtain ⟨k, b⟩ := e
    rw [Cells.wfFrom_cons] at hm
    rw [Cells.read, if_neg (by omega)]
    exact ih hm.2.2.2

/-- A write leaves every other index alone. -/
theorem Cells.read_write_other {m : Cells} {p a : Nat} {b : Byte} (h : a ≠ p) :
    Cells.read blank (Cells.write blank m p b) a = Cells.read blank m a := by
  induction m with
  | nil =>
    simp only [Cells.write]
    split
    · rfl
    · simp [Cells.read, h]
  | cons e m ih =>
    obtain ⟨k, x⟩ := e
    simp only [Cells.write]
    split
    · split
      · rfl
      · simp [Cells.read, h]
    · split
      · rename_i hk
        subst hk
        split <;> simp [Cells.read, h]
      · simp only [Cells.read, ih]

/-- A read after a write gives the byte written. -/
theorem Cells.read_write_same {lo : Nat} {m : Cells} (hm : Cells.wfFrom blank size lo m = true) (p : Nat) (b : Byte) :
    Cells.read blank (Cells.write blank m p b) p = b := by
  induction m generalizing lo with
  | nil =>
    simp only [Cells.write]
    split
    · rename_i h; simp [Cells.read, h]
    · simp [Cells.read]
  | cons e m ih =>
    obtain ⟨k, x⟩ := e
    rw [Cells.wfFrom_cons] at hm
    simp only [Cells.write]
    split
    · split
      · rename_i h h'
        rw [h', Cells.read, if_neg (by omega)]
        exact Cells.read_below hm.2.2.2 (by omega)
      · simp [Cells.read]
    · split
      · rename_i hk
        subst hk
        split
        · rename_i h'
          rw [h']
          exact Cells.read_below hm.2.2.2 (by omega)
        · simp [Cells.read]
      · rename_i hk
        rw [Cells.read, if_neg hk]
        exact ih hm.2.2.2

/-- A write keeps the canonical form. -/
theorem Cells.write_wfFrom {lo p : Nat} {m : Cells} (b : Byte) (hm : Cells.wfFrom blank size lo m = true)
    (hlo : lo ≤ p) (hp : p < size) : Cells.wfFrom blank size lo (Cells.write blank m p b) = true := by
  induction m generalizing lo with
  | nil =>
    simp only [Cells.write]
    split
    · rfl
    · rename_i hb
      exact Cells.wfFrom_cons.mpr ⟨hlo, hp, hb, rfl⟩
  | cons e m ih =>
    obtain ⟨k, x⟩ := e
    have hm' := Cells.wfFrom_cons.mp hm
    simp only [Cells.write]
    split
    · split
      · exact hm
      · rename_i hk hb
        exact Cells.wfFrom_cons.mpr ⟨hlo, hp, hb, Cells.wfFrom_cons.mpr ⟨by omega, hm'.2⟩⟩
    · split
      · rename_i hk
        subst hk
        split
        · exact Cells.wfFrom_mono (by omega) hm'.2.2.2
        · rename_i hb
          exact Cells.wfFrom_cons.mpr ⟨hlo, hp, hb, hm'.2.2.2⟩
      · exact Cells.wfFrom_cons.mpr ⟨hm'.1, hm'.2.1, hm'.2.2.1, ih hm'.2.2.2 (by omega)⟩

theorem Cells.write_wf {p : Nat} {m : Cells} (b : Byte) (hm : Cells.wf blank size m = true) (hp : p < size) :
    Cells.wf blank size (Cells.write blank m p b) = true :=
  Cells.write_wfFrom b hm (Nat.zero_le p) hp

/-- Two canonical arrays that read the same are the same list. -/
theorem Cells.wfFrom_ext {lo : Nat} {m m' : Cells} (hm : Cells.wfFrom blank size lo m = true)
    (hm' : Cells.wfFrom blank size lo m' = true) (h : ∀ a, Cells.read blank m a = Cells.read blank m' a) : m = m' := by
  induction m generalizing lo m' with
  | nil =>
    cases m' with
    | nil => rfl
    | cons e m' =>
      obtain ⟨k, b⟩ := e
      have hk := h k
      simp only [Cells.read, if_true] at hk
      exact absurd hk.symm (Cells.wfFrom_cons.mp hm').2.2.1
  | cons e m ih =>
    obtain ⟨k, b⟩ := e
    have w := Cells.wfFrom_cons.mp hm
    cases m' with
    | nil =>
      have hk := h k
      simp only [Cells.read, if_true] at hk
      exact absurd hk w.2.2.1
    | cons e' m' =>
      obtain ⟨k', b'⟩ := e'
      have w' := Cells.wfFrom_cons.mp hm'
      have hkk : k = k' := by
        rcases Nat.lt_trichotomy k k' with hl | hl | hl
        · have hk := h k
          rw [Cells.read, if_pos rfl, Cells.read, if_neg (by omega), Cells.read_below w'.2.2.2 (by omega)] at hk
          exact absurd hk w.2.2.1
        · exact hl
        · have hk := h k'
          rw [Cells.read, if_neg (by omega), Cells.read, if_pos rfl, Cells.read_below w.2.2.2 (by omega)] at hk
          exact absurd hk.symm w'.2.2.1
      subst hkk
      have hb : b = b' := by simpa [Cells.read] using h k
      subst hb
      congr 1
      refine ih w.2.2.2 w'.2.2.2 fun a => ?_
      by_cases ha : a = k
      · subst ha
        rw [Cells.read_below w.2.2.2 (by omega), Cells.read_below w'.2.2.2 (by omega)]
      · simpa [Cells.read, ha] using h a

theorem Cells.wf_ext {m m' : Cells} (hm : Cells.wf blank size m = true) (hm' : Cells.wf blank size m' = true)
    (h : ∀ a, Cells.read blank m a = Cells.read blank m' a) : m = m' :=
  Cells.wfFrom_ext hm hm' h

/-! ### Runs of bytes -/

@[simp] theorem Cells.readList_length (m : Cells) (a n : Nat) : (Cells.readList blank m a n).length = n := by
  induction n generalizing a with
  | zero => rfl
  | succ n ih => simp [Cells.readList, ih]

theorem Cells.readList_getElem? (m : Cells) (a n k : Nat) (h : k < n) :
    (Cells.readList blank m a n)[k]? = some (Cells.read blank m (a + k)) := by
  induction n generalizing a k with
  | zero => omega
  | succ n ih =>
    cases k with
    | zero => simp [Cells.readList]
    | succ k =>
      simp only [Cells.readList, List.getElem?_cons_succ]
      rw [ih (a + 1) k (by omega), Nat.add_right_comm, Nat.add_assoc]

/-- A run of writes leaves every index outside it alone. -/
theorem Cells.read_writeList_outside {m : Cells} {a p : Nat} {bs : List Byte} (h : p < a ∨ a + bs.length ≤ p) :
    Cells.read blank (Cells.writeList blank m a bs) p = Cells.read blank m p := by
  induction bs generalizing m a with
  | nil => rfl
  | cons b bs ih =>
    rw [List.length_cons] at h
    rw [Cells.writeList, ih (by omega), Cells.read_write_other (by omega)]

/-- A run of writes keeps the canonical form. -/
theorem Cells.writeList_wf {m : Cells} {a : Nat} {bs : List Byte} (hm : Cells.wf blank size m = true)
    (h : a + bs.length ≤ size) : Cells.wf blank size (Cells.writeList blank m a bs) = true := by
  induction bs generalizing m a with
  | nil => exact hm
  | cons b bs ih =>
    rw [List.length_cons] at h
    exact ih (Cells.write_wf b hm (by omega)) (by omega)

/-- Inside a run of writes each index holds its byte. -/
theorem Cells.read_writeList_inside {m : Cells} {a : Nat} {bs : List Byte} (hm : Cells.wf blank size m = true)
    (h : a + bs.length ≤ size) (k : Nat) (hk : k < bs.length) :
    Cells.read blank (Cells.writeList blank m a bs) (a + k) = bs[k] := by
  induction bs generalizing m a k with
  | nil => simp at hk
  | cons b bs ih =>
    rw [List.length_cons] at h hk
    cases k with
    | zero =>
      rw [Cells.writeList, Nat.add_zero, Cells.read_writeList_outside (by omega)]
      exact Cells.read_write_same (lo := 0) hm a b
    | succ k =>
      rw [Cells.writeList, show a + (k + 1) = a + 1 + k by omega]
      exact ih (Cells.write_wf b hm (by omega)) (by omega) k (by omega)

/-! ### Memory -/

/-- `MemWrite` keeps the canonical form of memory. -/
theorem State.memWrite_memory_wf {s t : State} {a : Word} {bs : List Byte} (hm : Memory.wf s.cfg s.mem = true)
    (h : s.memWrite a bs = some t) : Memory.wf t.cfg t.mem = true := by
  unfold State.memWrite at h
  split at h
  · rename_i hin
    cases h
    exact Cells.writeList_wf hm (of_decide_eq_true hin)
  · cases h

/-- Memory after reset is in canonical form (10_state.md R31). -/
theorem State.resetWith_memory_wf (c : Config) : Memory.wf c (State.resetWith c).mem = true := rfl

theorem State.reset_memory_wf : Memory.wf State.reset.cfg State.reset.mem = true := rfl

/-- What `MemWrite` can answer: the bytes stored and nothing else changed, where the range lies in memory (R44). -/
theorem State.memWrite_cases {s : State} {a : Word} {bs : List Byte} :
    (a.toNat + bs.length ≤ s.cfg.memSize ∧ s.memWrite a bs = some (s.storeBytes a.toNat bs)) ∨
      (s.cfg.memSize < a.toNat + bs.length ∧ s.memWrite a bs = none) := by
  unfold State.memWrite State.inMemory
  by_cases h : a.toNat + bs.length ≤ s.cfg.memSize
  · exact .inl ⟨h, by simp [h]⟩
  · exact .inr ⟨by omega, by simp [h]⟩

/-- What `MemRead` can answer (R43). -/
theorem State.memRead_cases {s : State} {a : Word} {n : Nat} :
    (a.toNat + n ≤ s.cfg.memSize ∧
        s.memRead a n = some (Cells.readList s.cfg.resetByte s.mem a.toNat n)) ∨
      (s.cfg.memSize < a.toNat + n ∧ s.memRead a n = none) := by
  unfold State.memRead State.inMemory
  by_cases h : a.toNat + n ≤ s.cfg.memSize
  · exact .inl ⟨h, by simp [h]⟩
  · exact .inr ⟨by omega, by simp [h]⟩

end Sys2Proof.Machine
end

