-- ==== Sys2Proof/Laws/Decode.lean ====
section
/-!
SUPPORT. The fields of a packed word (30_encoding.md R61, R62), by way of the number a word stands for.
-/

namespace Sys2Proof

theorem toNat_opBits (w : Word) (lo len : Nat) : (opBits w lo len).toNat = w.toNat / 2 ^ lo % 2 ^ len := by
  simp [opBits, BitVec.extractLsb'_toNat, Nat.shiftRight_eq_div_pow]

theorem toNat_append (n m : Nat) (a : BitVec n) (b : BitVec m) : (a ++ b).toNat = a.toNat * 2 ^ m + b.toNat := by
  rw [BitVec.toNat_append, Nat.shiftLeft_eq, Nat.mul_comm, Nat.two_pow_add_eq_or_of_lt b.isLt]

theorem toNat_packNNN (cls : Nibble) (nnn : Addr12) : (packNNN cls nnn).toNat = cls.toNat * 4096 + nnn.toNat := by
  rw [packNNN, toNat_append]
  omega

theorem toNat_packXKK (cls x : Nibble) (kk : Byte) :
    (packXKK cls x kk).toNat = cls.toNat * 4096 + x.toNat * 256 + kk.toNat := by
  rw [packXKK, toNat_append, toNat_append]
  omega

theorem toNat_packXYN (cls x y n : Nibble) :
    (packXYN cls x y n).toNat = cls.toNat * 4096 + x.toNat * 256 + y.toNat * 16 + n.toNat := by
  rw [packXYN, toNat_append, toNat_append, toNat_append]
  omega

theorem toNat_wordOfBytes (hi lo : Byte) : (wordOfBytes hi lo).toNat = hi.toNat * 256 + lo.toNat := by
  rw [wordOfBytes, toNat_append]
  omega

theorem toNat_classOf (w : Word) : (classOf w).toNat = w.toNat / 4096 := by
  rw [classOf, toNat_opBits]
  have := w.isLt
  omega

theorem toNat_xOf (w : Word) : (xOf w).toNat = w.toNat / 256 % 16 := toNat_opBits w 8 4

theorem toNat_yOf (w : Word) : (yOf w).toNat = w.toNat / 16 % 16 := toNat_opBits w 4 4

theorem toNat_nOf (w : Word) : (nOf w).toNat = w.toNat % 16 := by
  rw [nOf, toNat_opBits]
  omega

theorem toNat_kkOf (w : Word) : (kkOf w).toNat = w.toNat % 256 := by
  rw [kkOf, toNat_opBits]
  omega

theorem toNat_nnnOf (w : Word) : (nnnOf w).toNat = w.toNat % 4096 := by
  rw [nnnOf, toNat_opBits]
  omega

/-! ### The fields of each format -/

@[simp] theorem classOf_packNNN (c : Nibble) (a : Addr12) : classOf (packNNN c a) = c := by
  apply BitVec.eq_of_toNat_eq
  rw [toNat_classOf, toNat_packNNN]
  have := a.isLt
  omega

@[simp] theorem nnnOf_packNNN (c : Nibble) (a : Addr12) : nnnOf (packNNN c a) = a := by
  apply BitVec.eq_of_toNat_eq
  rw [toNat_nnnOf, toNat_packNNN]
  have := a.isLt
  omega

@[simp] theorem classOf_packXKK (c x : Nibble) (k : Byte) : classOf (packXKK c x k) = c := by
  apply BitVec.eq_of_toNat_eq
  rw [toNat_classOf, toNat_packXKK]
  have := x.isLt
  have := k.isLt
  omega

@[simp] theorem xOf_packXKK (c x : Nibble) (k : Byte) : xOf (packXKK c x k) = x := by
  apply BitVec.eq_of_toNat_eq
  rw [toNat_xOf, toNat_packXKK]
  have := x.isLt
  have := k.isLt
  omega

@[simp] theorem kkOf_packXKK (c x : Nibble) (k : Byte) : kkOf (packXKK c x k) = k := by
  apply BitVec.eq_of_toNat_eq
  rw [toNat_kkOf, toNat_packXKK]
  have := k.isLt
  omega

@[simp] theorem classOf_packXYN (c x y n : Nibble) : classOf (packXYN c x y n) = c := by
  apply BitVec.eq_of_toNat_eq
  rw [toNat_classOf, toNat_packXYN]
  have := x.isLt
  have := y.isLt
  have := n.isLt
  omega

@[simp] theorem xOf_packXYN (c x y n : Nibble) : xOf (packXYN c x y n) = x := by
  apply BitVec.eq_of_toNat_eq
  rw [toNat_xOf, toNat_packXYN]
  have := x.isLt
  have := y.isLt
  have := n.isLt
  omega

@[simp] theorem yOf_packXYN (c x y n : Nibble) : yOf (packXYN c x y n) = y := by
  apply BitVec.eq_of_toNat_eq
  rw [toNat_yOf, toNat_packXYN]
  have := y.isLt
  have := n.isLt
  omega

@[simp] theorem nOf_packXYN (c x y n : Nibble) : nOf (packXYN c x y n) = n := by
  apply BitVec.eq_of_toNat_eq
  rw [toNat_nOf, toNat_packXYN]
  have := n.isLt
  omega

/-! ### A word is its fields -/

theorem packNNN_fields (w : Word) : packNNN (classOf w) (nnnOf w) = w := by
  apply BitVec.eq_of_toNat_eq
  rw [toNat_packNNN, toNat_classOf, toNat_nnnOf]
  omega

theorem packXKK_fields (w : Word) : packXKK (classOf w) (xOf w) (kkOf w) = w := by
  apply BitVec.eq_of_toNat_eq
  rw [toNat_packXKK, toNat_classOf, toNat_xOf, toNat_kkOf]
  omega

theorem packXYN_fields (w : Word) : packXYN (classOf w) (xOf w) (yOf w) (nOf w) = w := by
  apply BitVec.eq_of_toNat_eq
  rw [toNat_packXYN, toNat_classOf, toNat_xOf, toNat_yOf, toNat_nOf]
  omega

/-- The bytes of a word give it back (20_memory.md R41). -/
theorem wordOfBytes_bytesOfWord (w : Word) : wordOfBytes (opBits w 8 8) (opBits w 0 8) = w := by
  apply BitVec.eq_of_toNat_eq
  rw [toNat_wordOfBytes, toNat_opBits, toNat_opBits]
  have := w.isLt
  omega

/-! ### The masks of R63 -/

theorem and_F000 (w : Word) : w &&& 0xF000#16 = packNNN (classOf w) 0#12 := by
  apply BitVec.eq_of_getLsbD_eq
  intro i hi
  simp only [packNNN, classOf, opBits, BitVec.getLsbD_and, BitVec.getLsbD_append, BitVec.getLsbD_extractLsb']
  interval_cases i <;> simp

theorem and_F00F (w : Word) : w &&& 0xF00F#16 = packXYN (classOf w) 0#4 0#4 (nOf w) := by
  apply BitVec.eq_of_getLsbD_eq
  intro i hi
  simp only [packXYN, classOf, nOf, opBits, BitVec.getLsbD_and, BitVec.getLsbD_append, BitVec.getLsbD_extractLsb']
  interval_cases i <;> simp

theorem and_F0FF (w : Word) : w &&& 0xF0FF#16 = packXKK (classOf w) 0#4 (kkOf w) := by
  apply BitVec.eq_of_getLsbD_eq
  intro i hi
  simp only [packXKK, classOf, kkOf, opBits, BitVec.getLsbD_and, BitVec.getLsbD_append, BitVec.getLsbD_extractLsb']
  interval_cases i <;> simp

theorem and_FFFF (w : Word) : w &&& 0xFFFF#16 = w := by
  apply BitVec.eq_of_getLsbD_eq
  intro i hi
  simp only [BitVec.getLsbD_and]
  interval_cases i <;> simp

end Sys2Proof
end

