-- ==== Sys2Proof/Laws/State.lean ====
section
/-!
SUPPORT. One lemma per field per update of the state, so that no proof unfolds a record update.
-/

namespace Sys2Proof.Machine

variable (s : State)

/-! ### `setReg` -/

@[simp] theorem State.setReg_cfg (x : Nibble) (b : Byte) : (s.setReg x b).cfg = s.cfg := rfl
@[simp] theorem State.setReg_v (x : Nibble) (b : Byte) : (s.setReg x b).v = s.v.set x.toNat b x.isLt := rfl
@[simp] theorem State.setReg_pc (x : Nibble) (b : Byte) : (s.setReg x b).pc = s.pc := rfl
@[simp] theorem State.setReg_sp (x : Nibble) (b : Byte) : (s.setReg x b).sp = s.sp := rfl
@[simp] theorem State.setReg_i (x : Nibble) (b : Byte) : (s.setReg x b).i = s.i := rfl
@[simp] theorem State.setReg_dt (x : Nibble) (b : Byte) : (s.setReg x b).dt = s.dt := rfl
@[simp] theorem State.setReg_st (x : Nibble) (b : Byte) : (s.setReg x b).st = s.st := rfl
@[simp] theorem State.setReg_jumpFlag (x : Nibble) (b : Byte) : (s.setReg x b).jumpFlag = s.jumpFlag := rfl
@[simp] theorem State.setReg_stack (x : Nibble) (b : Byte) : (s.setReg x b).stack = s.stack := rfl
@[simp] theorem State.setReg_mem (x : Nibble) (b : Byte) : (s.setReg x b).mem = s.mem := rfl
@[simp] theorem State.setReg_fb (x : Nibble) (b : Byte) : (s.setReg x b).fb = s.fb := rfl
@[simp] theorem State.setReg_fbLock (x : Nibble) (b : Byte) : (s.setReg x b).fbLock = s.fbLock := rfl
@[simp] theorem State.setReg_drawPhase (x : Nibble) (b : Byte) : (s.setReg x b).drawPhase = s.drawPhase := rfl
@[simp] theorem State.setReg_drawDeadline (x : Nibble) (b : Byte) : (s.setReg x b).drawDeadline = s.drawDeadline := rfl
@[simp] theorem State.setReg_drawnDeadline (x : Nibble) (b : Byte) : (s.setReg x b).drawnDeadline = s.drawnDeadline := rfl
@[simp] theorem State.setReg_keyPhase (x : Nibble) (b : Byte) : (s.setReg x b).keyPhase = s.keyPhase := rfl
@[simp] theorem State.setReg_keyCounter (x : Nibble) (b : Byte) : (s.setReg x b).keyCounter = s.keyCounter := rfl
@[simp] theorem State.setReg_keyLatched (x : Nibble) (b : Byte) : (s.setReg x b).keyLatched = s.keyLatched := rfl
@[simp] theorem State.setReg_trap (x : Nibble) (b : Byte) : (s.setReg x b).trap = s.trap := rfl
@[simp] theorem State.setReg_sched (x : Nibble) (b : Byte) : (s.setReg x b).sched = s.sched := rfl
@[simp] theorem State.setReg_tickTime (x : Nibble) (b : Byte) : (s.setReg x b).tickTime = s.tickTime := rfl
@[simp] theorem State.setReg_timers (x : Nibble) (b : Byte) : (s.setReg x b).timers = s.timers := rfl
@[simp] theorem State.setReg_tone (x : Nibble) (b : Byte) : (s.setReg x b).tone = s.tone := rfl
@[simp] theorem State.setReg_out (x : Nibble) (b : Byte) : (s.setReg x b).out = s.out := rfl
@[simp] theorem State.setReg_wake (x : Nibble) (b : Byte) : (s.setReg x b).wake = s.wake := rfl
@[simp] theorem State.setReg_now (x : Nibble) (b : Byte) : (s.setReg x b).now = s.now := rfl
@[simp] theorem State.setReg_composeBusy (x : Nibble) (b : Byte) : (s.setReg x b).composeBusy = s.composeBusy := rfl
@[simp] theorem State.setReg_copyPending (x : Nibble) (b : Byte) : (s.setReg x b).copyPending = s.copyPending := rfl
@[simp] theorem State.setReg_frame (x : Nibble) (b : Byte) : (s.setReg x b).frame = s.frame := rfl
@[simp] theorem State.setReg_hostQueue (x : Nibble) (b : Byte) : (s.setReg x b).hostQueue = s.hostQueue := rfl
@[simp] theorem State.setReg_reply (x : Nibble) (b : Byte) : (s.setReg x b).reply = s.reply := rfl
@[simp] theorem State.setReg_moves (x : Nibble) (b : Byte) : (s.setReg x b).moves = s.moves := rfl
@[simp] theorem State.setReg_moveDraws (x : Nibble) (b : Byte) : (s.setReg x b).moveDraws = s.moveDraws := rfl
@[simp] theorem State.setReg_randDraws (x : Nibble) (b : Byte) : (s.setReg x b).randDraws = s.randDraws := rfl
@[simp] theorem State.setReg_keyDraws (x : Nibble) (b : Byte) : (s.setReg x b).keyDraws = s.keyDraws := rfl
@[simp] theorem State.setReg_cycles (x : Nibble) (b : Byte) : (s.setReg x b).cycles = s.cycles := rfl

/-! ### `setI` -/

@[simp] theorem State.setI_cfg (a : Word) : (s.setI a).cfg = s.cfg := rfl
@[simp] theorem State.setI_v (a : Word) : (s.setI a).v = s.v := rfl
@[simp] theorem State.setI_pc (a : Word) : (s.setI a).pc = s.pc := rfl
@[simp] theorem State.setI_sp (a : Word) : (s.setI a).sp = s.sp := rfl
@[simp] theorem State.setI_i (a : Word) : (s.setI a).i = a := rfl
@[simp] theorem State.setI_dt (a : Word) : (s.setI a).dt = s.dt := rfl
@[simp] theorem State.setI_st (a : Word) : (s.setI a).st = s.st := rfl
@[simp] theorem State.setI_jumpFlag (a : Word) : (s.setI a).jumpFlag = s.jumpFlag := rfl
@[simp] theorem State.setI_stack (a : Word) : (s.setI a).stack = s.stack := rfl
@[simp] theorem State.setI_mem (a : Word) : (s.setI a).mem = s.mem := rfl
@[simp] theorem State.setI_fb (a : Word) : (s.setI a).fb = s.fb := rfl
@[simp] theorem State.setI_fbLock (a : Word) : (s.setI a).fbLock = s.fbLock := rfl
@[simp] theorem State.setI_drawPhase (a : Word) : (s.setI a).drawPhase = s.drawPhase := rfl
@[simp] theorem State.setI_drawDeadline (a : Word) : (s.setI a).drawDeadline = s.drawDeadline := rfl
@[simp] theorem State.setI_drawnDeadline (a : Word) : (s.setI a).drawnDeadline = s.drawnDeadline := rfl
@[simp] theorem State.setI_keyPhase (a : Word) : (s.setI a).keyPhase = s.keyPhase := rfl
@[simp] theorem State.setI_keyCounter (a : Word) : (s.setI a).keyCounter = s.keyCounter := rfl
@[simp] theorem State.setI_keyLatched (a : Word) : (s.setI a).keyLatched = s.keyLatched := rfl
@[simp] theorem State.setI_trap (a : Word) : (s.setI a).trap = s.trap := rfl
@[simp] theorem State.setI_sched (a : Word) : (s.setI a).sched = s.sched := rfl
@[simp] theorem State.setI_tickTime (a : Word) : (s.setI a).tickTime = s.tickTime := rfl
@[simp] theorem State.setI_timers (a : Word) : (s.setI a).timers = s.timers := rfl
@[simp] theorem State.setI_tone (a : Word) : (s.setI a).tone = s.tone := rfl
@[simp] theorem State.setI_out (a : Word) : (s.setI a).out = s.out := rfl
@[simp] theorem State.setI_wake (a : Word) : (s.setI a).wake = s.wake := rfl
@[simp] theorem State.setI_now (a : Word) : (s.setI a).now = s.now := rfl
@[simp] theorem State.setI_composeBusy (a : Word) : (s.setI a).composeBusy = s.composeBusy := rfl
@[simp] theorem State.setI_copyPending (a : Word) : (s.setI a).copyPending = s.copyPending := rfl
@[simp] theorem State.setI_frame (a : Word) : (s.setI a).frame = s.frame := rfl
@[simp] theorem State.setI_hostQueue (a : Word) : (s.setI a).hostQueue = s.hostQueue := rfl
@[simp] theorem State.setI_reply (a : Word) : (s.setI a).reply = s.reply := rfl
@[simp] theorem State.setI_moves (a : Word) : (s.setI a).moves = s.moves := rfl
@[simp] theorem State.setI_moveDraws (a : Word) : (s.setI a).moveDraws = s.moveDraws := rfl
@[simp] theorem State.setI_randDraws (a : Word) : (s.setI a).randDraws = s.randDraws := rfl
@[simp] theorem State.setI_keyDraws (a : Word) : (s.setI a).keyDraws = s.keyDraws := rfl
@[simp] theorem State.setI_cycles (a : Word) : (s.setI a).cycles = s.cycles := rfl

/-! ### `setDt` -/

@[simp] theorem State.setDt_cfg (b : Byte) : (s.setDt b).cfg = s.cfg := rfl
@[simp] theorem State.setDt_v (b : Byte) : (s.setDt b).v = s.v := rfl
@[simp] theorem State.setDt_pc (b : Byte) : (s.setDt b).pc = s.pc := rfl
@[simp] theorem State.setDt_sp (b : Byte) : (s.setDt b).sp = s.sp := rfl
@[simp] theorem State.setDt_i (b : Byte) : (s.setDt b).i = s.i := rfl
@[simp] theorem State.setDt_dt (b : Byte) : (s.setDt b).dt = b := rfl
@[simp] theorem State.setDt_st (b : Byte) : (s.setDt b).st = s.st := rfl
@[simp] theorem State.setDt_jumpFlag (b : Byte) : (s.setDt b).jumpFlag = s.jumpFlag := rfl
@[simp] theorem State.setDt_stack (b : Byte) : (s.setDt b).stack = s.stack := rfl
@[simp] theorem State.setDt_mem (b : Byte) : (s.setDt b).mem = s.mem := rfl
@[simp] theorem State.setDt_fb (b : Byte) : (s.setDt b).fb = s.fb := rfl
@[simp] theorem State.setDt_fbLock (b : Byte) : (s.setDt b).fbLock = s.fbLock := rfl
@[simp] theorem State.setDt_drawPhase (b : Byte) : (s.setDt b).drawPhase = s.drawPhase := rfl
@[simp] theorem State.setDt_drawDeadline (b : Byte) : (s.setDt b).drawDeadline = s.drawDeadline := rfl
@[simp] theorem State.setDt_drawnDeadline (b : Byte) : (s.setDt b).drawnDeadline = s.drawnDeadline := rfl
@[simp] theorem State.setDt_keyPhase (b : Byte) : (s.setDt b).keyPhase = s.keyPhase := rfl
@[simp] theorem State.setDt_keyCounter (b : Byte) : (s.setDt b).keyCounter = s.keyCounter := rfl
@[simp] theorem State.setDt_keyLatched (b : Byte) : (s.setDt b).keyLatched = s.keyLatched := rfl
@[simp] theorem State.setDt_trap (b : Byte) : (s.setDt b).trap = s.trap := rfl
@[simp] theorem State.setDt_sched (b : Byte) : (s.setDt b).sched = s.sched := rfl
@[simp] theorem State.setDt_tickTime (b : Byte) : (s.setDt b).tickTime = s.tickTime := rfl
@[simp] theorem State.setDt_timers (b : Byte) : (s.setDt b).timers = s.timers := rfl
@[simp] theorem State.setDt_tone (b : Byte) : (s.setDt b).tone = s.tone := rfl
@[simp] theorem State.setDt_out (b : Byte) : (s.setDt b).out = s.out := rfl
@[simp] theorem State.setDt_wake (b : Byte) : (s.setDt b).wake = s.wake := rfl
@[simp] theorem State.setDt_now (b : Byte) : (s.setDt b).now = s.now := rfl
@[simp] theorem State.setDt_composeBusy (b : Byte) : (s.setDt b).composeBusy = s.composeBusy := rfl
@[simp] theorem State.setDt_copyPending (b : Byte) : (s.setDt b).copyPending = s.copyPending := rfl
@[simp] theorem State.setDt_frame (b : Byte) : (s.setDt b).frame = s.frame := rfl
@[simp] theorem State.setDt_hostQueue (b : Byte) : (s.setDt b).hostQueue = s.hostQueue := rfl
@[simp] theorem State.setDt_reply (b : Byte) : (s.setDt b).reply = s.reply := rfl
@[simp] theorem State.setDt_moves (b : Byte) : (s.setDt b).moves = s.moves := rfl
@[simp] theorem State.setDt_moveDraws (b : Byte) : (s.setDt b).moveDraws = s.moveDraws := rfl
@[simp] theorem State.setDt_randDraws (b : Byte) : (s.setDt b).randDraws = s.randDraws := rfl
@[simp] theorem State.setDt_keyDraws (b : Byte) : (s.setDt b).keyDraws = s.keyDraws := rfl
@[simp] theorem State.setDt_cycles (b : Byte) : (s.setDt b).cycles = s.cycles := rfl

/-! ### `setSt` -/

@[simp] theorem State.setSt_cfg (b : Byte) : (s.setSt b).cfg = s.cfg := rfl
@[simp] theorem State.setSt_v (b : Byte) : (s.setSt b).v = s.v := rfl
@[simp] theorem State.setSt_pc (b : Byte) : (s.setSt b).pc = s.pc := rfl
@[simp] theorem State.setSt_sp (b : Byte) : (s.setSt b).sp = s.sp := rfl
@[simp] theorem State.setSt_i (b : Byte) : (s.setSt b).i = s.i := rfl
@[simp] theorem State.setSt_dt (b : Byte) : (s.setSt b).dt = s.dt := rfl
@[simp] theorem State.setSt_st (b : Byte) : (s.setSt b).st = b := rfl
@[simp] theorem State.setSt_jumpFlag (b : Byte) : (s.setSt b).jumpFlag = s.jumpFlag := rfl
@[simp] theorem State.setSt_stack (b : Byte) : (s.setSt b).stack = s.stack := rfl
@[simp] theorem State.setSt_mem (b : Byte) : (s.setSt b).mem = s.mem := rfl
@[simp] theorem State.setSt_fb (b : Byte) : (s.setSt b).fb = s.fb := rfl
@[simp] theorem State.setSt_fbLock (b : Byte) : (s.setSt b).fbLock = s.fbLock := rfl
@[simp] theorem State.setSt_drawPhase (b : Byte) : (s.setSt b).drawPhase = s.drawPhase := rfl
@[simp] theorem State.setSt_drawDeadline (b : Byte) : (s.setSt b).drawDeadline = s.drawDeadline := rfl
@[simp] theorem State.setSt_drawnDeadline (b : Byte) : (s.setSt b).drawnDeadline = s.drawnDeadline := rfl
@[simp] theorem State.setSt_keyPhase (b : Byte) : (s.setSt b).keyPhase = s.keyPhase := rfl
@[simp] theorem State.setSt_keyCounter (b : Byte) : (s.setSt b).keyCounter = s.keyCounter := rfl
@[simp] theorem State.setSt_keyLatched (b : Byte) : (s.setSt b).keyLatched = s.keyLatched := rfl
@[simp] theorem State.setSt_trap (b : Byte) : (s.setSt b).trap = s.trap := rfl
@[simp] theorem State.setSt_sched (b : Byte) : (s.setSt b).sched = s.sched := rfl
@[simp] theorem State.setSt_tickTime (b : Byte) : (s.setSt b).tickTime = s.tickTime := rfl
@[simp] theorem State.setSt_timers (b : Byte) : (s.setSt b).timers = s.timers := rfl
@[simp] theorem State.setSt_tone (b : Byte) : (s.setSt b).tone = s.tone := rfl
@[simp] theorem State.setSt_out (b : Byte) : (s.setSt b).out = s.out := rfl
@[simp] theorem State.setSt_wake (b : Byte) : (s.setSt b).wake = s.wake := rfl
@[simp] theorem State.setSt_now (b : Byte) : (s.setSt b).now = s.now := rfl
@[simp] theorem State.setSt_composeBusy (b : Byte) : (s.setSt b).composeBusy = s.composeBusy := rfl
@[simp] theorem State.setSt_copyPending (b : Byte) : (s.setSt b).copyPending = s.copyPending := rfl
@[simp] theorem State.setSt_frame (b : Byte) : (s.setSt b).frame = s.frame := rfl
@[simp] theorem State.setSt_hostQueue (b : Byte) : (s.setSt b).hostQueue = s.hostQueue := rfl
@[simp] theorem State.setSt_reply (b : Byte) : (s.setSt b).reply = s.reply := rfl
@[simp] theorem State.setSt_moves (b : Byte) : (s.setSt b).moves = s.moves := rfl
@[simp] theorem State.setSt_moveDraws (b : Byte) : (s.setSt b).moveDraws = s.moveDraws := rfl
@[simp] theorem State.setSt_randDraws (b : Byte) : (s.setSt b).randDraws = s.randDraws := rfl
@[simp] theorem State.setSt_keyDraws (b : Byte) : (s.setSt b).keyDraws = s.keyDraws := rfl
@[simp] theorem State.setSt_cycles (b : Byte) : (s.setSt b).cycles = s.cycles := rfl

/-! ### `storeBytes` -/

@[simp] theorem State.storeBytes_cfg (a : Nat) (bs : List Byte) : (s.storeBytes a bs).cfg = s.cfg := rfl
@[simp] theorem State.storeBytes_v (a : Nat) (bs : List Byte) : (s.storeBytes a bs).v = s.v := rfl
@[simp] theorem State.storeBytes_pc (a : Nat) (bs : List Byte) : (s.storeBytes a bs).pc = s.pc := rfl
@[simp] theorem State.storeBytes_sp (a : Nat) (bs : List Byte) : (s.storeBytes a bs).sp = s.sp := rfl
@[simp] theorem State.storeBytes_i (a : Nat) (bs : List Byte) : (s.storeBytes a bs).i = s.i := rfl
@[simp] theorem State.storeBytes_dt (a : Nat) (bs : List Byte) : (s.storeBytes a bs).dt = s.dt := rfl
@[simp] theorem State.storeBytes_st (a : Nat) (bs : List Byte) : (s.storeBytes a bs).st = s.st := rfl
@[simp] theorem State.storeBytes_jumpFlag (a : Nat) (bs : List Byte) : (s.storeBytes a bs).jumpFlag = s.jumpFlag := rfl
@[simp] theorem State.storeBytes_stack (a : Nat) (bs : List Byte) : (s.storeBytes a bs).stack = s.stack := rfl
@[simp] theorem State.storeBytes_mem (a : Nat) (bs : List Byte) : (s.storeBytes a bs).mem = Cells.writeList s.cfg.resetByte s.mem a bs := rfl
@[simp] theorem State.storeBytes_fb (a : Nat) (bs : List Byte) : (s.storeBytes a bs).fb = s.fb := rfl
@[simp] theorem State.storeBytes_fbLock (a : Nat) (bs : List Byte) : (s.storeBytes a bs).fbLock = s.fbLock := rfl
@[simp] theorem State.storeBytes_drawPhase (a : Nat) (bs : List Byte) : (s.storeBytes a bs).drawPhase = s.drawPhase := rfl
@[simp] theorem State.storeBytes_drawDeadline (a : Nat) (bs : List Byte) : (s.storeBytes a bs).drawDeadline = s.drawDeadline := rfl
@[simp] theorem State.storeBytes_drawnDeadline (a : Nat) (bs : List Byte) : (s.storeBytes a bs).drawnDeadline = s.drawnDeadline := rfl
@[simp] theorem State.storeBytes_keyPhase (a : Nat) (bs : List Byte) : (s.storeBytes a bs).keyPhase = s.keyPhase := rfl
@[simp] theorem State.storeBytes_keyCounter (a : Nat) (bs : List Byte) : (s.storeBytes a bs).keyCounter = s.keyCounter := rfl
@[simp] theorem State.storeBytes_keyLatched (a : Nat) (bs : List Byte) : (s.storeBytes a bs).keyLatched = s.keyLatched := rfl
@[simp] theorem State.storeBytes_trap (a : Nat) (bs : List Byte) : (s.storeBytes a bs).trap = s.trap := rfl
@[simp] theorem State.storeBytes_sched (a : Nat) (bs : List Byte) : (s.storeBytes a bs).sched = s.sched := rfl
@[simp] theorem State.storeBytes_tickTime (a : Nat) (bs : List Byte) : (s.storeBytes a bs).tickTime = s.tickTime := rfl
@[simp] theorem State.storeBytes_timers (a : Nat) (bs : List Byte) : (s.storeBytes a bs).timers = s.timers := rfl
@[simp] theorem State.storeBytes_tone (a : Nat) (bs : List Byte) : (s.storeBytes a bs).tone = s.tone := rfl
@[simp] theorem State.storeBytes_out (a : Nat) (bs : List Byte) : (s.storeBytes a bs).out = s.out := rfl
@[simp] theorem State.storeBytes_wake (a : Nat) (bs : List Byte) : (s.storeBytes a bs).wake = s.wake := rfl
@[simp] theorem State.storeBytes_now (a : Nat) (bs : List Byte) : (s.storeBytes a bs).now = s.now := rfl
@[simp] theorem State.storeBytes_composeBusy (a : Nat) (bs : List Byte) : (s.storeBytes a bs).composeBusy = s.composeBusy := rfl
@[simp] theorem State.storeBytes_copyPending (a : Nat) (bs : List Byte) : (s.storeBytes a bs).copyPending = s.copyPending := rfl
@[simp] theorem State.storeBytes_frame (a : Nat) (bs : List Byte) : (s.storeBytes a bs).frame = s.frame := rfl
@[simp] theorem State.storeBytes_hostQueue (a : Nat) (bs : List Byte) : (s.storeBytes a bs).hostQueue = s.hostQueue := rfl
@[simp] theorem State.storeBytes_reply (a : Nat) (bs : List Byte) : (s.storeBytes a bs).reply = s.reply := rfl
@[simp] theorem State.storeBytes_moves (a : Nat) (bs : List Byte) : (s.storeBytes a bs).moves = s.moves := rfl
@[simp] theorem State.storeBytes_moveDraws (a : Nat) (bs : List Byte) : (s.storeBytes a bs).moveDraws = s.moveDraws := rfl
@[simp] theorem State.storeBytes_randDraws (a : Nat) (bs : List Byte) : (s.storeBytes a bs).randDraws = s.randDraws := rfl
@[simp] theorem State.storeBytes_keyDraws (a : Nat) (bs : List Byte) : (s.storeBytes a bs).keyDraws = s.keyDraws := rfl
@[simp] theorem State.storeBytes_cycles (a : Nat) (bs : List Byte) : (s.storeBytes a bs).cycles = s.cycles := rfl

/-! ### `transfer` -/

@[simp] theorem State.transfer_cfg (a : Word) : (s.transfer a).cfg = s.cfg := rfl
@[simp] theorem State.transfer_v (a : Word) : (s.transfer a).v = s.v := rfl
@[simp] theorem State.transfer_pc (a : Word) : (s.transfer a).pc = a := rfl
@[simp] theorem State.transfer_sp (a : Word) : (s.transfer a).sp = s.sp := rfl
@[simp] theorem State.transfer_i (a : Word) : (s.transfer a).i = s.i := rfl
@[simp] theorem State.transfer_dt (a : Word) : (s.transfer a).dt = s.dt := rfl
@[simp] theorem State.transfer_st (a : Word) : (s.transfer a).st = s.st := rfl
@[simp] theorem State.transfer_jumpFlag (a : Word) : (s.transfer a).jumpFlag = true := rfl
@[simp] theorem State.transfer_stack (a : Word) : (s.transfer a).stack = s.stack := rfl
@[simp] theorem State.transfer_mem (a : Word) : (s.transfer a).mem = s.mem := rfl
@[simp] theorem State.transfer_fb (a : Word) : (s.transfer a).fb = s.fb := rfl
@[simp] theorem State.transfer_fbLock (a : Word) : (s.transfer a).fbLock = s.fbLock := rfl
@[simp] theorem State.transfer_drawPhase (a : Word) : (s.transfer a).drawPhase = s.drawPhase := rfl
@[simp] theorem State.transfer_drawDeadline (a : Word) : (s.transfer a).drawDeadline = s.drawDeadline := rfl
@[simp] theorem State.transfer_drawnDeadline (a : Word) : (s.transfer a).drawnDeadline = s.drawnDeadline := rfl
@[simp] theorem State.transfer_keyPhase (a : Word) : (s.transfer a).keyPhase = s.keyPhase := rfl
@[simp] theorem State.transfer_keyCounter (a : Word) : (s.transfer a).keyCounter = s.keyCounter := rfl
@[simp] theorem State.transfer_keyLatched (a : Word) : (s.transfer a).keyLatched = s.keyLatched := rfl
@[simp] theorem State.transfer_trap (a : Word) : (s.transfer a).trap = s.trap := rfl
@[simp] theorem State.transfer_sched (a : Word) : (s.transfer a).sched = s.sched := rfl
@[simp] theorem State.transfer_tickTime (a : Word) : (s.transfer a).tickTime = s.tickTime := rfl
@[simp] theorem State.transfer_timers (a : Word) : (s.transfer a).timers = s.timers := rfl
@[simp] theorem State.transfer_tone (a : Word) : (s.transfer a).tone = s.tone := rfl
@[simp] theorem State.transfer_out (a : Word) : (s.transfer a).out = s.out := rfl
@[simp] theorem State.transfer_wake (a : Word) : (s.transfer a).wake = s.wake := rfl
@[simp] theorem State.transfer_now (a : Word) : (s.transfer a).now = s.now := rfl
@[simp] theorem State.transfer_composeBusy (a : Word) : (s.transfer a).composeBusy = s.composeBusy := rfl
@[simp] theorem State.transfer_copyPending (a : Word) : (s.transfer a).copyPending = s.copyPending := rfl
@[simp] theorem State.transfer_frame (a : Word) : (s.transfer a).frame = s.frame := rfl
@[simp] theorem State.transfer_hostQueue (a : Word) : (s.transfer a).hostQueue = s.hostQueue := rfl
@[simp] theorem State.transfer_reply (a : Word) : (s.transfer a).reply = s.reply := rfl
@[simp] theorem State.transfer_moves (a : Word) : (s.transfer a).moves = s.moves := rfl
@[simp] theorem State.transfer_moveDraws (a : Word) : (s.transfer a).moveDraws = s.moveDraws := rfl
@[simp] theorem State.transfer_randDraws (a : Word) : (s.transfer a).randDraws = s.randDraws := rfl
@[simp] theorem State.transfer_keyDraws (a : Word) : (s.transfer a).keyDraws = s.keyDraws := rfl
@[simp] theorem State.transfer_cycles (a : Word) : (s.transfer a).cycles = s.cycles := rfl

/-! ### `repeatCycle` -/

@[simp] theorem State.repeatCycle_cfg : s.repeatCycle.cfg = s.cfg := rfl
@[simp] theorem State.repeatCycle_v : s.repeatCycle.v = s.v := rfl
@[simp] theorem State.repeatCycle_pc : s.repeatCycle.pc = s.pc := rfl
@[simp] theorem State.repeatCycle_sp : s.repeatCycle.sp = s.sp := rfl
@[simp] theorem State.repeatCycle_i : s.repeatCycle.i = s.i := rfl
@[simp] theorem State.repeatCycle_dt : s.repeatCycle.dt = s.dt := rfl
@[simp] theorem State.repeatCycle_st : s.repeatCycle.st = s.st := rfl
@[simp] theorem State.repeatCycle_jumpFlag : s.repeatCycle.jumpFlag = true := rfl
@[simp] theorem State.repeatCycle_stack : s.repeatCycle.stack = s.stack := rfl
@[simp] theorem State.repeatCycle_mem : s.repeatCycle.mem = s.mem := rfl
@[simp] theorem State.repeatCycle_fb : s.repeatCycle.fb = s.fb := rfl
@[simp] theorem State.repeatCycle_fbLock : s.repeatCycle.fbLock = s.fbLock := rfl
@[simp] theorem State.repeatCycle_drawPhase : s.repeatCycle.drawPhase = s.drawPhase := rfl
@[simp] theorem State.repeatCycle_drawDeadline : s.repeatCycle.drawDeadline = s.drawDeadline := rfl
@[simp] theorem State.repeatCycle_drawnDeadline : s.repeatCycle.drawnDeadline = s.drawnDeadline := rfl
@[simp] theorem State.repeatCycle_keyPhase : s.repeatCycle.keyPhase = s.keyPhase := rfl
@[simp] theorem State.repeatCycle_keyCounter : s.repeatCycle.keyCounter = s.keyCounter := rfl
@[simp] theorem State.repeatCycle_keyLatched : s.repeatCycle.keyLatched = s.keyLatched := rfl
@[simp] theorem State.repeatCycle_trap : s.repeatCycle.trap = s.trap := rfl
@[simp] theorem State.repeatCycle_sched : s.repeatCycle.sched = s.sched := rfl
@[simp] theorem State.repeatCycle_tickTime : s.repeatCycle.tickTime = s.tickTime := rfl
@[simp] theorem State.repeatCycle_timers : s.repeatCycle.timers = s.timers := rfl
@[simp] theorem State.repeatCycle_tone : s.repeatCycle.tone = s.tone := rfl
@[simp] theorem State.repeatCycle_out : s.repeatCycle.out = s.out := rfl
@[simp] theorem State.repeatCycle_wake : s.repeatCycle.wake = s.wake := rfl
@[simp] theorem State.repeatCycle_now : s.repeatCycle.now = s.now := rfl
@[simp] theorem State.repeatCycle_composeBusy : s.repeatCycle.composeBusy = s.composeBusy := rfl
@[simp] theorem State.repeatCycle_copyPending : s.repeatCycle.copyPending = s.copyPending := rfl
@[simp] theorem State.repeatCycle_frame : s.repeatCycle.frame = s.frame := rfl
@[simp] theorem State.repeatCycle_hostQueue : s.repeatCycle.hostQueue = s.hostQueue := rfl
@[simp] theorem State.repeatCycle_reply : s.repeatCycle.reply = s.reply := rfl
@[simp] theorem State.repeatCycle_moves : s.repeatCycle.moves = s.moves := rfl
@[simp] theorem State.repeatCycle_moveDraws : s.repeatCycle.moveDraws = s.moveDraws := rfl
@[simp] theorem State.repeatCycle_randDraws : s.repeatCycle.randDraws = s.randDraws := rfl
@[simp] theorem State.repeatCycle_keyDraws : s.repeatCycle.keyDraws = s.keyDraws := rfl
@[simp] theorem State.repeatCycle_cycles : s.repeatCycle.cycles = s.cycles := rfl

/-! ### `changeTimer` -/

@[simp] theorem State.changeTimer_cfg (h : Nat) (f : Timer → Timer) : (s.changeTimer h f).cfg = s.cfg := rfl
@[simp] theorem State.changeTimer_v (h : Nat) (f : Timer → Timer) : (s.changeTimer h f).v = s.v := rfl
@[simp] theorem State.changeTimer_pc (h : Nat) (f : Timer → Timer) : (s.changeTimer h f).pc = s.pc := rfl
@[simp] theorem State.changeTimer_sp (h : Nat) (f : Timer → Timer) : (s.changeTimer h f).sp = s.sp := rfl
@[simp] theorem State.changeTimer_i (h : Nat) (f : Timer → Timer) : (s.changeTimer h f).i = s.i := rfl
@[simp] theorem State.changeTimer_dt (h : Nat) (f : Timer → Timer) : (s.changeTimer h f).dt = s.dt := rfl
@[simp] theorem State.changeTimer_st (h : Nat) (f : Timer → Timer) : (s.changeTimer h f).st = s.st := rfl
@[simp] theorem State.changeTimer_jumpFlag (h : Nat) (f : Timer → Timer) : (s.changeTimer h f).jumpFlag = s.jumpFlag := rfl
@[simp] theorem State.changeTimer_stack (h : Nat) (f : Timer → Timer) : (s.changeTimer h f).stack = s.stack := rfl
@[simp] theorem State.changeTimer_mem (h : Nat) (f : Timer → Timer) : (s.changeTimer h f).mem = s.mem := rfl
@[simp] theorem State.changeTimer_fb (h : Nat) (f : Timer → Timer) : (s.changeTimer h f).fb = s.fb := rfl
@[simp] theorem State.changeTimer_fbLock (h : Nat) (f : Timer → Timer) : (s.changeTimer h f).fbLock = s.fbLock := rfl
@[simp] theorem State.changeTimer_drawPhase (h : Nat) (f : Timer → Timer) : (s.changeTimer h f).drawPhase = s.drawPhase := rfl
@[simp] theorem State.changeTimer_drawDeadline (h : Nat) (f : Timer → Timer) : (s.changeTimer h f).drawDeadline = s.drawDeadline := rfl
@[simp] theorem State.changeTimer_drawnDeadline (h : Nat) (f : Timer → Timer) : (s.changeTimer h f).drawnDeadline = s.drawnDeadline := rfl
@[simp] theorem State.changeTimer_keyPhase (h : Nat) (f : Timer → Timer) : (s.changeTimer h f).keyPhase = s.keyPhase := rfl
@[simp] theorem State.changeTimer_keyCounter (h : Nat) (f : Timer → Timer) : (s.changeTimer h f).keyCounter = s.keyCounter := rfl
@[simp] theorem State.changeTimer_keyLatched (h : Nat) (f : Timer → Timer) : (s.changeTimer h f).keyLatched = s.keyLatched := rfl
@[simp] theorem State.changeTimer_trap (h : Nat) (f : Timer → Timer) : (s.changeTimer h f).trap = s.trap := rfl
@[simp] theorem State.changeTimer_sched (h : Nat) (f : Timer → Timer) : (s.changeTimer h f).sched = s.sched := rfl
@[simp] theorem State.changeTimer_tickTime (h : Nat) (f : Timer → Timer) : (s.changeTimer h f).tickTime = s.tickTime := rfl
@[simp] theorem State.changeTimer_timers (h : Nat) (f : Timer → Timer) : (s.changeTimer h f).timers = s.timers.modify h f := rfl
@[simp] theorem State.changeTimer_tone (h : Nat) (f : Timer → Timer) : (s.changeTimer h f).tone = s.tone := rfl
@[simp] theorem State.changeTimer_out (h : Nat) (f : Timer → Timer) : (s.changeTimer h f).out = s.out := rfl
@[simp] theorem State.changeTimer_wake (h : Nat) (f : Timer → Timer) : (s.changeTimer h f).wake = s.wake := rfl
@[simp] theorem State.changeTimer_now (h : Nat) (f : Timer → Timer) : (s.changeTimer h f).now = s.now := rfl
@[simp] theorem State.changeTimer_composeBusy (h : Nat) (f : Timer → Timer) : (s.changeTimer h f).composeBusy = s.composeBusy := rfl
@[simp] theorem State.changeTimer_copyPending (h : Nat) (f : Timer → Timer) : (s.changeTimer h f).copyPending = s.copyPending := rfl
@[simp] theorem State.changeTimer_frame (h : Nat) (f : Timer → Timer) : (s.changeTimer h f).frame = s.frame := rfl
@[simp] theorem State.changeTimer_hostQueue (h : Nat) (f : Timer → Timer) : (s.changeTimer h f).hostQueue = s.hostQueue := rfl
@[simp] theorem State.changeTimer_reply (h : Nat) (f : Timer → Timer) : (s.changeTimer h f).reply = s.reply := rfl
@[simp] theorem State.changeTimer_moves (h : Nat) (f : Timer → Timer) : (s.changeTimer h f).moves = s.moves := rfl
@[simp] theorem State.changeTimer_moveDraws (h : Nat) (f : Timer → Timer) : (s.changeTimer h f).moveDraws = s.moveDraws := rfl
@[simp] theorem State.changeTimer_randDraws (h : Nat) (f : Timer → Timer) : (s.changeTimer h f).randDraws = s.randDraws := rfl
@[simp] theorem State.changeTimer_keyDraws (h : Nat) (f : Timer → Timer) : (s.changeTimer h f).keyDraws = s.keyDraws := rfl
@[simp] theorem State.changeTimer_cycles (h : Nat) (f : Timer → Timer) : (s.changeTimer h f).cycles = s.cycles := rfl

/-! ### `raise` -/

@[simp] theorem State.raise_cfg (k : TrapKind) (op : Word) (a : Nat) : (s.raise k op a).cfg = s.cfg := rfl
@[simp] theorem State.raise_v (k : TrapKind) (op : Word) (a : Nat) : (s.raise k op a).v = s.v := rfl
@[simp] theorem State.raise_pc (k : TrapKind) (op : Word) (a : Nat) : (s.raise k op a).pc = s.pc := rfl
@[simp] theorem State.raise_sp (k : TrapKind) (op : Word) (a : Nat) : (s.raise k op a).sp = s.sp := rfl
@[simp] theorem State.raise_i (k : TrapKind) (op : Word) (a : Nat) : (s.raise k op a).i = s.i := rfl
@[simp] theorem State.raise_dt (k : TrapKind) (op : Word) (a : Nat) : (s.raise k op a).dt = s.dt := rfl
@[simp] theorem State.raise_st (k : TrapKind) (op : Word) (a : Nat) : (s.raise k op a).st = s.st := rfl
@[simp] theorem State.raise_jumpFlag (k : TrapKind) (op : Word) (a : Nat) : (s.raise k op a).jumpFlag = s.jumpFlag := rfl
@[simp] theorem State.raise_stack (k : TrapKind) (op : Word) (a : Nat) : (s.raise k op a).stack = s.stack := rfl
@[simp] theorem State.raise_mem (k : TrapKind) (op : Word) (a : Nat) : (s.raise k op a).mem = s.mem := rfl
@[simp] theorem State.raise_fb (k : TrapKind) (op : Word) (a : Nat) : (s.raise k op a).fb = s.fb := rfl
@[simp] theorem State.raise_fbLock (k : TrapKind) (op : Word) (a : Nat) : (s.raise k op a).fbLock = s.fbLock := rfl
@[simp] theorem State.raise_drawPhase (k : TrapKind) (op : Word) (a : Nat) : (s.raise k op a).drawPhase = s.drawPhase := rfl
@[simp] theorem State.raise_drawDeadline (k : TrapKind) (op : Word) (a : Nat) : (s.raise k op a).drawDeadline = s.drawDeadline := rfl
@[simp] theorem State.raise_drawnDeadline (k : TrapKind) (op : Word) (a : Nat) : (s.raise k op a).drawnDeadline = s.drawnDeadline := rfl
@[simp] theorem State.raise_keyPhase (k : TrapKind) (op : Word) (a : Nat) : (s.raise k op a).keyPhase = s.keyPhase := rfl
@[simp] theorem State.raise_keyCounter (k : TrapKind) (op : Word) (a : Nat) : (s.raise k op a).keyCounter = s.keyCounter := rfl
@[simp] theorem State.raise_keyLatched (k : TrapKind) (op : Word) (a : Nat) : (s.raise k op a).keyLatched = s.keyLatched := rfl
@[simp] theorem State.raise_trap (k : TrapKind) (op : Word) (a : Nat) : (s.raise k op a).trap = some ⟨k, op, s.pc, a⟩ := rfl
@[simp] theorem State.raise_sched (k : TrapKind) (op : Word) (a : Nat) : (s.raise k op a).sched = s.sched := rfl
@[simp] theorem State.raise_tickTime (k : TrapKind) (op : Word) (a : Nat) : (s.raise k op a).tickTime = s.tickTime := rfl
@[simp] theorem State.raise_timers (k : TrapKind) (op : Word) (a : Nat) : (s.raise k op a).timers = s.timers.modify (s.cfg.handleOf .cpu) fun t => { t with active := false } := rfl
@[simp] theorem State.raise_tone (k : TrapKind) (op : Word) (a : Nat) : (s.raise k op a).tone = s.tone := rfl
@[simp] theorem State.raise_out (k : TrapKind) (op : Word) (a : Nat) : (s.raise k op a).out = s.out := rfl
@[simp] theorem State.raise_wake (k : TrapKind) (op : Word) (a : Nat) : (s.raise k op a).wake = s.wake := rfl
@[simp] theorem State.raise_now (k : TrapKind) (op : Word) (a : Nat) : (s.raise k op a).now = s.now := rfl
@[simp] theorem State.raise_composeBusy (k : TrapKind) (op : Word) (a : Nat) : (s.raise k op a).composeBusy = s.composeBusy := rfl
@[simp] theorem State.raise_copyPending (k : TrapKind) (op : Word) (a : Nat) : (s.raise k op a).copyPending = s.copyPending := rfl
@[simp] theorem State.raise_frame (k : TrapKind) (op : Word) (a : Nat) : (s.raise k op a).frame = s.frame := rfl
@[simp] theorem State.raise_hostQueue (k : TrapKind) (op : Word) (a : Nat) : (s.raise k op a).hostQueue = s.hostQueue := rfl
@[simp] theorem State.raise_reply (k : TrapKind) (op : Word) (a : Nat) : (s.raise k op a).reply = s.reply := rfl
@[simp] theorem State.raise_moves (k : TrapKind) (op : Word) (a : Nat) : (s.raise k op a).moves = s.moves := rfl
@[simp] theorem State.raise_moveDraws (k : TrapKind) (op : Word) (a : Nat) : (s.raise k op a).moveDraws = s.moveDraws := rfl
@[simp] theorem State.raise_randDraws (k : TrapKind) (op : Word) (a : Nat) : (s.raise k op a).randDraws = s.randDraws := rfl
@[simp] theorem State.raise_keyDraws (k : TrapKind) (op : Word) (a : Nat) : (s.raise k op a).keyDraws = s.keyDraws := rfl
@[simp] theorem State.raise_cycles (k : TrapKind) (op : Word) (a : Nat) : (s.raise k op a).cycles = s.cycles := rfl

/-! ### `emit` -/

@[simp] theorem State.emit_cfg (e : Event) : (s.emit e).cfg = s.cfg := rfl
@[simp] theorem State.emit_v (e : Event) : (s.emit e).v = s.v := rfl
@[simp] theorem State.emit_pc (e : Event) : (s.emit e).pc = s.pc := rfl
@[simp] theorem State.emit_sp (e : Event) : (s.emit e).sp = s.sp := rfl
@[simp] theorem State.emit_i (e : Event) : (s.emit e).i = s.i := rfl
@[simp] theorem State.emit_dt (e : Event) : (s.emit e).dt = s.dt := rfl
@[simp] theorem State.emit_st (e : Event) : (s.emit e).st = s.st := rfl
@[simp] theorem State.emit_jumpFlag (e : Event) : (s.emit e).jumpFlag = s.jumpFlag := rfl
@[simp] theorem State.emit_stack (e : Event) : (s.emit e).stack = s.stack := rfl
@[simp] theorem State.emit_mem (e : Event) : (s.emit e).mem = s.mem := rfl
@[simp] theorem State.emit_fb (e : Event) : (s.emit e).fb = s.fb := rfl
@[simp] theorem State.emit_fbLock (e : Event) : (s.emit e).fbLock = s.fbLock := rfl
@[simp] theorem State.emit_drawPhase (e : Event) : (s.emit e).drawPhase = s.drawPhase := rfl
@[simp] theorem State.emit_drawDeadline (e : Event) : (s.emit e).drawDeadline = s.drawDeadline := rfl
@[simp] theorem State.emit_drawnDeadline (e : Event) : (s.emit e).drawnDeadline = s.drawnDeadline := rfl
@[simp] theorem State.emit_keyPhase (e : Event) : (s.emit e).keyPhase = s.keyPhase := rfl
@[simp] theorem State.emit_keyCounter (e : Event) : (s.emit e).keyCounter = s.keyCounter := rfl
@[simp] theorem State.emit_keyLatched (e : Event) : (s.emit e).keyLatched = s.keyLatched := rfl
@[simp] theorem State.emit_trap (e : Event) : (s.emit e).trap = s.trap := rfl
@[simp] theorem State.emit_sched (e : Event) : (s.emit e).sched = s.sched := rfl
@[simp] theorem State.emit_tickTime (e : Event) : (s.emit e).tickTime = s.tickTime := rfl
@[simp] theorem State.emit_timers (e : Event) : (s.emit e).timers = s.timers := rfl
@[simp] theorem State.emit_tone (e : Event) : (s.emit e).tone = e.toneAfter s.tone := rfl
@[simp] theorem State.emit_out (e : Event) : (s.emit e).out = s.out ++ [(e, s.tickTime)] := rfl
@[simp] theorem State.emit_wake (e : Event) : (s.emit e).wake = s.wake := rfl
@[simp] theorem State.emit_now (e : Event) : (s.emit e).now = s.now := rfl
@[simp] theorem State.emit_composeBusy (e : Event) : (s.emit e).composeBusy = s.composeBusy := rfl
@[simp] theorem State.emit_copyPending (e : Event) : (s.emit e).copyPending = s.copyPending := rfl
@[simp] theorem State.emit_frame (e : Event) : (s.emit e).frame = s.frame := rfl
@[simp] theorem State.emit_hostQueue (e : Event) : (s.emit e).hostQueue = s.hostQueue := rfl
@[simp] theorem State.emit_reply (e : Event) : (s.emit e).reply = s.reply := rfl
@[simp] theorem State.emit_moves (e : Event) : (s.emit e).moves = s.moves := rfl
@[simp] theorem State.emit_moveDraws (e : Event) : (s.emit e).moveDraws = s.moveDraws := rfl
@[simp] theorem State.emit_randDraws (e : Event) : (s.emit e).randDraws = s.randDraws := rfl
@[simp] theorem State.emit_keyDraws (e : Event) : (s.emit e).keyDraws = s.keyDraws := rfl
@[simp] theorem State.emit_cycles (e : Event) : (s.emit e).cycles = s.cycles := rfl

/-! ### `randomDrawn` -/

@[simp] theorem State.randomDrawn_cfg : s.randomDrawn.cfg = s.cfg := rfl
@[simp] theorem State.randomDrawn_v : s.randomDrawn.v = s.v := rfl
@[simp] theorem State.randomDrawn_pc : s.randomDrawn.pc = s.pc := rfl
@[simp] theorem State.randomDrawn_sp : s.randomDrawn.sp = s.sp := rfl
@[simp] theorem State.randomDrawn_i : s.randomDrawn.i = s.i := rfl
@[simp] theorem State.randomDrawn_dt : s.randomDrawn.dt = s.dt := rfl
@[simp] theorem State.randomDrawn_st : s.randomDrawn.st = s.st := rfl
@[simp] theorem State.randomDrawn_jumpFlag : s.randomDrawn.jumpFlag = s.jumpFlag := rfl
@[simp] theorem State.randomDrawn_stack : s.randomDrawn.stack = s.stack := rfl
@[simp] theorem State.randomDrawn_mem : s.randomDrawn.mem = s.mem := rfl
@[simp] theorem State.randomDrawn_fb : s.randomDrawn.fb = s.fb := rfl
@[simp] theorem State.randomDrawn_fbLock : s.randomDrawn.fbLock = s.fbLock := rfl
@[simp] theorem State.randomDrawn_drawPhase : s.randomDrawn.drawPhase = s.drawPhase := rfl
@[simp] theorem State.randomDrawn_drawDeadline : s.randomDrawn.drawDeadline = s.drawDeadline := rfl
@[simp] theorem State.randomDrawn_drawnDeadline : s.randomDrawn.drawnDeadline = s.drawnDeadline := rfl
@[simp] theorem State.randomDrawn_keyPhase : s.randomDrawn.keyPhase = s.keyPhase := rfl
@[simp] theorem State.randomDrawn_keyCounter : s.randomDrawn.keyCounter = s.keyCounter := rfl
@[simp] theorem State.randomDrawn_keyLatched : s.randomDrawn.keyLatched = s.keyLatched := rfl
@[simp] theorem State.randomDrawn_trap : s.randomDrawn.trap = s.trap := rfl
@[simp] theorem State.randomDrawn_sched : s.randomDrawn.sched = s.sched := rfl
@[simp] theorem State.randomDrawn_tickTime : s.randomDrawn.tickTime = s.tickTime := rfl
@[simp] theorem State.randomDrawn_timers : s.randomDrawn.timers = s.timers := rfl
@[simp] theorem State.randomDrawn_tone : s.randomDrawn.tone = s.tone := rfl
@[simp] theorem State.randomDrawn_out : s.randomDrawn.out = s.out := rfl
@[simp] theorem State.randomDrawn_wake : s.randomDrawn.wake = s.wake := rfl
@[simp] theorem State.randomDrawn_now : s.randomDrawn.now = s.now := rfl
@[simp] theorem State.randomDrawn_composeBusy : s.randomDrawn.composeBusy = s.composeBusy := rfl
@[simp] theorem State.randomDrawn_copyPending : s.randomDrawn.copyPending = s.copyPending := rfl
@[simp] theorem State.randomDrawn_frame : s.randomDrawn.frame = s.frame := rfl
@[simp] theorem State.randomDrawn_hostQueue : s.randomDrawn.hostQueue = s.hostQueue := rfl
@[simp] theorem State.randomDrawn_reply : s.randomDrawn.reply = s.reply := rfl
@[simp] theorem State.randomDrawn_moves : s.randomDrawn.moves = s.moves := rfl
@[simp] theorem State.randomDrawn_moveDraws : s.randomDrawn.moveDraws = s.moveDraws := rfl
@[simp] theorem State.randomDrawn_randDraws : s.randomDrawn.randDraws = s.randDraws + 1 := rfl
@[simp] theorem State.randomDrawn_keyDraws : s.randomDrawn.keyDraws = s.keyDraws := rfl
@[simp] theorem State.randomDrawn_cycles : s.randomDrawn.cycles = s.cycles := rfl

/-! ### `keysAsked` -/

@[simp] theorem State.keysAsked_cfg : s.keysAsked.cfg = s.cfg := rfl
@[simp] theorem State.keysAsked_v : s.keysAsked.v = s.v := rfl
@[simp] theorem State.keysAsked_pc : s.keysAsked.pc = s.pc := rfl
@[simp] theorem State.keysAsked_sp : s.keysAsked.sp = s.sp := rfl
@[simp] theorem State.keysAsked_i : s.keysAsked.i = s.i := rfl
@[simp] theorem State.keysAsked_dt : s.keysAsked.dt = s.dt := rfl
@[simp] theorem State.keysAsked_st : s.keysAsked.st = s.st := rfl
@[simp] theorem State.keysAsked_jumpFlag : s.keysAsked.jumpFlag = s.jumpFlag := rfl
@[simp] theorem State.keysAsked_stack : s.keysAsked.stack = s.stack := rfl
@[simp] theorem State.keysAsked_mem : s.keysAsked.mem = s.mem := rfl
@[simp] theorem State.keysAsked_fb : s.keysAsked.fb = s.fb := rfl
@[simp] theorem State.keysAsked_fbLock : s.keysAsked.fbLock = s.fbLock := rfl
@[simp] theorem State.keysAsked_drawPhase : s.keysAsked.drawPhase = s.drawPhase := rfl
@[simp] theorem State.keysAsked_drawDeadline : s.keysAsked.drawDeadline = s.drawDeadline := rfl
@[simp] theorem State.keysAsked_drawnDeadline : s.keysAsked.drawnDeadline = s.drawnDeadline := rfl
@[simp] theorem State.keysAsked_keyPhase : s.keysAsked.keyPhase = s.keyPhase := rfl
@[simp] theorem State.keysAsked_keyCounter : s.keysAsked.keyCounter = s.keyCounter := rfl
@[simp] theorem State.keysAsked_keyLatched : s.keysAsked.keyLatched = s.keyLatched := rfl
@[simp] theorem State.keysAsked_trap : s.keysAsked.trap = s.trap := rfl
@[simp] theorem State.keysAsked_sched : s.keysAsked.sched = s.sched := rfl
@[simp] theorem State.keysAsked_tickTime : s.keysAsked.tickTime = s.tickTime := rfl
@[simp] theorem State.keysAsked_timers : s.keysAsked.timers = s.timers := rfl
@[simp] theorem State.keysAsked_tone : s.keysAsked.tone = s.tone := rfl
@[simp] theorem State.keysAsked_out : s.keysAsked.out = s.out := rfl
@[simp] theorem State.keysAsked_wake : s.keysAsked.wake = s.wake := rfl
@[simp] theorem State.keysAsked_now : s.keysAsked.now = s.now := rfl
@[simp] theorem State.keysAsked_composeBusy : s.keysAsked.composeBusy = s.composeBusy := rfl
@[simp] theorem State.keysAsked_copyPending : s.keysAsked.copyPending = s.copyPending := rfl
@[simp] theorem State.keysAsked_frame : s.keysAsked.frame = s.frame := rfl
@[simp] theorem State.keysAsked_hostQueue : s.keysAsked.hostQueue = s.hostQueue := rfl
@[simp] theorem State.keysAsked_reply : s.keysAsked.reply = s.reply := rfl
@[simp] theorem State.keysAsked_moves : s.keysAsked.moves = s.moves := rfl
@[simp] theorem State.keysAsked_moveDraws : s.keysAsked.moveDraws = s.moveDraws := rfl
@[simp] theorem State.keysAsked_randDraws : s.keysAsked.randDraws = s.randDraws := rfl
@[simp] theorem State.keysAsked_keyDraws : s.keysAsked.keyDraws = s.keyDraws + 1 := rfl
@[simp] theorem State.keysAsked_cycles : s.keysAsked.cycles = s.cycles := rfl

/-! ### `setKeyCounter` -/

@[simp] theorem State.setKeyCounter_cfg (n : Nat) : (s.setKeyCounter n).cfg = s.cfg := rfl
@[simp] theorem State.setKeyCounter_v (n : Nat) : (s.setKeyCounter n).v = s.v := rfl
@[simp] theorem State.setKeyCounter_pc (n : Nat) : (s.setKeyCounter n).pc = s.pc := rfl
@[simp] theorem State.setKeyCounter_sp (n : Nat) : (s.setKeyCounter n).sp = s.sp := rfl
@[simp] theorem State.setKeyCounter_i (n : Nat) : (s.setKeyCounter n).i = s.i := rfl
@[simp] theorem State.setKeyCounter_dt (n : Nat) : (s.setKeyCounter n).dt = s.dt := rfl
@[simp] theorem State.setKeyCounter_st (n : Nat) : (s.setKeyCounter n).st = s.st := rfl
@[simp] theorem State.setKeyCounter_jumpFlag (n : Nat) : (s.setKeyCounter n).jumpFlag = s.jumpFlag := rfl
@[simp] theorem State.setKeyCounter_stack (n : Nat) : (s.setKeyCounter n).stack = s.stack := rfl
@[simp] theorem State.setKeyCounter_mem (n : Nat) : (s.setKeyCounter n).mem = s.mem := rfl
@[simp] theorem State.setKeyCounter_fb (n : Nat) : (s.setKeyCounter n).fb = s.fb := rfl
@[simp] theorem State.setKeyCounter_fbLock (n : Nat) : (s.setKeyCounter n).fbLock = s.fbLock := rfl
@[simp] theorem State.setKeyCounter_drawPhase (n : Nat) : (s.setKeyCounter n).drawPhase = s.drawPhase := rfl
@[simp] theorem State.setKeyCounter_drawDeadline (n : Nat) : (s.setKeyCounter n).drawDeadline = s.drawDeadline := rfl
@[simp] theorem State.setKeyCounter_drawnDeadline (n : Nat) : (s.setKeyCounter n).drawnDeadline = s.drawnDeadline := rfl
@[simp] theorem State.setKeyCounter_keyPhase (n : Nat) : (s.setKeyCounter n).keyPhase = s.keyPhase := rfl
@[simp] theorem State.setKeyCounter_keyCounter (n : Nat) : (s.setKeyCounter n).keyCounter = n := rfl
@[simp] theorem State.setKeyCounter_keyLatched (n : Nat) : (s.setKeyCounter n).keyLatched = s.keyLatched := rfl
@[simp] theorem State.setKeyCounter_trap (n : Nat) : (s.setKeyCounter n).trap = s.trap := rfl
@[simp] theorem State.setKeyCounter_sched (n : Nat) : (s.setKeyCounter n).sched = s.sched := rfl
@[simp] theorem State.setKeyCounter_tickTime (n : Nat) : (s.setKeyCounter n).tickTime = s.tickTime := rfl
@[simp] theorem State.setKeyCounter_timers (n : Nat) : (s.setKeyCounter n).timers = s.timers := rfl
@[simp] theorem State.setKeyCounter_tone (n : Nat) : (s.setKeyCounter n).tone = s.tone := rfl
@[simp] theorem State.setKeyCounter_out (n : Nat) : (s.setKeyCounter n).out = s.out := rfl
@[simp] theorem State.setKeyCounter_wake (n : Nat) : (s.setKeyCounter n).wake = s.wake := rfl
@[simp] theorem State.setKeyCounter_now (n : Nat) : (s.setKeyCounter n).now = s.now := rfl
@[simp] theorem State.setKeyCounter_composeBusy (n : Nat) : (s.setKeyCounter n).composeBusy = s.composeBusy := rfl
@[simp] theorem State.setKeyCounter_copyPending (n : Nat) : (s.setKeyCounter n).copyPending = s.copyPending := rfl
@[simp] theorem State.setKeyCounter_frame (n : Nat) : (s.setKeyCounter n).frame = s.frame := rfl
@[simp] theorem State.setKeyCounter_hostQueue (n : Nat) : (s.setKeyCounter n).hostQueue = s.hostQueue := rfl
@[simp] theorem State.setKeyCounter_reply (n : Nat) : (s.setKeyCounter n).reply = s.reply := rfl
@[simp] theorem State.setKeyCounter_moves (n : Nat) : (s.setKeyCounter n).moves = s.moves := rfl
@[simp] theorem State.setKeyCounter_moveDraws (n : Nat) : (s.setKeyCounter n).moveDraws = s.moveDraws := rfl
@[simp] theorem State.setKeyCounter_randDraws (n : Nat) : (s.setKeyCounter n).randDraws = s.randDraws := rfl
@[simp] theorem State.setKeyCounter_keyDraws (n : Nat) : (s.setKeyCounter n).keyDraws = s.keyDraws := rfl
@[simp] theorem State.setKeyCounter_cycles (n : Nat) : (s.setKeyCounter n).cycles = s.cycles := rfl

/-! ### `setKeyPhase` -/

@[simp] theorem State.setKeyPhase_cfg (p : KeyPhase) : (s.setKeyPhase p).cfg = s.cfg := rfl
@[simp] theorem State.setKeyPhase_v (p : KeyPhase) : (s.setKeyPhase p).v = s.v := rfl
@[simp] theorem State.setKeyPhase_pc (p : KeyPhase) : (s.setKeyPhase p).pc = s.pc := rfl
@[simp] theorem State.setKeyPhase_sp (p : KeyPhase) : (s.setKeyPhase p).sp = s.sp := rfl
@[simp] theorem State.setKeyPhase_i (p : KeyPhase) : (s.setKeyPhase p).i = s.i := rfl
@[simp] theorem State.setKeyPhase_dt (p : KeyPhase) : (s.setKeyPhase p).dt = s.dt := rfl
@[simp] theorem State.setKeyPhase_st (p : KeyPhase) : (s.setKeyPhase p).st = s.st := rfl
@[simp] theorem State.setKeyPhase_jumpFlag (p : KeyPhase) : (s.setKeyPhase p).jumpFlag = s.jumpFlag := rfl
@[simp] theorem State.setKeyPhase_stack (p : KeyPhase) : (s.setKeyPhase p).stack = s.stack := rfl
@[simp] theorem State.setKeyPhase_mem (p : KeyPhase) : (s.setKeyPhase p).mem = s.mem := rfl
@[simp] theorem State.setKeyPhase_fb (p : KeyPhase) : (s.setKeyPhase p).fb = s.fb := rfl
@[simp] theorem State.setKeyPhase_fbLock (p : KeyPhase) : (s.setKeyPhase p).fbLock = s.fbLock := rfl
@[simp] theorem State.setKeyPhase_drawPhase (p : KeyPhase) : (s.setKeyPhase p).drawPhase = s.drawPhase := rfl
@[simp] theorem State.setKeyPhase_drawDeadline (p : KeyPhase) : (s.setKeyPhase p).drawDeadline = s.drawDeadline := rfl
@[simp] theorem State.setKeyPhase_drawnDeadline (p : KeyPhase) : (s.setKeyPhase p).drawnDeadline = s.drawnDeadline := rfl
@[simp] theorem State.setKeyPhase_keyPhase (p : KeyPhase) : (s.setKeyPhase p).keyPhase = p := rfl
@[simp] theorem State.setKeyPhase_keyCounter (p : KeyPhase) : (s.setKeyPhase p).keyCounter = s.keyCounter := rfl
@[simp] theorem State.setKeyPhase_keyLatched (p : KeyPhase) : (s.setKeyPhase p).keyLatched = s.keyLatched := rfl
@[simp] theorem State.setKeyPhase_trap (p : KeyPhase) : (s.setKeyPhase p).trap = s.trap := rfl
@[simp] theorem State.setKeyPhase_sched (p : KeyPhase) : (s.setKeyPhase p).sched = s.sched := rfl
@[simp] theorem State.setKeyPhase_tickTime (p : KeyPhase) : (s.setKeyPhase p).tickTime = s.tickTime := rfl
@[simp] theorem State.setKeyPhase_timers (p : KeyPhase) : (s.setKeyPhase p).timers = s.timers := rfl
@[simp] theorem State.setKeyPhase_tone (p : KeyPhase) : (s.setKeyPhase p).tone = s.tone := rfl
@[simp] theorem State.setKeyPhase_out (p : KeyPhase) : (s.setKeyPhase p).out = s.out := rfl
@[simp] theorem State.setKeyPhase_wake (p : KeyPhase) : (s.setKeyPhase p).wake = s.wake := rfl
@[simp] theorem State.setKeyPhase_now (p : KeyPhase) : (s.setKeyPhase p).now = s.now := rfl
@[simp] theorem State.setKeyPhase_composeBusy (p : KeyPhase) : (s.setKeyPhase p).composeBusy = s.composeBusy := rfl
@[simp] theorem State.setKeyPhase_copyPending (p : KeyPhase) : (s.setKeyPhase p).copyPending = s.copyPending := rfl
@[simp] theorem State.setKeyPhase_frame (p : KeyPhase) : (s.setKeyPhase p).frame = s.frame := rfl
@[simp] theorem State.setKeyPhase_hostQueue (p : KeyPhase) : (s.setKeyPhase p).hostQueue = s.hostQueue := rfl
@[simp] theorem State.setKeyPhase_reply (p : KeyPhase) : (s.setKeyPhase p).reply = s.reply := rfl
@[simp] theorem State.setKeyPhase_moves (p : KeyPhase) : (s.setKeyPhase p).moves = s.moves := rfl
@[simp] theorem State.setKeyPhase_moveDraws (p : KeyPhase) : (s.setKeyPhase p).moveDraws = s.moveDraws := rfl
@[simp] theorem State.setKeyPhase_randDraws (p : KeyPhase) : (s.setKeyPhase p).randDraws = s.randDraws := rfl
@[simp] theorem State.setKeyPhase_keyDraws (p : KeyPhase) : (s.setKeyPhase p).keyDraws = s.keyDraws := rfl
@[simp] theorem State.setKeyPhase_cycles (p : KeyPhase) : (s.setKeyPhase p).cycles = s.cycles := rfl

/-! ### `latchKey` -/

@[simp] theorem State.latchKey_cfg (k : Nibble) : (s.latchKey k).cfg = s.cfg := rfl
@[simp] theorem State.latchKey_v (k : Nibble) : (s.latchKey k).v = s.v := rfl
@[simp] theorem State.latchKey_pc (k : Nibble) : (s.latchKey k).pc = s.pc := rfl
@[simp] theorem State.latchKey_sp (k : Nibble) : (s.latchKey k).sp = s.sp := rfl
@[simp] theorem State.latchKey_i (k : Nibble) : (s.latchKey k).i = s.i := rfl
@[simp] theorem State.latchKey_dt (k : Nibble) : (s.latchKey k).dt = s.dt := rfl
@[simp] theorem State.latchKey_st (k : Nibble) : (s.latchKey k).st = s.st := rfl
@[simp] theorem State.latchKey_jumpFlag (k : Nibble) : (s.latchKey k).jumpFlag = s.jumpFlag := rfl
@[simp] theorem State.latchKey_stack (k : Nibble) : (s.latchKey k).stack = s.stack := rfl
@[simp] theorem State.latchKey_mem (k : Nibble) : (s.latchKey k).mem = s.mem := rfl
@[simp] theorem State.latchKey_fb (k : Nibble) : (s.latchKey k).fb = s.fb := rfl
@[simp] theorem State.latchKey_fbLock (k : Nibble) : (s.latchKey k).fbLock = s.fbLock := rfl
@[simp] theorem State.latchKey_drawPhase (k : Nibble) : (s.latchKey k).drawPhase = s.drawPhase := rfl
@[simp] theorem State.latchKey_drawDeadline (k : Nibble) : (s.latchKey k).drawDeadline = s.drawDeadline := rfl
@[simp] theorem State.latchKey_drawnDeadline (k : Nibble) : (s.latchKey k).drawnDeadline = s.drawnDeadline := rfl
@[simp] theorem State.latchKey_keyPhase (k : Nibble) : (s.latchKey k).keyPhase = s.keyPhase := rfl
@[simp] theorem State.latchKey_keyCounter (k : Nibble) : (s.latchKey k).keyCounter = s.keyCounter := rfl
@[simp] theorem State.latchKey_keyLatched (k : Nibble) : (s.latchKey k).keyLatched = k := rfl
@[simp] theorem State.latchKey_trap (k : Nibble) : (s.latchKey k).trap = s.trap := rfl
@[simp] theorem State.latchKey_sched (k : Nibble) : (s.latchKey k).sched = s.sched := rfl
@[simp] theorem State.latchKey_tickTime (k : Nibble) : (s.latchKey k).tickTime = s.tickTime := rfl
@[simp] theorem State.latchKey_timers (k : Nibble) : (s.latchKey k).timers = s.timers := rfl
@[simp] theorem State.latchKey_tone (k : Nibble) : (s.latchKey k).tone = s.tone := rfl
@[simp] theorem State.latchKey_out (k : Nibble) : (s.latchKey k).out = s.out := rfl
@[simp] theorem State.latchKey_wake (k : Nibble) : (s.latchKey k).wake = s.wake := rfl
@[simp] theorem State.latchKey_now (k : Nibble) : (s.latchKey k).now = s.now := rfl
@[simp] theorem State.latchKey_composeBusy (k : Nibble) : (s.latchKey k).composeBusy = s.composeBusy := rfl
@[simp] theorem State.latchKey_copyPending (k : Nibble) : (s.latchKey k).copyPending = s.copyPending := rfl
@[simp] theorem State.latchKey_frame (k : Nibble) : (s.latchKey k).frame = s.frame := rfl
@[simp] theorem State.latchKey_hostQueue (k : Nibble) : (s.latchKey k).hostQueue = s.hostQueue := rfl
@[simp] theorem State.latchKey_reply (k : Nibble) : (s.latchKey k).reply = s.reply := rfl
@[simp] theorem State.latchKey_moves (k : Nibble) : (s.latchKey k).moves = s.moves := rfl
@[simp] theorem State.latchKey_moveDraws (k : Nibble) : (s.latchKey k).moveDraws = s.moveDraws := rfl
@[simp] theorem State.latchKey_randDraws (k : Nibble) : (s.latchKey k).randDraws = s.randDraws := rfl
@[simp] theorem State.latchKey_keyDraws (k : Nibble) : (s.latchKey k).keyDraws = s.keyDraws := rfl
@[simp] theorem State.latchKey_cycles (k : Nibble) : (s.latchKey k).cycles = s.cycles := rfl

/-! ### `stopTimer` -/

@[simp] theorem State.stopTimer_cfg (h : Nat) : (s.stopTimer h).cfg = s.cfg := rfl
@[simp] theorem State.stopTimer_v (h : Nat) : (s.stopTimer h).v = s.v := rfl
@[simp] theorem State.stopTimer_pc (h : Nat) : (s.stopTimer h).pc = s.pc := rfl
@[simp] theorem State.stopTimer_sp (h : Nat) : (s.stopTimer h).sp = s.sp := rfl
@[simp] theorem State.stopTimer_i (h : Nat) : (s.stopTimer h).i = s.i := rfl
@[simp] theorem State.stopTimer_dt (h : Nat) : (s.stopTimer h).dt = s.dt := rfl
@[simp] theorem State.stopTimer_st (h : Nat) : (s.stopTimer h).st = s.st := rfl
@[simp] theorem State.stopTimer_jumpFlag (h : Nat) : (s.stopTimer h).jumpFlag = s.jumpFlag := rfl
@[simp] theorem State.stopTimer_stack (h : Nat) : (s.stopTimer h).stack = s.stack := rfl
@[simp] theorem State.stopTimer_mem (h : Nat) : (s.stopTimer h).mem = s.mem := rfl
@[simp] theorem State.stopTimer_fb (h : Nat) : (s.stopTimer h).fb = s.fb := rfl
@[simp] theorem State.stopTimer_fbLock (h : Nat) : (s.stopTimer h).fbLock = s.fbLock := rfl
@[simp] theorem State.stopTimer_drawPhase (h : Nat) : (s.stopTimer h).drawPhase = s.drawPhase := rfl
@[simp] theorem State.stopTimer_drawDeadline (h : Nat) : (s.stopTimer h).drawDeadline = s.drawDeadline := rfl
@[simp] theorem State.stopTimer_drawnDeadline (h : Nat) : (s.stopTimer h).drawnDeadline = s.drawnDeadline := rfl
@[simp] theorem State.stopTimer_keyPhase (h : Nat) : (s.stopTimer h).keyPhase = s.keyPhase := rfl
@[simp] theorem State.stopTimer_keyCounter (h : Nat) : (s.stopTimer h).keyCounter = s.keyCounter := rfl
@[simp] theorem State.stopTimer_keyLatched (h : Nat) : (s.stopTimer h).keyLatched = s.keyLatched := rfl
@[simp] theorem State.stopTimer_trap (h : Nat) : (s.stopTimer h).trap = s.trap := rfl
@[simp] theorem State.stopTimer_sched (h : Nat) : (s.stopTimer h).sched = s.sched := rfl
@[simp] theorem State.stopTimer_tickTime (h : Nat) : (s.stopTimer h).tickTime = s.tickTime := rfl
@[simp] theorem State.stopTimer_timers (h : Nat) : (s.stopTimer h).timers = s.timers.modify h fun t => { t with active := false } := rfl
@[simp] theorem State.stopTimer_tone (h : Nat) : (s.stopTimer h).tone = s.tone := rfl
@[simp] theorem State.stopTimer_out (h : Nat) : (s.stopTimer h).out = s.out := rfl
@[simp] theorem State.stopTimer_wake (h : Nat) : (s.stopTimer h).wake = s.wake := rfl
@[simp] theorem State.stopTimer_now (h : Nat) : (s.stopTimer h).now = s.now := rfl
@[simp] theorem State.stopTimer_composeBusy (h : Nat) : (s.stopTimer h).composeBusy = s.composeBusy := rfl
@[simp] theorem State.stopTimer_copyPending (h : Nat) : (s.stopTimer h).copyPending = s.copyPending := rfl
@[simp] theorem State.stopTimer_frame (h : Nat) : (s.stopTimer h).frame = s.frame := rfl
@[simp] theorem State.stopTimer_hostQueue (h : Nat) : (s.stopTimer h).hostQueue = s.hostQueue := rfl
@[simp] theorem State.stopTimer_reply (h : Nat) : (s.stopTimer h).reply = s.reply := rfl
@[simp] theorem State.stopTimer_moves (h : Nat) : (s.stopTimer h).moves = s.moves := rfl
@[simp] theorem State.stopTimer_moveDraws (h : Nat) : (s.stopTimer h).moveDraws = s.moveDraws := rfl
@[simp] theorem State.stopTimer_randDraws (h : Nat) : (s.stopTimer h).randDraws = s.randDraws := rfl
@[simp] theorem State.stopTimer_keyDraws (h : Nat) : (s.stopTimer h).keyDraws = s.keyDraws := rfl
@[simp] theorem State.stopTimer_cycles (h : Nat) : (s.stopTimer h).cycles = s.cycles := rfl

/-! ### `refreshSignal` -/

@[simp] theorem State.refreshSignal_cfg : s.refreshSignal.cfg = s.cfg := rfl
@[simp] theorem State.refreshSignal_v : s.refreshSignal.v = s.v := rfl
@[simp] theorem State.refreshSignal_pc : s.refreshSignal.pc = s.pc := rfl
@[simp] theorem State.refreshSignal_sp : s.refreshSignal.sp = s.sp := rfl
@[simp] theorem State.refreshSignal_i : s.refreshSignal.i = s.i := rfl
@[simp] theorem State.refreshSignal_dt : s.refreshSignal.dt = s.dt := rfl
@[simp] theorem State.refreshSignal_st : s.refreshSignal.st = s.st := rfl
@[simp] theorem State.refreshSignal_jumpFlag : s.refreshSignal.jumpFlag = s.jumpFlag := rfl
@[simp] theorem State.refreshSignal_stack : s.refreshSignal.stack = s.stack := rfl
@[simp] theorem State.refreshSignal_mem : s.refreshSignal.mem = s.mem := rfl
@[simp] theorem State.refreshSignal_fb : s.refreshSignal.fb = s.fb := rfl
@[simp] theorem State.refreshSignal_fbLock : s.refreshSignal.fbLock = s.fbLock := rfl
@[simp] theorem State.refreshSignal_drawPhase : s.refreshSignal.drawPhase = s.drawPhase := rfl
@[simp] theorem State.refreshSignal_drawDeadline : s.refreshSignal.drawDeadline = s.drawDeadline := rfl
@[simp] theorem State.refreshSignal_drawnDeadline : s.refreshSignal.drawnDeadline = s.drawnDeadline := rfl
@[simp] theorem State.refreshSignal_keyPhase : s.refreshSignal.keyPhase = s.keyPhase := rfl
@[simp] theorem State.refreshSignal_keyCounter : s.refreshSignal.keyCounter = s.keyCounter := rfl
@[simp] theorem State.refreshSignal_keyLatched : s.refreshSignal.keyLatched = s.keyLatched := rfl
@[simp] theorem State.refreshSignal_trap : s.refreshSignal.trap = s.trap := rfl
@[simp] theorem State.refreshSignal_sched : s.refreshSignal.sched = s.sched := rfl
@[simp] theorem State.refreshSignal_tickTime : s.refreshSignal.tickTime = s.tickTime := rfl
@[simp] theorem State.refreshSignal_timers : s.refreshSignal.timers = s.timers := rfl
@[simp] theorem State.refreshSignal_tone : s.refreshSignal.tone = s.tone := rfl
@[simp] theorem State.refreshSignal_out : s.refreshSignal.out = s.out ++ [(.refresh, s.tickTime)] := rfl
@[simp] theorem State.refreshSignal_wake : s.refreshSignal.wake = s.wake := rfl
@[simp] theorem State.refreshSignal_now : s.refreshSignal.now = s.now := rfl
@[simp] theorem State.refreshSignal_composeBusy : s.refreshSignal.composeBusy = true := rfl
@[simp] theorem State.refreshSignal_copyPending : s.refreshSignal.copyPending = true := rfl
@[simp] theorem State.refreshSignal_frame : s.refreshSignal.frame = s.frame := rfl
@[simp] theorem State.refreshSignal_hostQueue : s.refreshSignal.hostQueue = s.hostQueue := rfl
@[simp] theorem State.refreshSignal_reply : s.refreshSignal.reply = s.reply := rfl
@[simp] theorem State.refreshSignal_moves : s.refreshSignal.moves = s.moves := rfl
@[simp] theorem State.refreshSignal_moveDraws : s.refreshSignal.moveDraws = s.moveDraws := rfl
@[simp] theorem State.refreshSignal_randDraws : s.refreshSignal.randDraws = s.randDraws := rfl
@[simp] theorem State.refreshSignal_keyDraws : s.refreshSignal.keyDraws = s.keyDraws := rfl
@[simp] theorem State.refreshSignal_cycles : s.refreshSignal.cycles = s.cycles := rfl

/-! ### `afterFiring` -/

@[simp] theorem State.afterFiring_cfg (p : WakePos) : (s.afterFiring p).cfg = s.cfg := rfl
@[simp] theorem State.afterFiring_v (p : WakePos) : (s.afterFiring p).v = s.v := rfl
@[simp] theorem State.afterFiring_pc (p : WakePos) : (s.afterFiring p).pc = s.pc := rfl
@[simp] theorem State.afterFiring_sp (p : WakePos) : (s.afterFiring p).sp = s.sp := rfl
@[simp] theorem State.afterFiring_i (p : WakePos) : (s.afterFiring p).i = s.i := rfl
@[simp] theorem State.afterFiring_dt (p : WakePos) : (s.afterFiring p).dt = s.dt := rfl
@[simp] theorem State.afterFiring_st (p : WakePos) : (s.afterFiring p).st = s.st := rfl
@[simp] theorem State.afterFiring_jumpFlag (p : WakePos) : (s.afterFiring p).jumpFlag = s.jumpFlag := rfl
@[simp] theorem State.afterFiring_stack (p : WakePos) : (s.afterFiring p).stack = s.stack := rfl
@[simp] theorem State.afterFiring_mem (p : WakePos) : (s.afterFiring p).mem = s.mem := rfl
@[simp] theorem State.afterFiring_fb (p : WakePos) : (s.afterFiring p).fb = s.fb := rfl
@[simp] theorem State.afterFiring_fbLock (p : WakePos) : (s.afterFiring p).fbLock = s.fbLock := rfl
@[simp] theorem State.afterFiring_drawPhase (p : WakePos) : (s.afterFiring p).drawPhase = s.drawPhase := rfl
@[simp] theorem State.afterFiring_drawDeadline (p : WakePos) : (s.afterFiring p).drawDeadline = s.drawDeadline := rfl
@[simp] theorem State.afterFiring_drawnDeadline (p : WakePos) : (s.afterFiring p).drawnDeadline = s.drawnDeadline := rfl
@[simp] theorem State.afterFiring_keyPhase (p : WakePos) : (s.afterFiring p).keyPhase = s.keyPhase := rfl
@[simp] theorem State.afterFiring_keyCounter (p : WakePos) : (s.afterFiring p).keyCounter = s.keyCounter := rfl
@[simp] theorem State.afterFiring_keyLatched (p : WakePos) : (s.afterFiring p).keyLatched = s.keyLatched := rfl
@[simp] theorem State.afterFiring_trap (p : WakePos) : (s.afterFiring p).trap = s.trap := rfl
@[simp] theorem State.afterFiring_sched (p : WakePos) : (s.afterFiring p).sched = s.sched := rfl
@[simp] theorem State.afterFiring_tickTime (p : WakePos) : (s.afterFiring p).tickTime = s.tickTime := rfl
@[simp] theorem State.afterFiring_timers (p : WakePos) : (s.afterFiring p).timers = s.timers.modify p.handle fun t => t.reschedule s.tickTime := rfl
@[simp] theorem State.afterFiring_tone (p : WakePos) : (s.afterFiring p).tone = s.tone := rfl
@[simp] theorem State.afterFiring_out (p : WakePos) : (s.afterFiring p).out = s.out := rfl
@[simp] theorem State.afterFiring_wake (p : WakePos) : (s.afterFiring p).wake = some ⟨p.handle, p.count + 1⟩ := rfl
@[simp] theorem State.afterFiring_now (p : WakePos) : (s.afterFiring p).now = s.now := rfl
@[simp] theorem State.afterFiring_composeBusy (p : WakePos) : (s.afterFiring p).composeBusy = s.composeBusy := rfl
@[simp] theorem State.afterFiring_copyPending (p : WakePos) : (s.afterFiring p).copyPending = s.copyPending := rfl
@[simp] theorem State.afterFiring_frame (p : WakePos) : (s.afterFiring p).frame = s.frame := rfl
@[simp] theorem State.afterFiring_hostQueue (p : WakePos) : (s.afterFiring p).hostQueue = s.hostQueue := rfl
@[simp] theorem State.afterFiring_reply (p : WakePos) : (s.afterFiring p).reply = s.reply := rfl
@[simp] theorem State.afterFiring_moves (p : WakePos) : (s.afterFiring p).moves = s.moves := rfl
@[simp] theorem State.afterFiring_moveDraws (p : WakePos) : (s.afterFiring p).moveDraws = s.moveDraws := rfl
@[simp] theorem State.afterFiring_randDraws (p : WakePos) : (s.afterFiring p).randDraws = s.randDraws := rfl
@[simp] theorem State.afterFiring_keyDraws (p : WakePos) : (s.afterFiring p).keyDraws = s.keyDraws := rfl
@[simp] theorem State.afterFiring_cycles (p : WakePos) : (s.afterFiring p).cycles = s.cycles := rfl

/-! ### `nextTimer` -/

@[simp] theorem State.nextTimer_cfg (p : WakePos) : (s.nextTimer p).cfg = s.cfg := rfl
@[simp] theorem State.nextTimer_v (p : WakePos) : (s.nextTimer p).v = s.v := rfl
@[simp] theorem State.nextTimer_pc (p : WakePos) : (s.nextTimer p).pc = s.pc := rfl
@[simp] theorem State.nextTimer_sp (p : WakePos) : (s.nextTimer p).sp = s.sp := rfl
@[simp] theorem State.nextTimer_i (p : WakePos) : (s.nextTimer p).i = s.i := rfl
@[simp] theorem State.nextTimer_dt (p : WakePos) : (s.nextTimer p).dt = s.dt := rfl
@[simp] theorem State.nextTimer_st (p : WakePos) : (s.nextTimer p).st = s.st := rfl
@[simp] theorem State.nextTimer_jumpFlag (p : WakePos) : (s.nextTimer p).jumpFlag = s.jumpFlag := rfl
@[simp] theorem State.nextTimer_stack (p : WakePos) : (s.nextTimer p).stack = s.stack := rfl
@[simp] theorem State.nextTimer_mem (p : WakePos) : (s.nextTimer p).mem = s.mem := rfl
@[simp] theorem State.nextTimer_fb (p : WakePos) : (s.nextTimer p).fb = s.fb := rfl
@[simp] theorem State.nextTimer_fbLock (p : WakePos) : (s.nextTimer p).fbLock = s.fbLock := rfl
@[simp] theorem State.nextTimer_drawPhase (p : WakePos) : (s.nextTimer p).drawPhase = s.drawPhase := rfl
@[simp] theorem State.nextTimer_drawDeadline (p : WakePos) : (s.nextTimer p).drawDeadline = s.drawDeadline := rfl
@[simp] theorem State.nextTimer_drawnDeadline (p : WakePos) : (s.nextTimer p).drawnDeadline = s.drawnDeadline := rfl
@[simp] theorem State.nextTimer_keyPhase (p : WakePos) : (s.nextTimer p).keyPhase = s.keyPhase := rfl
@[simp] theorem State.nextTimer_keyCounter (p : WakePos) : (s.nextTimer p).keyCounter = s.keyCounter := rfl
@[simp] theorem State.nextTimer_keyLatched (p : WakePos) : (s.nextTimer p).keyLatched = s.keyLatched := rfl
@[simp] theorem State.nextTimer_trap (p : WakePos) : (s.nextTimer p).trap = s.trap := rfl
@[simp] theorem State.nextTimer_sched (p : WakePos) : (s.nextTimer p).sched = s.sched := rfl
@[simp] theorem State.nextTimer_tickTime (p : WakePos) : (s.nextTimer p).tickTime = s.tickTime := rfl
@[simp] theorem State.nextTimer_timers (p : WakePos) : (s.nextTimer p).timers = s.timers := rfl
@[simp] theorem State.nextTimer_tone (p : WakePos) : (s.nextTimer p).tone = s.tone := rfl
@[simp] theorem State.nextTimer_out (p : WakePos) : (s.nextTimer p).out = s.out := rfl
@[simp] theorem State.nextTimer_wake (p : WakePos) : (s.nextTimer p).wake = some ⟨p.handle + 1, 0⟩ := rfl
@[simp] theorem State.nextTimer_now (p : WakePos) : (s.nextTimer p).now = s.now := rfl
@[simp] theorem State.nextTimer_composeBusy (p : WakePos) : (s.nextTimer p).composeBusy = s.composeBusy := rfl
@[simp] theorem State.nextTimer_copyPending (p : WakePos) : (s.nextTimer p).copyPending = s.copyPending := rfl
@[simp] theorem State.nextTimer_frame (p : WakePos) : (s.nextTimer p).frame = s.frame := rfl
@[simp] theorem State.nextTimer_hostQueue (p : WakePos) : (s.nextTimer p).hostQueue = s.hostQueue := rfl
@[simp] theorem State.nextTimer_reply (p : WakePos) : (s.nextTimer p).reply = s.reply := rfl
@[simp] theorem State.nextTimer_moves (p : WakePos) : (s.nextTimer p).moves = s.moves := rfl
@[simp] theorem State.nextTimer_moveDraws (p : WakePos) : (s.nextTimer p).moveDraws = s.moveDraws := rfl
@[simp] theorem State.nextTimer_randDraws (p : WakePos) : (s.nextTimer p).randDraws = s.randDraws := rfl
@[simp] theorem State.nextTimer_keyDraws (p : WakePos) : (s.nextTimer p).keyDraws = s.keyDraws := rfl
@[simp] theorem State.nextTimer_cycles (p : WakePos) : (s.nextTimer p).cycles = s.cycles := rfl

/-! ### `endWake` -/

@[simp] theorem State.endWake_cfg : s.endWake.cfg = s.cfg := rfl
@[simp] theorem State.endWake_v : s.endWake.v = s.v := rfl
@[simp] theorem State.endWake_pc : s.endWake.pc = s.pc := rfl
@[simp] theorem State.endWake_sp : s.endWake.sp = s.sp := rfl
@[simp] theorem State.endWake_i : s.endWake.i = s.i := rfl
@[simp] theorem State.endWake_dt : s.endWake.dt = s.dt := rfl
@[simp] theorem State.endWake_st : s.endWake.st = s.st := rfl
@[simp] theorem State.endWake_jumpFlag : s.endWake.jumpFlag = s.jumpFlag := rfl
@[simp] theorem State.endWake_stack : s.endWake.stack = s.stack := rfl
@[simp] theorem State.endWake_mem : s.endWake.mem = s.mem := rfl
@[simp] theorem State.endWake_fb : s.endWake.fb = s.fb := rfl
@[simp] theorem State.endWake_fbLock : s.endWake.fbLock = s.fbLock := rfl
@[simp] theorem State.endWake_drawPhase : s.endWake.drawPhase = s.drawPhase := rfl
@[simp] theorem State.endWake_drawDeadline : s.endWake.drawDeadline = s.drawDeadline := rfl
@[simp] theorem State.endWake_drawnDeadline : s.endWake.drawnDeadline = s.drawnDeadline := rfl
@[simp] theorem State.endWake_keyPhase : s.endWake.keyPhase = s.keyPhase := rfl
@[simp] theorem State.endWake_keyCounter : s.endWake.keyCounter = s.keyCounter := rfl
@[simp] theorem State.endWake_keyLatched : s.endWake.keyLatched = s.keyLatched := rfl
@[simp] theorem State.endWake_trap : s.endWake.trap = s.trap := rfl
@[simp] theorem State.endWake_sched : s.endWake.sched = s.sched := rfl
@[simp] theorem State.endWake_tickTime : s.endWake.tickTime = s.tickTime := rfl
@[simp] theorem State.endWake_timers : s.endWake.timers = s.timers := rfl
@[simp] theorem State.endWake_tone : s.endWake.tone = s.tone := rfl
@[simp] theorem State.endWake_out : s.endWake.out = s.out := rfl
@[simp] theorem State.endWake_wake : s.endWake.wake = none := rfl
@[simp] theorem State.endWake_now : s.endWake.now = s.now := rfl
@[simp] theorem State.endWake_composeBusy : s.endWake.composeBusy = s.composeBusy := rfl
@[simp] theorem State.endWake_copyPending : s.endWake.copyPending = s.copyPending := rfl
@[simp] theorem State.endWake_frame : s.endWake.frame = s.frame := rfl
@[simp] theorem State.endWake_hostQueue : s.endWake.hostQueue = s.hostQueue := rfl
@[simp] theorem State.endWake_reply : s.endWake.reply = s.reply := rfl
@[simp] theorem State.endWake_moves : s.endWake.moves = s.moves := rfl
@[simp] theorem State.endWake_moveDraws : s.endWake.moveDraws = s.moveDraws := rfl
@[simp] theorem State.endWake_randDraws : s.endWake.randDraws = s.randDraws := rfl
@[simp] theorem State.endWake_keyDraws : s.endWake.keyDraws = s.keyDraws := rfl
@[simp] theorem State.endWake_cycles : s.endWake.cycles = s.cycles := rfl

/-! ### `answer` -/

@[simp] theorem State.answer_cfg (r : Reply) : (s.answer r).cfg = s.cfg := rfl
@[simp] theorem State.answer_v (r : Reply) : (s.answer r).v = s.v := rfl
@[simp] theorem State.answer_pc (r : Reply) : (s.answer r).pc = s.pc := rfl
@[simp] theorem State.answer_sp (r : Reply) : (s.answer r).sp = s.sp := rfl
@[simp] theorem State.answer_i (r : Reply) : (s.answer r).i = s.i := rfl
@[simp] theorem State.answer_dt (r : Reply) : (s.answer r).dt = s.dt := rfl
@[simp] theorem State.answer_st (r : Reply) : (s.answer r).st = s.st := rfl
@[simp] theorem State.answer_jumpFlag (r : Reply) : (s.answer r).jumpFlag = s.jumpFlag := rfl
@[simp] theorem State.answer_stack (r : Reply) : (s.answer r).stack = s.stack := rfl
@[simp] theorem State.answer_mem (r : Reply) : (s.answer r).mem = s.mem := rfl
@[simp] theorem State.answer_fb (r : Reply) : (s.answer r).fb = s.fb := rfl
@[simp] theorem State.answer_fbLock (r : Reply) : (s.answer r).fbLock = s.fbLock := rfl
@[simp] theorem State.answer_drawPhase (r : Reply) : (s.answer r).drawPhase = s.drawPhase := rfl
@[simp] theorem State.answer_drawDeadline (r : Reply) : (s.answer r).drawDeadline = s.drawDeadline := rfl
@[simp] theorem State.answer_drawnDeadline (r : Reply) : (s.answer r).drawnDeadline = s.drawnDeadline := rfl
@[simp] theorem State.answer_keyPhase (r : Reply) : (s.answer r).keyPhase = s.keyPhase := rfl
@[simp] theorem State.answer_keyCounter (r : Reply) : (s.answer r).keyCounter = s.keyCounter := rfl
@[simp] theorem State.answer_keyLatched (r : Reply) : (s.answer r).keyLatched = s.keyLatched := rfl
@[simp] theorem State.answer_trap (r : Reply) : (s.answer r).trap = s.trap := rfl
@[simp] theorem State.answer_sched (r : Reply) : (s.answer r).sched = s.sched := rfl
@[simp] theorem State.answer_tickTime (r : Reply) : (s.answer r).tickTime = s.tickTime := rfl
@[simp] theorem State.answer_timers (r : Reply) : (s.answer r).timers = s.timers := rfl
@[simp] theorem State.answer_tone (r : Reply) : (s.answer r).tone = s.tone := rfl
@[simp] theorem State.answer_out (r : Reply) : (s.answer r).out = s.out := rfl
@[simp] theorem State.answer_wake (r : Reply) : (s.answer r).wake = s.wake := rfl
@[simp] theorem State.answer_now (r : Reply) : (s.answer r).now = s.now := rfl
@[simp] theorem State.answer_composeBusy (r : Reply) : (s.answer r).composeBusy = s.composeBusy := rfl
@[simp] theorem State.answer_copyPending (r : Reply) : (s.answer r).copyPending = s.copyPending := rfl
@[simp] theorem State.answer_frame (r : Reply) : (s.answer r).frame = s.frame := rfl
@[simp] theorem State.answer_hostQueue (r : Reply) : (s.answer r).hostQueue = s.hostQueue := rfl
@[simp] theorem State.answer_reply (r : Reply) : (s.answer r).reply = some r := rfl
@[simp] theorem State.answer_moves (r : Reply) : (s.answer r).moves = s.moves := rfl
@[simp] theorem State.answer_moveDraws (r : Reply) : (s.answer r).moveDraws = s.moveDraws := rfl
@[simp] theorem State.answer_randDraws (r : Reply) : (s.answer r).randDraws = s.randDraws := rfl
@[simp] theorem State.answer_keyDraws (r : Reply) : (s.answer r).keyDraws = s.keyDraws := rfl
@[simp] theorem State.answer_cycles (r : Reply) : (s.answer r).cycles = s.cycles := rfl

/-! ### `skipIf`: what it leaves -/

@[simp] theorem State.skipIf_cfg (c : Bool) : (s.skipIf c).cfg = s.cfg := by cases c <;> rfl
@[simp] theorem State.skipIf_v (c : Bool) : (s.skipIf c).v = s.v := by cases c <;> rfl
@[simp] theorem State.skipIf_sp (c : Bool) : (s.skipIf c).sp = s.sp := by cases c <;> rfl
@[simp] theorem State.skipIf_i (c : Bool) : (s.skipIf c).i = s.i := by cases c <;> rfl
@[simp] theorem State.skipIf_dt (c : Bool) : (s.skipIf c).dt = s.dt := by cases c <;> rfl
@[simp] theorem State.skipIf_st (c : Bool) : (s.skipIf c).st = s.st := by cases c <;> rfl
@[simp] theorem State.skipIf_jumpFlag (c : Bool) : (s.skipIf c).jumpFlag = s.jumpFlag := by cases c <;> rfl
@[simp] theorem State.skipIf_stack (c : Bool) : (s.skipIf c).stack = s.stack := by cases c <;> rfl
@[simp] theorem State.skipIf_mem (c : Bool) : (s.skipIf c).mem = s.mem := by cases c <;> rfl
@[simp] theorem State.skipIf_fb (c : Bool) : (s.skipIf c).fb = s.fb := by cases c <;> rfl
@[simp] theorem State.skipIf_fbLock (c : Bool) : (s.skipIf c).fbLock = s.fbLock := by cases c <;> rfl
@[simp] theorem State.skipIf_drawPhase (c : Bool) : (s.skipIf c).drawPhase = s.drawPhase := by cases c <;> rfl
@[simp] theorem State.skipIf_drawDeadline (c : Bool) : (s.skipIf c).drawDeadline = s.drawDeadline := by cases c <;> rfl
@[simp] theorem State.skipIf_drawnDeadline (c : Bool) : (s.skipIf c).drawnDeadline = s.drawnDeadline := by cases c <;> rfl
@[simp] theorem State.skipIf_keyPhase (c : Bool) : (s.skipIf c).keyPhase = s.keyPhase := by cases c <;> rfl
@[simp] theorem State.skipIf_keyCounter (c : Bool) : (s.skipIf c).keyCounter = s.keyCounter := by cases c <;> rfl
@[simp] theorem State.skipIf_keyLatched (c : Bool) : (s.skipIf c).keyLatched = s.keyLatched := by cases c <;> rfl
@[simp] theorem State.skipIf_trap (c : Bool) : (s.skipIf c).trap = s.trap := by cases c <;> rfl
@[simp] theorem State.skipIf_sched (c : Bool) : (s.skipIf c).sched = s.sched := by cases c <;> rfl
@[simp] theorem State.skipIf_tickTime (c : Bool) : (s.skipIf c).tickTime = s.tickTime := by cases c <;> rfl
@[simp] theorem State.skipIf_timers (c : Bool) : (s.skipIf c).timers = s.timers := by cases c <;> rfl
@[simp] theorem State.skipIf_tone (c : Bool) : (s.skipIf c).tone = s.tone := by cases c <;> rfl
@[simp] theorem State.skipIf_out (c : Bool) : (s.skipIf c).out = s.out := by cases c <;> rfl
@[simp] theorem State.skipIf_wake (c : Bool) : (s.skipIf c).wake = s.wake := by cases c <;> rfl
@[simp] theorem State.skipIf_now (c : Bool) : (s.skipIf c).now = s.now := by cases c <;> rfl
@[simp] theorem State.skipIf_composeBusy (c : Bool) : (s.skipIf c).composeBusy = s.composeBusy := by cases c <;> rfl
@[simp] theorem State.skipIf_copyPending (c : Bool) : (s.skipIf c).copyPending = s.copyPending := by cases c <;> rfl
@[simp] theorem State.skipIf_frame (c : Bool) : (s.skipIf c).frame = s.frame := by cases c <;> rfl
@[simp] theorem State.skipIf_hostQueue (c : Bool) : (s.skipIf c).hostQueue = s.hostQueue := by cases c <;> rfl
@[simp] theorem State.skipIf_reply (c : Bool) : (s.skipIf c).reply = s.reply := by cases c <;> rfl
@[simp] theorem State.skipIf_moves (c : Bool) : (s.skipIf c).moves = s.moves := by cases c <;> rfl
@[simp] theorem State.skipIf_moveDraws (c : Bool) : (s.skipIf c).moveDraws = s.moveDraws := by cases c <;> rfl
@[simp] theorem State.skipIf_randDraws (c : Bool) : (s.skipIf c).randDraws = s.randDraws := by cases c <;> rfl
@[simp] theorem State.skipIf_keyDraws (c : Bool) : (s.skipIf c).keyDraws = s.keyDraws := by cases c <;> rfl
@[simp] theorem State.skipIf_cycles (c : Bool) : (s.skipIf c).cycles = s.cycles := by cases c <;> rfl

/-! ### `setFlag`: what it leaves -/

@[simp] theorem State.setFlag_cfg (c : Bool) : (s.setFlag c).cfg = s.cfg := rfl
@[simp] theorem State.setFlag_pc (c : Bool) : (s.setFlag c).pc = s.pc := rfl
@[simp] theorem State.setFlag_sp (c : Bool) : (s.setFlag c).sp = s.sp := rfl
@[simp] theorem State.setFlag_i (c : Bool) : (s.setFlag c).i = s.i := rfl
@[simp] theorem State.setFlag_dt (c : Bool) : (s.setFlag c).dt = s.dt := rfl
@[simp] theorem State.setFlag_st (c : Bool) : (s.setFlag c).st = s.st := rfl
@[simp] theorem State.setFlag_jumpFlag (c : Bool) : (s.setFlag c).jumpFlag = s.jumpFlag := rfl
@[simp] theorem State.setFlag_stack (c : Bool) : (s.setFlag c).stack = s.stack := rfl
@[simp] theorem State.setFlag_mem (c : Bool) : (s.setFlag c).mem = s.mem := rfl
@[simp] theorem State.setFlag_fb (c : Bool) : (s.setFlag c).fb = s.fb := rfl
@[simp] theorem State.setFlag_fbLock (c : Bool) : (s.setFlag c).fbLock = s.fbLock := rfl
@[simp] theorem State.setFlag_drawPhase (c : Bool) : (s.setFlag c).drawPhase = s.drawPhase := rfl
@[simp] theorem State.setFlag_drawDeadline (c : Bool) : (s.setFlag c).drawDeadline = s.drawDeadline := rfl
@[simp] theorem State.setFlag_drawnDeadline (c : Bool) : (s.setFlag c).drawnDeadline = s.drawnDeadline := rfl
@[simp] theorem State.setFlag_keyPhase (c : Bool) : (s.setFlag c).keyPhase = s.keyPhase := rfl
@[simp] theorem State.setFlag_keyCounter (c : Bool) : (s.setFlag c).keyCounter = s.keyCounter := rfl
@[simp] theorem State.setFlag_keyLatched (c : Bool) : (s.setFlag c).keyLatched = s.keyLatched := rfl
@[simp] theorem State.setFlag_trap (c : Bool) : (s.setFlag c).trap = s.trap := rfl
@[simp] theorem State.setFlag_sched (c : Bool) : (s.setFlag c).sched = s.sched := rfl
@[simp] theorem State.setFlag_tickTime (c : Bool) : (s.setFlag c).tickTime = s.tickTime := rfl
@[simp] theorem State.setFlag_timers (c : Bool) : (s.setFlag c).timers = s.timers := rfl
@[simp] theorem State.setFlag_tone (c : Bool) : (s.setFlag c).tone = s.tone := rfl
@[simp] theorem State.setFlag_out (c : Bool) : (s.setFlag c).out = s.out := rfl
@[simp] theorem State.setFlag_wake (c : Bool) : (s.setFlag c).wake = s.wake := rfl
@[simp] theorem State.setFlag_now (c : Bool) : (s.setFlag c).now = s.now := rfl
@[simp] theorem State.setFlag_composeBusy (c : Bool) : (s.setFlag c).composeBusy = s.composeBusy := rfl
@[simp] theorem State.setFlag_copyPending (c : Bool) : (s.setFlag c).copyPending = s.copyPending := rfl
@[simp] theorem State.setFlag_frame (c : Bool) : (s.setFlag c).frame = s.frame := rfl
@[simp] theorem State.setFlag_hostQueue (c : Bool) : (s.setFlag c).hostQueue = s.hostQueue := rfl
@[simp] theorem State.setFlag_reply (c : Bool) : (s.setFlag c).reply = s.reply := rfl
@[simp] theorem State.setFlag_moves (c : Bool) : (s.setFlag c).moves = s.moves := rfl
@[simp] theorem State.setFlag_moveDraws (c : Bool) : (s.setFlag c).moveDraws = s.moveDraws := rfl
@[simp] theorem State.setFlag_randDraws (c : Bool) : (s.setFlag c).randDraws = s.randDraws := rfl
@[simp] theorem State.setFlag_keyDraws (c : Bool) : (s.setFlag c).keyDraws = s.keyDraws := rfl
@[simp] theorem State.setFlag_cycles (c : Bool) : (s.setFlag c).cycles = s.cycles := rfl

/-! ### `setFlagThenReg`: what it leaves -/

@[simp] theorem State.setFlagThenReg_cfg (c : Bool) (x : Nibble) (b : Byte) : (s.setFlagThenReg c x b).cfg = s.cfg := rfl
@[simp] theorem State.setFlagThenReg_pc (c : Bool) (x : Nibble) (b : Byte) : (s.setFlagThenReg c x b).pc = s.pc := rfl
@[simp] theorem State.setFlagThenReg_sp (c : Bool) (x : Nibble) (b : Byte) : (s.setFlagThenReg c x b).sp = s.sp := rfl
@[simp] theorem State.setFlagThenReg_i (c : Bool) (x : Nibble) (b : Byte) : (s.setFlagThenReg c x b).i = s.i := rfl
@[simp] theorem State.setFlagThenReg_dt (c : Bool) (x : Nibble) (b : Byte) : (s.setFlagThenReg c x b).dt = s.dt := rfl
@[simp] theorem State.setFlagThenReg_st (c : Bool) (x : Nibble) (b : Byte) : (s.setFlagThenReg c x b).st = s.st := rfl
@[simp] theorem State.setFlagThenReg_jumpFlag (c : Bool) (x : Nibble) (b : Byte) : (s.setFlagThenReg c x b).jumpFlag = s.jumpFlag := rfl
@[simp] theorem State.setFlagThenReg_stack (c : Bool) (x : Nibble) (b : Byte) : (s.setFlagThenReg c x b).stack = s.stack := rfl
@[simp] theorem State.setFlagThenReg_mem (c : Bool) (x : Nibble) (b : Byte) : (s.setFlagThenReg c x b).mem = s.mem := rfl
@[simp] theorem State.setFlagThenReg_fb (c : Bool) (x : Nibble) (b : Byte) : (s.setFlagThenReg c x b).fb = s.fb := rfl
@[simp] theorem State.setFlagThenReg_fbLock (c : Bool) (x : Nibble) (b : Byte) : (s.setFlagThenReg c x b).fbLock = s.fbLock := rfl
@[simp] theorem State.setFlagThenReg_drawPhase (c : Bool) (x : Nibble) (b : Byte) : (s.setFlagThenReg c x b).drawPhase = s.drawPhase := rfl
@[simp] theorem State.setFlagThenReg_drawDeadline (c : Bool) (x : Nibble) (b : Byte) : (s.setFlagThenReg c x b).drawDeadline = s.drawDeadline := rfl
@[simp] theorem State.setFlagThenReg_drawnDeadline (c : Bool) (x : Nibble) (b : Byte) : (s.setFlagThenReg c x b).drawnDeadline = s.drawnDeadline := rfl
@[simp] theorem State.setFlagThenReg_keyPhase (c : Bool) (x : Nibble) (b : Byte) : (s.setFlagThenReg c x b).keyPhase = s.keyPhase := rfl
@[simp] theorem State.setFlagThenReg_keyCounter (c : Bool) (x : Nibble) (b : Byte) : (s.setFlagThenReg c x b).keyCounter = s.keyCounter := rfl
@[simp] theorem State.setFlagThenReg_keyLatched (c : Bool) (x : Nibble) (b : Byte) : (s.setFlagThenReg c x b).keyLatched = s.keyLatched := rfl
@[simp] theorem State.setFlagThenReg_trap (c : Bool) (x : Nibble) (b : Byte) : (s.setFlagThenReg c x b).trap = s.trap := rfl
@[simp] theorem State.setFlagThenReg_sched (c : Bool) (x : Nibble) (b : Byte) : (s.setFlagThenReg c x b).sched = s.sched := rfl
@[simp] theorem State.setFlagThenReg_tickTime (c : Bool) (x : Nibble) (b : Byte) : (s.setFlagThenReg c x b).tickTime = s.tickTime := rfl
@[simp] theorem State.setFlagThenReg_timers (c : Bool) (x : Nibble) (b : Byte) : (s.setFlagThenReg c x b).timers = s.timers := rfl
@[simp] theorem State.setFlagThenReg_tone (c : Bool) (x : Nibble) (b : Byte) : (s.setFlagThenReg c x b).tone = s.tone := rfl
@[simp] theorem State.setFlagThenReg_out (c : Bool) (x : Nibble) (b : Byte) : (s.setFlagThenReg c x b).out = s.out := rfl
@[simp] theorem State.setFlagThenReg_wake (c : Bool) (x : Nibble) (b : Byte) : (s.setFlagThenReg c x b).wake = s.wake := rfl
@[simp] theorem State.setFlagThenReg_now (c : Bool) (x : Nibble) (b : Byte) : (s.setFlagThenReg c x b).now = s.now := rfl
@[simp] theorem State.setFlagThenReg_composeBusy (c : Bool) (x : Nibble) (b : Byte) : (s.setFlagThenReg c x b).composeBusy = s.composeBusy := rfl
@[simp] theorem State.setFlagThenReg_copyPending (c : Bool) (x : Nibble) (b : Byte) : (s.setFlagThenReg c x b).copyPending = s.copyPending := rfl
@[simp] theorem State.setFlagThenReg_frame (c : Bool) (x : Nibble) (b : Byte) : (s.setFlagThenReg c x b).frame = s.frame := rfl
@[simp] theorem State.setFlagThenReg_hostQueue (c : Bool) (x : Nibble) (b : Byte) : (s.setFlagThenReg c x b).hostQueue = s.hostQueue := rfl
@[simp] theorem State.setFlagThenReg_reply (c : Bool) (x : Nibble) (b : Byte) : (s.setFlagThenReg c x b).reply = s.reply := rfl
@[simp] theorem State.setFlagThenReg_moves (c : Bool) (x : Nibble) (b : Byte) : (s.setFlagThenReg c x b).moves = s.moves := rfl
@[simp] theorem State.setFlagThenReg_moveDraws (c : Bool) (x : Nibble) (b : Byte) : (s.setFlagThenReg c x b).moveDraws = s.moveDraws := rfl
@[simp] theorem State.setFlagThenReg_randDraws (c : Bool) (x : Nibble) (b : Byte) : (s.setFlagThenReg c x b).randDraws = s.randDraws := rfl
@[simp] theorem State.setFlagThenReg_keyDraws (c : Bool) (x : Nibble) (b : Byte) : (s.setFlagThenReg c x b).keyDraws = s.keyDraws := rfl
@[simp] theorem State.setFlagThenReg_cycles (c : Bool) (x : Nibble) (b : Byte) : (s.setFlagThenReg c x b).cycles = s.cycles := rfl

/-! ### `emitToneChange`: what it leaves -/

@[simp] theorem State.emitToneChange_cfg (a b : Byte) : (s.emitToneChange a b).cfg = s.cfg := by unfold State.emitToneChange; split <;> [rfl; (split <;> rfl)]
@[simp] theorem State.emitToneChange_v (a b : Byte) : (s.emitToneChange a b).v = s.v := by unfold State.emitToneChange; split <;> [rfl; (split <;> rfl)]
@[simp] theorem State.emitToneChange_pc (a b : Byte) : (s.emitToneChange a b).pc = s.pc := by unfold State.emitToneChange; split <;> [rfl; (split <;> rfl)]
@[simp] theorem State.emitToneChange_sp (a b : Byte) : (s.emitToneChange a b).sp = s.sp := by unfold State.emitToneChange; split <;> [rfl; (split <;> rfl)]
@[simp] theorem State.emitToneChange_i (a b : Byte) : (s.emitToneChange a b).i = s.i := by unfold State.emitToneChange; split <;> [rfl; (split <;> rfl)]
@[simp] theorem State.emitToneChange_dt (a b : Byte) : (s.emitToneChange a b).dt = s.dt := by unfold State.emitToneChange; split <;> [rfl; (split <;> rfl)]
@[simp] theorem State.emitToneChange_st (a b : Byte) : (s.emitToneChange a b).st = s.st := by unfold State.emitToneChange; split <;> [rfl; (split <;> rfl)]
@[simp] theorem State.emitToneChange_jumpFlag (a b : Byte) : (s.emitToneChange a b).jumpFlag = s.jumpFlag := by unfold State.emitToneChange; split <;> [rfl; (split <;> rfl)]
@[simp] theorem State.emitToneChange_stack (a b : Byte) : (s.emitToneChange a b).stack = s.stack := by unfold State.emitToneChange; split <;> [rfl; (split <;> rfl)]
@[simp] theorem State.emitToneChange_mem (a b : Byte) : (s.emitToneChange a b).mem = s.mem := by unfold State.emitToneChange; split <;> [rfl; (split <;> rfl)]
@[simp] theorem State.emitToneChange_fb (a b : Byte) : (s.emitToneChange a b).fb = s.fb := by unfold State.emitToneChange; split <;> [rfl; (split <;> rfl)]
@[simp] theorem State.emitToneChange_fbLock (a b : Byte) : (s.emitToneChange a b).fbLock = s.fbLock := by unfold State.emitToneChange; split <;> [rfl; (split <;> rfl)]
@[simp] theorem State.emitToneChange_drawPhase (a b : Byte) : (s.emitToneChange a b).drawPhase = s.drawPhase := by unfold State.emitToneChange; split <;> [rfl; (split <;> rfl)]
@[simp] theorem State.emitToneChange_drawDeadline (a b : Byte) : (s.emitToneChange a b).drawDeadline = s.drawDeadline := by unfold State.emitToneChange; split <;> [rfl; (split <;> rfl)]
@[simp] theorem State.emitToneChange_drawnDeadline (a b : Byte) : (s.emitToneChange a b).drawnDeadline = s.drawnDeadline := by unfold State.emitToneChange; split <;> [rfl; (split <;> rfl)]
@[simp] theorem State.emitToneChange_keyPhase (a b : Byte) : (s.emitToneChange a b).keyPhase = s.keyPhase := by unfold State.emitToneChange; split <;> [rfl; (split <;> rfl)]
@[simp] theorem State.emitToneChange_keyCounter (a b : Byte) : (s.emitToneChange a b).keyCounter = s.keyCounter := by unfold State.emitToneChange; split <;> [rfl; (split <;> rfl)]
@[simp] theorem State.emitToneChange_keyLatched (a b : Byte) : (s.emitToneChange a b).keyLatched = s.keyLatched := by unfold State.emitToneChange; split <;> [rfl; (split <;> rfl)]
@[simp] theorem State.emitToneChange_trap (a b : Byte) : (s.emitToneChange a b).trap = s.trap := by unfold State.emitToneChange; split <;> [rfl; (split <;> rfl)]
@[simp] theorem State.emitToneChange_sched (a b : Byte) : (s.emitToneChange a b).sched = s.sched := by unfold State.emitToneChange; split <;> [rfl; (split <;> rfl)]
@[simp] theorem State.emitToneChange_tickTime (a b : Byte) : (s.emitToneChange a b).tickTime = s.tickTime := by unfold State.emitToneChange; split <;> [rfl; (split <;> rfl)]
@[simp] theorem State.emitToneChange_timers (a b : Byte) : (s.emitToneChange a b).timers = s.timers := by unfold State.emitToneChange; split <;> [rfl; (split <;> rfl)]
@[simp] theorem State.emitToneChange_wake (a b : Byte) : (s.emitToneChange a b).wake = s.wake := by unfold State.emitToneChange; split <;> [rfl; (split <;> rfl)]
@[simp] theorem State.emitToneChange_now (a b : Byte) : (s.emitToneChange a b).now = s.now := by unfold State.emitToneChange; split <;> [rfl; (split <;> rfl)]
@[simp] theorem State.emitToneChange_composeBusy (a b : Byte) : (s.emitToneChange a b).composeBusy = s.composeBusy := by unfold State.emitToneChange; split <;> [rfl; (split <;> rfl)]
@[simp] theorem State.emitToneChange_copyPending (a b : Byte) : (s.emitToneChange a b).copyPending = s.copyPending := by unfold State.emitToneChange; split <;> [rfl; (split <;> rfl)]
@[simp] theorem State.emitToneChange_frame (a b : Byte) : (s.emitToneChange a b).frame = s.frame := by unfold State.emitToneChange; split <;> [rfl; (split <;> rfl)]
@[simp] theorem State.emitToneChange_hostQueue (a b : Byte) : (s.emitToneChange a b).hostQueue = s.hostQueue := by unfold State.emitToneChange; split <;> [rfl; (split <;> rfl)]
@[simp] theorem State.emitToneChange_reply (a b : Byte) : (s.emitToneChange a b).reply = s.reply := by unfold State.emitToneChange; split <;> [rfl; (split <;> rfl)]
@[simp] theorem State.emitToneChange_moves (a b : Byte) : (s.emitToneChange a b).moves = s.moves := by unfold State.emitToneChange; split <;> [rfl; (split <;> rfl)]
@[simp] theorem State.emitToneChange_moveDraws (a b : Byte) : (s.emitToneChange a b).moveDraws = s.moveDraws := by unfold State.emitToneChange; split <;> [rfl; (split <;> rfl)]
@[simp] theorem State.emitToneChange_randDraws (a b : Byte) : (s.emitToneChange a b).randDraws = s.randDraws := by unfold State.emitToneChange; split <;> [rfl; (split <;> rfl)]
@[simp] theorem State.emitToneChange_keyDraws (a b : Byte) : (s.emitToneChange a b).keyDraws = s.keyDraws := by unfold State.emitToneChange; split <;> [rfl; (split <;> rfl)]
@[simp] theorem State.emitToneChange_cycles (a b : Byte) : (s.emitToneChange a b).cycles = s.cycles := by unfold State.emitToneChange; split <;> [rfl; (split <;> rfl)]

/-! ### `endCycle`: what it leaves -/

@[simp] theorem State.endCycle_cfg (op : Word) (n : Nat) : (s.endCycle op n).cfg = s.cfg := by unfold State.endCycle; split <;> [rfl; (split <;> [rfl; (split <;> rfl)])]
@[simp] theorem State.endCycle_v (op : Word) (n : Nat) : (s.endCycle op n).v = s.v := by unfold State.endCycle; split <;> [rfl; (split <;> [rfl; (split <;> rfl)])]
@[simp] theorem State.endCycle_sp (op : Word) (n : Nat) : (s.endCycle op n).sp = s.sp := by unfold State.endCycle; split <;> [rfl; (split <;> [rfl; (split <;> rfl)])]
@[simp] theorem State.endCycle_i (op : Word) (n : Nat) : (s.endCycle op n).i = s.i := by unfold State.endCycle; split <;> [rfl; (split <;> [rfl; (split <;> rfl)])]
@[simp] theorem State.endCycle_dt (op : Word) (n : Nat) : (s.endCycle op n).dt = s.dt := by unfold State.endCycle; split <;> [rfl; (split <;> [rfl; (split <;> rfl)])]
@[simp] theorem State.endCycle_st (op : Word) (n : Nat) : (s.endCycle op n).st = s.st := by unfold State.endCycle; split <;> [rfl; (split <;> [rfl; (split <;> rfl)])]
@[simp] theorem State.endCycle_stack (op : Word) (n : Nat) : (s.endCycle op n).stack = s.stack := by unfold State.endCycle; split <;> [rfl; (split <;> [rfl; (split <;> rfl)])]
@[simp] theorem State.endCycle_mem (op : Word) (n : Nat) : (s.endCycle op n).mem = s.mem := by unfold State.endCycle; split <;> [rfl; (split <;> [rfl; (split <;> rfl)])]
@[simp] theorem State.endCycle_fb (op : Word) (n : Nat) : (s.endCycle op n).fb = s.fb := by unfold State.endCycle; split <;> [rfl; (split <;> [rfl; (split <;> rfl)])]
@[simp] theorem State.endCycle_fbLock (op : Word) (n : Nat) : (s.endCycle op n).fbLock = s.fbLock := by unfold State.endCycle; split <;> [rfl; (split <;> [rfl; (split <;> rfl)])]
@[simp] theorem State.endCycle_drawPhase (op : Word) (n : Nat) : (s.endCycle op n).drawPhase = s.drawPhase := by unfold State.endCycle; split <;> [rfl; (split <;> [rfl; (split <;> rfl)])]
@[simp] theorem State.endCycle_drawDeadline (op : Word) (n : Nat) : (s.endCycle op n).drawDeadline = s.drawDeadline := by unfold State.endCycle; split <;> [rfl; (split <;> [rfl; (split <;> rfl)])]
@[simp] theorem State.endCycle_drawnDeadline (op : Word) (n : Nat) : (s.endCycle op n).drawnDeadline = s.drawnDeadline := by unfold State.endCycle; split <;> [rfl; (split <;> [rfl; (split <;> rfl)])]
@[simp] theorem State.endCycle_keyPhase (op : Word) (n : Nat) : (s.endCycle op n).keyPhase = s.keyPhase := by unfold State.endCycle; split <;> [rfl; (split <;> [rfl; (split <;> rfl)])]
@[simp] theorem State.endCycle_keyCounter (op : Word) (n : Nat) : (s.endCycle op n).keyCounter = s.keyCounter := by unfold State.endCycle; split <;> [rfl; (split <;> [rfl; (split <;> rfl)])]
@[simp] theorem State.endCycle_keyLatched (op : Word) (n : Nat) : (s.endCycle op n).keyLatched = s.keyLatched := by unfold State.endCycle; split <;> [rfl; (split <;> [rfl; (split <;> rfl)])]
@[simp] theorem State.endCycle_sched (op : Word) (n : Nat) : (s.endCycle op n).sched = s.sched := by unfold State.endCycle; split <;> [rfl; (split <;> [rfl; (split <;> rfl)])]
@[simp] theorem State.endCycle_tickTime (op : Word) (n : Nat) : (s.endCycle op n).tickTime = s.tickTime := by unfold State.endCycle; split <;> [rfl; (split <;> [rfl; (split <;> rfl)])]
@[simp] theorem State.endCycle_tone (op : Word) (n : Nat) : (s.endCycle op n).tone = s.tone := by unfold State.endCycle; split <;> [rfl; (split <;> [rfl; (split <;> rfl)])]
@[simp] theorem State.endCycle_out (op : Word) (n : Nat) : (s.endCycle op n).out = s.out := by unfold State.endCycle; split <;> [rfl; (split <;> [rfl; (split <;> rfl)])]
@[simp] theorem State.endCycle_wake (op : Word) (n : Nat) : (s.endCycle op n).wake = s.wake := by unfold State.endCycle; split <;> [rfl; (split <;> [rfl; (split <;> rfl)])]
@[simp] theorem State.endCycle_now (op : Word) (n : Nat) : (s.endCycle op n).now = s.now := by unfold State.endCycle; split <;> [rfl; (split <;> [rfl; (split <;> rfl)])]
@[simp] theorem State.endCycle_composeBusy (op : Word) (n : Nat) : (s.endCycle op n).composeBusy = s.composeBusy := by unfold State.endCycle; split <;> [rfl; (split <;> [rfl; (split <;> rfl)])]
@[simp] theorem State.endCycle_copyPending (op : Word) (n : Nat) : (s.endCycle op n).copyPending = s.copyPending := by unfold State.endCycle; split <;> [rfl; (split <;> [rfl; (split <;> rfl)])]
@[simp] theorem State.endCycle_frame (op : Word) (n : Nat) : (s.endCycle op n).frame = s.frame := by unfold State.endCycle; split <;> [rfl; (split <;> [rfl; (split <;> rfl)])]
@[simp] theorem State.endCycle_hostQueue (op : Word) (n : Nat) : (s.endCycle op n).hostQueue = s.hostQueue := by unfold State.endCycle; split <;> [rfl; (split <;> [rfl; (split <;> rfl)])]
@[simp] theorem State.endCycle_reply (op : Word) (n : Nat) : (s.endCycle op n).reply = s.reply := by unfold State.endCycle; split <;> [rfl; (split <;> [rfl; (split <;> rfl)])]
@[simp] theorem State.endCycle_moves (op : Word) (n : Nat) : (s.endCycle op n).moves = s.moves := by unfold State.endCycle; split <;> [rfl; (split <;> [rfl; (split <;> rfl)])]
@[simp] theorem State.endCycle_moveDraws (op : Word) (n : Nat) : (s.endCycle op n).moveDraws = s.moveDraws := by unfold State.endCycle; split <;> [rfl; (split <;> [rfl; (split <;> rfl)])]
@[simp] theorem State.endCycle_randDraws (op : Word) (n : Nat) : (s.endCycle op n).randDraws = s.randDraws := by unfold State.endCycle; split <;> [rfl; (split <;> [rfl; (split <;> rfl)])]
@[simp] theorem State.endCycle_keyDraws (op : Word) (n : Nat) : (s.endCycle op n).keyDraws = s.keyDraws := by unfold State.endCycle; split <;> [rfl; (split <;> [rfl; (split <;> rfl)])]

/-! ### `setRegsFrom`: it writes registers only -/

theorem State.setRegsFrom_only (s : State) (k : Nat) (bs : List Byte) :
    s.setRegsFrom k bs = { s with v := (s.setRegsFrom k bs).v } := by
  induction bs generalizing s k with
  | nil => rfl
  | cons b bs ih =>
    simp only [State.setRegsFrom]
    rw [ih]
    split <;> rfl

end Sys2Proof.Machine
end

