-- ==== Sys2Proof/Laws/Registers.lean ====
section
/-!
SUPPORT. The laws of the general registers and of the call stack (10_state.md R10, R12; 20_memory.md R47, R48).
-/

namespace Sys2Proof.Machine

variable (s : State)

/-- Reading a register after writing one. -/
theorem State.reg_setReg (x y : Nibble) (b : Byte) : (s.setReg x b).reg y = if y = x then b else s.reg y := by
  simp only [State.reg, State.setReg, Vector.getElem_set]
  simp [eq_comm, BitVec.toNat_eq]

@[simp] theorem State.reg_setReg_same (x : Nibble) (b : Byte) : (s.setReg x b).reg x = b := by
  simp [State.reg_setReg]

theorem State.reg_setReg_other {x y : Nibble} (b : Byte) (h : y ≠ x) : (s.setReg x b).reg y = s.reg y := by
  simp [State.reg_setReg, h]

/-- A register reads the same in two states whose registers agree. -/
theorem State.reg_congr {s t : State} (h : t.v = s.v) (x : Nibble) : t.reg x = s.reg x := by
  simp [State.reg, h]

@[simp] theorem State.reg_setFlag (f : Bool) :
    (s.setFlag f).reg flagReg = if f then 0x01#8 else 0x00#8 := by
  simp [State.setFlag]

/-- The flag is written first and the result second, so with `x = F` the result stays (42_alu.md R104). -/
theorem State.reg_setFlagThenReg (f : Bool) (x y : Nibble) (b : Byte) :
    (s.setFlagThenReg f x b).reg y =
      if y = x then b else if y = flagReg then (if f then 0x01#8 else 0x00#8) else s.reg y := by
  simp [State.setFlagThenReg, State.setFlag, State.reg_setReg]

/-- Registers after a block load: register `k + j` holds the `j`-th byte, the others keep theirs. -/
theorem State.reg_setRegsFrom (k : Nat) (bs : List Byte) (y : Nibble) :
    (s.setRegsFrom k bs).reg y =
      if k ≤ y.toNat ∧ y.toNat < k + bs.length then bs.getD (y.toNat - k) 0 else s.reg y := by
  induction bs generalizing s k with
  | nil =>
    have : ¬(k ≤ y.toNat ∧ y.toNat < k + ([] : List Byte).length) := by simp
    rw [if_neg this]
    rfl
  | cons b bs ih =>
    have hy := y.isLt
    rw [State.setRegsFrom, ih, List.length_cons]
    by_cases hk : y.toNat = k
    · have h16 : k < 16 := by omega
      have hyk : y = BitVec.ofNat 4 k := BitVec.eq_of_toNat_eq (by simp [hk]; omega)
      have hin : k ≤ y.toNat ∧ y.toNat < k + (bs.length + 1) := by omega
      rw [if_neg (by omega), if_pos h16, if_pos hin, State.reg_setReg, if_pos hyk, hk, Nat.sub_self]
      rfl
    · have hreg : (if k < 16 then s.setReg (BitVec.ofNat 4 k) b else s).reg y = s.reg y := by
        split
        · rw [State.reg_setReg, if_neg]
          intro h
          apply hk
          rw [h, BitVec.toNat_ofNat]
          omega
        · rfl
      by_cases hin : k + 1 ≤ y.toNat ∧ y.toNat < k + 1 + bs.length
      · have hin' : k ≤ y.toNat ∧ y.toNat < k + (bs.length + 1) := by omega
        rw [if_pos hin, if_pos hin']
        have : y.toNat - k = (y.toNat - (k + 1)) + 1 := by omega
        rw [this, List.getD_cons_succ]
      · have hin' : ¬(k ≤ y.toNat ∧ y.toNat < k + (bs.length + 1)) := by omega
        rw [if_neg hin, if_neg hin', hreg]

@[simp] theorem State.regsUpTo_length (n : Nat) : (s.regsUpTo n).length = n := by simp [State.regsUpTo]

theorem State.regsUpTo_getElem (n k : Nat) (h : k < (s.regsUpTo n).length) :
    (s.regsUpTo n)[k] = s.reg (BitVec.ofNat 4 k) := by
  simp [State.regsUpTo]

/-! ### The call stack -/

/-- What `Push` can answer (R47). -/
theorem State.push_cases (a : Word) :
    (∃ k, s.pushIndex = some k ∧
        s.push a = some { s with sp := BitVec.ofNat 8 k, stack := s.stack.set k a }) ∨
      (s.pushIndex = none ∧ s.push a = none) := by
  unfold State.push
  cases s.pushIndex with
  | none => exact .inr ⟨rfl, rfl⟩
  | some k => exact .inl ⟨k, rfl, rfl⟩

/-- `Push` finds room below the capacity. -/
theorem State.pushIndex_lt {s : State} {k : Nat} (hc : 1 ≤ s.cfg.stackCap) (h : s.pushIndex = some k) :
    k < s.cfg.stackCap := by
  unfold State.pushIndex at h
  split at h
  · cases h; omega
  · split at h
    · cases h; omega
    · cases h

/-- What `Pop` can answer (R48). -/
theorem State.pop_cases :
    (s.sp = s.cfg.spEmpty ∧ s.pop = .empty) ∨
      (s.sp ≠ s.cfg.spEmpty ∧ s.stack[s.sp.toNat]? = none ∧ s.pop = .noEntry) ∨
      ∃ a, s.sp ≠ s.cfg.spEmpty ∧ s.stack[s.sp.toNat]? = some a ∧
        s.pop = .value a { s with sp := if s.sp = 0x00#8 then s.cfg.spEmpty else s.sp - 1#8 } := by
  unfold State.pop
  by_cases h : s.sp = s.cfg.spEmpty
  · exact .inl ⟨h, if_pos h⟩
  · refine .inr ?_
    rw [if_neg h]
    cases hs : s.stack[s.sp.toNat]? with
    | none => exact .inl ⟨h, rfl, rfl⟩
    | some a => exact .inr ⟨a, h, rfl, rfl⟩

/-! ### The keys -/

/-- The key that a poll finds (45_keys_timers.md R143): pressed, and no lower one is. -/
theorem State.firstKey_eq_some {k : Nibble} (h : s.keyPressed k = true)
    (hj : ∀ j : Nibble, j.toNat < k.toNat → s.keyPressed j = false) : s.firstKey = some k := by
  have hk := k.isLt
  unfold State.firstKey
  rw [List.find?_eq_some_iff_getElem]
  refine ⟨h, k.toNat, by simpa using hk, by simp, fun j hlt => ?_⟩
  rw [List.getElem_map, List.getElem_range, hj _ (by simp; omega)]
  rfl

/-- A poll finds none where none is pressed. -/
theorem State.firstKey_eq_none (h : ∀ k : Nibble, s.keyPressed k = false) : s.firstKey = none := by
  unfold State.firstKey
  rw [List.find?_eq_none]
  intro k _
  simp [h k]

end Sys2Proof.Machine
end

