-- ==== Sys2Proof/Laws/Exec.lean ====
section
/-!
SUPPORT. What taking a trap, the cycle and the instructions can do, each said once (60_exceptions.md R192, R203;
40_cpu_cycle.md R80 to R86).
-/

namespace Sys2Proof.Machine

/-! ### Taking a trap -/

/-- All that taking a trap does (R192). -/
theorem State.raise_changesOnlyByTrap (s : State) (k : TrapKind) (op : Word) (a : Nat) :
    s.ChangesOnlyByTrap (s.raise k op a) ⟨k, op, s.pc, a⟩ := by
  refine ⟨rfl, by simp, fun h tm hh => ?_⟩
  simp only [State.raise_timers, List.getElem?_modify, hh]
  simp [eq_comm]

/-- The fetched word as a number: the byte at the lower address is the high one (20_memory.md R41). -/
theorem State.fetchWord_eq (s : State) :
    s.fetchWord = BitVec.ofNat 16 ((s.readByte s.pc.toNat).toNat * 256 + (s.readByte (s.pc.toNat + 1)).toNat) := by
  apply BitVec.eq_of_toNat_eq
  simp only [State.fetchWord, toNat_wordOfBytes, BitVec.toNat_ofNat]
  have := (s.readByte s.pc.toNat).isLt
  have := (s.readByte (s.pc.toNat + 1)).isLt
  omega

/-! ### What no instruction writes -/

/-- The two states agree in everything that belongs to the scheduler, the host, the collaborator and the configuration; of
the timers, at most the `active` bit of `T_CPU` differs, which a trap clears. -/
structure State.SameOutside (s t : State) : Prop where
  cfg : t.cfg = s.cfg
  fbLock : t.fbLock = s.fbLock
  sched : t.sched = s.sched
  tickTime : t.tickTime = s.tickTime
  wake : t.wake = s.wake
  now : t.now = s.now
  composeBusy : t.composeBusy = s.composeBusy
  copyPending : t.copyPending = s.copyPending
  frame : t.frame = s.frame
  hostQueue : t.hostQueue = s.hostQueue
  reply : t.reply = s.reply
  moves : t.moves = s.moves
  moveDraws : t.moveDraws = s.moveDraws
  timers : t.timers = s.timers ∨ t.timers = (s.stopTimer (s.cfg.handleOf .cpu)).timers

theorem State.SameOutside.refl (s : State) : s.SameOutside s :=
  ⟨rfl, rfl, rfl, rfl, rfl, rfl, rfl, rfl, rfl, rfl, rfl, rfl, rfl, .inl rfl⟩

theorem State.raise_sameOutside (s : State) (k : TrapKind) (op : Word) (a : Nat) : s.SameOutside (s.raise k op a) :=
  ⟨rfl, rfl, rfl, rfl, rfl, rfl, rfl, rfl, rfl, rfl, rfl, rfl, rfl, .inr rfl⟩

/-- An update that leaves all these fields alone. -/
theorem State.sameOutside_of_timers {s t : State} (h : t = { t with
      cfg := s.cfg, fbLock := s.fbLock, sched := s.sched, tickTime := s.tickTime, wake := s.wake, now := s.now,
      composeBusy := s.composeBusy, copyPending := s.copyPending, frame := s.frame, hostQueue := s.hostQueue,
      reply := s.reply, moves := s.moves, moveDraws := s.moveDraws, timers := s.timers }) : s.SameOutside t := by
  rw [h]
  exact ⟨rfl, rfl, rfl, rfl, rfl, rfl, rfl, rfl, rfl, rfl, rfl, rfl, rfl, .inl rfl⟩

theorem State.skipIf_eq (s : State) (c : Bool) : s.skipIf c = { s with pc := (s.skipIf c).pc } := by
  unfold State.skipIf
  split <;> rfl

theorem State.emitToneChange_eq (s : State) (old new : Byte) :
    s.emitToneChange old new =
      { s with out := (s.emitToneChange old new).out, tone := (s.emitToneChange old new).tone } := by
  unfold State.emitToneChange
  split
  · rfl
  · split <;> rfl

theorem State.pollKeys_eq (s : State) (x : Nibble) :
    s.pollKeys x =
      { s with v := (s.pollKeys x).v, jumpFlag := (s.pollKeys x).jumpFlag, keyPhase := (s.pollKeys x).keyPhase,
               keyLatched := (s.pollKeys x).keyLatched, keyDraws := (s.pollKeys x).keyDraws,
               out := (s.pollKeys x).out, tone := (s.pollKeys x).tone } := by
  unfold State.pollKeys
  split
  · split <;> rfl
  · split <;> rfl

/-- What a commit can do (44_draw.md R133): a trap where the sprite does not lie in memory, else VF and the frame buffer. -/
theorem State.commitDraw_cases (s : State) (x y n : Nibble) :
    (s.cfg.memSize < s.i.toNat + n.toNat ∧
        s.commitDraw x y n = s.raise .memoryAccessOutOfBounds (encode (.drw x y n)) s.i.toNat) ∨
      ∃ cells, s.i.toNat + n.toNat ≤ s.cfg.memSize ∧
        cells = spriteCells s.cfg (s.originCol x) (s.originRow y)
          (Cells.readList s.cfg.resetByte s.mem s.i.toNat n.toNat) ∧
        s.commitDraw x y n =
          { s.setFlag (drawCells s.fb cells).2 with
            fb := (drawCells s.fb cells).1, drawPhase := .armed, drawnDeadline := some s.drawDeadline } := by
  unfold State.commitDraw
  obtain ⟨h, e⟩ | ⟨h, e⟩ := State.memRead_cases (s := s) (a := s.i) (n := n.toNat)
  · exact .inr ⟨_, h, rfl, by rw [e]⟩
  · exact .inl ⟨h, by rw [e]⟩

/-- A draw may arm at the deadline `d` (log 34): the configuration does not ask, or the last commit's deadline is earlier. -/
theorem State.alreadyDrawn_eq_false {s : State} {d : Nat} :
    s.alreadyDrawn d = false ↔ (s.cfg.oneDrawPerDeadline = true → ∀ e, s.drawnDeadline = some e → e < d) := by
  unfold State.alreadyDrawn
  cases s.cfg.oneDrawPerDeadline <;> cases s.drawnDeadline <;> simp

/-- What a draw can do (R132). -/
theorem execDrw_cases {x y n : Nibble} {s t : State} (h : execDrw x y n s = .next t) :
    (s.drawPhase = .armed ∧ ∃ d, s.refreshDeadline = some d ∧ s.alreadyDrawn d = false ∧
        t = { s with drawDeadline := d, drawPhase := .waiting, jumpFlag := true }) ∨
      (((s.drawPhase = .waiting ∧ s.tickTime < s.drawDeadline) ∨
          (s.drawPhase = .armed ∧ ∃ d, s.refreshDeadline = some d ∧ s.alreadyDrawn d = true)) ∧
        t = { s with jumpFlag := true }) ∨
      ((s.drawPhase = .commit ∨ (s.drawPhase = .waiting ∧ s.drawDeadline ≤ s.tickTime)) ∧ t = s.commitDraw x y n) := by
  unfold execDrw at h
  split at h
  · rename_i hp
    split at h
    · rename_i d hd
      split at h
      · rename_i hu
        cases h
        exact .inr (.inl ⟨.inr ⟨hp, d, hd, hu⟩, rfl⟩)
      · rename_i hu
        cases h
        exact .inl ⟨hp, d, hd, by simpa using hu, rfl⟩
    · cases h
  · rename_i hp
    split at h
    · rename_i hd
      cases h
      exact .inr (.inr ⟨.inr ⟨hp, hd⟩, rfl⟩)
    · rename_i hd
      cases h
      exact .inr (.inl ⟨.inl ⟨hp, by omega⟩, rfl⟩)
  · rename_i hp
    cases h
    exact .inr (.inr ⟨.inl hp, rfl⟩)

/-- What RET can do (41_control_flow.md R90). -/
theorem execRet_cases {s t : State} (h : execRet s = .next t) :
    (s.sp = s.cfg.spEmpty ∧ t = s.raise .stackUnderflow (encode .ret) 0) ∨
      ∃ a, s.sp ≠ s.cfg.spEmpty ∧ s.stack[s.sp.toNat]? = some a ∧
        t = { s with sp := if s.sp = 0x00#8 then s.cfg.spEmpty else s.sp - 1#8, pc := a, jumpFlag := true } := by
  unfold execRet at h
  obtain ⟨he, e⟩ | ⟨-, -, e⟩ | ⟨a, hne, ha, e⟩ := s.pop_cases
  · rw [e] at h; cases h
    exact .inl ⟨he, rfl⟩
  · rw [e] at h; cases h
  · rw [e] at h; cases h
    exact .inr ⟨a, hne, ha, rfl⟩

/-- What CALL can do (R92). -/
theorem execCall_cases {nnn : Addr12} {s t : State} (h : execCall nnn s = .next t) :
    (s.pushIndex = none ∧ t = s.raise .stackOverflow (encode (.call nnn)) s.returnAddr.toNat) ∨
      ∃ k, s.pushIndex = some k ∧
        t = { s with sp := BitVec.ofNat 8 k, stack := s.stack.set k s.returnAddr, pc := addrOf nnn,
                     jumpFlag := true } := by
  unfold execCall at h
  obtain ⟨k, hk, e⟩ | ⟨hn, e⟩ := s.push_cases s.returnAddr
  · rw [e] at h; cases h
    exact .inr ⟨k, hk, rfl⟩
  · rw [e] at h; cases h
    exact .inl ⟨hn, rfl⟩

/-- What `LD B` can do (43_index_memory.md R123). -/
theorem execLdB_cases {x : Nibble} {s t : State} (h : execLdB x s = .next t) :
    (s.i.toNat + 3 ≤ s.cfg.memSize ∧ t = s.storeBytes s.i.toNat (bcdDigits (s.reg x))) ∨
      (s.cfg.memSize < s.i.toNat + 3 ∧ t = s.raise .memoryAccessOutOfBounds (encode (.ldB x)) s.i.toNat) := by
  unfold execLdB at h
  obtain ⟨hb, e⟩ | ⟨hb, e⟩ := State.memWrite_cases (s := s) (a := s.i) (bs := bcdDigits (s.reg x))
  · rw [e] at h; cases h
    exact .inl ⟨hb, rfl⟩
  · rw [e] at h; cases h
    exact .inr ⟨hb, rfl⟩

/-- What `LD [I], Vx` can do (R124). -/
theorem execStore_cases {x : Nibble} {s t : State} (h : execStore x s = .next t) :
    (s.i.toNat + (x.toNat + 1) ≤ s.cfg.memSize ∧ t = s.storeBytes s.i.toNat (s.regsUpTo (blockCount x))) ∨
      (s.cfg.memSize < s.i.toNat + (x.toNat + 1) ∧
        t = s.raise .memoryAccessOutOfBounds (encode (.store x)) s.i.toNat) := by
  unfold execStore at h
  obtain ⟨hb, e⟩ | ⟨hb, e⟩ := State.memWrite_cases (s := s) (a := s.i) (bs := s.regsUpTo (blockCount x))
  · rw [e] at h; cases h
    rw [State.regsUpTo_length] at hb
    exact .inl ⟨hb, rfl⟩
  · rw [e] at h; cases h
    rw [State.regsUpTo_length] at hb
    exact .inr ⟨hb, rfl⟩

/-- What `LD Vx, [I]` can do (R125). -/
theorem execLoad_cases {x : Nibble} {s t : State} (h : execLoad x s = .next t) :
    (s.i.toNat + (x.toNat + 1) ≤ s.cfg.memSize ∧
        t = s.setRegsFrom 0 (Cells.readList s.cfg.resetByte s.mem s.i.toNat (x.toNat + 1))) ∨
      (s.cfg.memSize < s.i.toNat + (x.toNat + 1) ∧
        t = s.raise .memoryAccessOutOfBounds (encode (.load x)) s.i.toNat) := by
  unfold execLoad at h
  obtain ⟨hb, e⟩ | ⟨hb, e⟩ := State.memRead_cases (s := s) (a := s.i) (n := blockCount x)
  · rw [e] at h; cases h
    exact .inl ⟨hb, rfl⟩
  · rw [e] at h; cases h
    exact .inr ⟨hb, rfl⟩

/-- What `LD Vx, K` can do, seen from outside: it traps never, and its counter stays below `KEY_DIV`
(45_keys_timers.md R143). -/
theorem execLdVxK_eq {x : Nibble} {s t : State} (h : execLdVxK x s = .next t) :
    (t.keyCounter = 0 ∨ t.keyCounter < s.cfg.keyDiv) ∧
    t = { s with v := t.v, jumpFlag := t.jumpFlag, keyPhase := t.keyPhase, keyCounter := t.keyCounter,
                 keyLatched := t.keyLatched, keyDraws := t.keyDraws, out := t.out, tone := t.tone } := by
  unfold execLdVxK at h
  split at h
  · rename_i hc
    cases h
    exact ⟨.inr hc, rfl⟩
  · cases h
    rw [State.pollKeys_eq]
    exact ⟨.inl rfl, rfl⟩

/-- No instruction touches the scheduler, the host, the collaborator or the configuration. -/
theorem exec_sameOutside {i : Instr} {s t : State} (h : exec i s = .next t) : s.SameOutside t := by
  cases i
  case ret =>
    obtain ⟨-, rfl⟩ | ⟨a, -, -, rfl⟩ := execRet_cases h
    · exact s.raise_sameOutside _ _ _
    · exact State.sameOutside_of_timers rfl
  case call =>
    obtain ⟨-, rfl⟩ | ⟨k, -, rfl⟩ := execCall_cases h
    · exact s.raise_sameOutside _ _ _
    · exact State.sameOutside_of_timers rfl
  case ldB =>
    obtain ⟨-, rfl⟩ | ⟨-, rfl⟩ := execLdB_cases h
    · exact State.sameOutside_of_timers rfl
    · exact s.raise_sameOutside _ _ _
  case store =>
    obtain ⟨-, rfl⟩ | ⟨-, rfl⟩ := execStore_cases h
    · exact State.sameOutside_of_timers rfl
    · exact s.raise_sameOutside _ _ _
  case load =>
    obtain ⟨-, rfl⟩ | ⟨-, rfl⟩ := execLoad_cases h
    · rw [State.setRegsFrom_only]
      exact State.sameOutside_of_timers rfl
    · exact s.raise_sameOutside _ _ _
  case drw x y n =>
    obtain ⟨-, d, -, -, rfl⟩ | ⟨-, rfl⟩ | ⟨-, rfl⟩ := execDrw_cases h
    · exact State.sameOutside_of_timers rfl
    · exact State.sameOutside_of_timers rfl
    · obtain ⟨-, e⟩ | ⟨cells, -, -, e⟩ := s.commitDraw_cases x y n
      · rw [e]; exact s.raise_sameOutside _ _ _
      · rw [e]; exact State.sameOutside_of_timers rfl
  case ldVxK =>
    obtain ⟨-, e⟩ := execLdVxK_eq h
    rw [e]
    exact State.sameOutside_of_timers rfl
  case seImm | sneImm | seReg | sneReg | skp | sknp =>
    cases h
    rw [State.skipIf_eq]
    exact State.sameOutside_of_timers rfl
  case ldStVx =>
    cases h
    rw [State.emitToneChange_eq]
    exact State.sameOutside_of_timers rfl
  all_goals
    cases h
    exact State.sameOutside_of_timers rfl

/-! ### The cycle -/

/-- What the PC update can do (40_cpu_cycle.md R80 step 4, R81). -/
theorem State.endCycle_cases (s : State) (op : Word) (extra : Nat) :
    (s.trap.isSome ∧ s.endCycle op extra = s) ∨
      (s.trap = none ∧ s.jumpFlag = true ∧
        s.endCycle op extra = { s with jumpFlag := false, cycles := s.cycles + 1 }) ∨
      (s.trap = none ∧ s.jumpFlag = false ∧ s.cfg.memSize ≤ s.pc.toNat + 2 + extra ∧
        s.endCycle op extra = s.raise .programCounterOutOfBounds op (s.pc.toNat + 2 + extra)) ∨
      (s.trap = none ∧ s.jumpFlag = false ∧ s.pc.toNat + 2 + extra < s.cfg.memSize ∧
        s.endCycle op extra =
          { s with pc := BitVec.ofNat 16 (s.pc.toNat + 2 + extra), jumpFlag := false, cycles := s.cycles + 1 }) := by
  unfold State.endCycle
  cases ht : s.trap with
  | some r => exact .inl ⟨rfl, by simp⟩
  | none =>
    refine .inr ?_
    cases hj : s.jumpFlag with
    | true => exact .inl ⟨rfl, rfl, by simp⟩
    | false =>
      by_cases hb : s.cfg.memSize ≤ s.pc.toNat + 2 + extra
      · exact .inr (.inl ⟨rfl, rfl, hb, by simp [hb]⟩)
      · exact .inr (.inr ⟨rfl, rfl, by omega, by simp [hb]⟩)

/-- What a CPU cycle can do (R80, R86): nothing once trapped; a trap of the fetch check or of the decoder; or the
instruction fetched and the PC update. -/
theorem State.cpuCycle_cases {s t : State} (h : s.cpuCycle = .next t) :
    (s.trap.isSome ∧ t = s) ∨
      (s.trap = none ∧ s.fetchOutside = true ∧ t = s.raise .programCounterOutOfBounds 0x0000#16 s.pc.toNat) ∨
      (s.trap = none ∧ s.fetchOutside = false ∧ (∃ e, decode s.fetchWord = .reject e) ∧
        t = s.raise .invalidOpCode s.fetchWord s.pc.toNat) ∨
      ∃ i u, s.trap = none ∧ s.fetchOutside = false ∧ decode s.fetchWord = .instr i ∧ exec i s = .next u ∧
        t = u.endCycle s.fetchWord (extraBytes s.cfg i) := by
  unfold State.cpuCycle at h
  cases ht : s.trap with
  | some r =>
    rw [ht] at h; cases h
    exact .inl ⟨rfl, rfl⟩
  | none =>
    refine .inr ?_
    rw [ht] at h
    cases hf : s.fetchOutside with
    | true =>
      rw [hf] at h; cases h
      exact .inl ⟨rfl, rfl, rfl⟩
    | false =>
      refine .inr ?_
      rw [hf] at h
      have h' : s.runWord s.fetchWord = .next t := h
      unfold State.runWord at h'
      split at h'
      · rename_i e hd
        cases h'
        exact .inl ⟨rfl, rfl, ⟨e, hd⟩, rfl⟩
      · rename_i i hd
        split at h'
        · rename_i u hu
          cases h'
          exact .inr ⟨i, u, rfl, rfl, hd, hu, rfl⟩
        · cases h'
        · cases h'

/-- The cycle of a decoded instruction (R80). -/
theorem State.cpuCycle_run {s t : State} {op : Word} {i : Instr} (ht : s.trap = none) (hf : s.fetchOutside = false)
    (hw : s.fetchWord = op) (hd : decode op = .instr i) (he : exec i s = .next t) :
    s.cpuCycle = .next (t.endCycle op (extraBytes s.cfg i)) := by
  subst hw
  simp [State.cpuCycle, State.runWord, ht, hf, hd, he]

end Sys2Proof.Machine
end

