-- ==== Sys2Proof/Laws/Draw.lean ====
section
/-!
SUPPORT. The laws of the sprite (44_draw.md R131, R133): which cells it covers, that it names no cell twice, and what
drawing a list of cells does to the frame buffer.
-/

namespace Sys2Proof.Machine

/-! ### The cells of a sprite -/

theorem mem_spriteRowCells {c : Config} {x0 row : Nat} {b : Byte} {p : Nat} :
    p ∈ spriteRowCells c x0 row b ↔
      row < c.dispH ∧ ∃ k, k < 8 ∧ b.getLsbD (7 - k) = true ∧ x0 + k < c.dispW ∧ p = Config.cellIndex c row (x0 + k) := by
  unfold spriteRowCells
  split
  · rename_i h
    simp only [List.mem_map, List.mem_filter, List.mem_range, Bool.and_eq_true, decide_eq_true_eq, h, true_and]
    constructor
    · rintro ⟨k, ⟨hk, hb, hw⟩, rfl⟩
      exact ⟨k, hk, hb, hw, rfl⟩
    · rintro ⟨k, hk, hb, hw, rfl⟩
      exact ⟨k, ⟨hk, hb, hw⟩, rfl⟩
  · rename_i h
    simp [h]

theorem mem_spriteCells {c : Config} {x0 row : Nat} {rows : List Byte} {p : Nat} :
    p ∈ spriteCells c x0 row rows ↔
      ∃ r k, r < rows.length ∧ row + r < c.dispH ∧ k < 8 ∧ (rows.getD r 0).getLsbD (7 - k) = true ∧
        x0 + k < c.dispW ∧ p = Config.cellIndex c (row + r) (x0 + k) := by
  induction rows generalizing row with
  | nil => simp [spriteCells]
  | cons b rows ih =>
    rw [spriteCells, List.mem_append, mem_spriteRowCells, ih]
    constructor
    · rintro (⟨hr, k, hk, hb, hw, rfl⟩ | ⟨r, k, hr, hh, hk, hb, hw, rfl⟩)
      · exact ⟨0, k, by simp, by omega, hk, by simpa using hb, hw, rfl⟩
      · refine ⟨r + 1, k, by simpa using hr, by omega, hk, by simpa using hb, hw, ?_⟩
        rw [show row + (r + 1) = row + 1 + r by omega]
    · rintro ⟨r, k, hr, hh, hk, hb, hw, rfl⟩
      cases r with
      | zero => exact .inl ⟨by omega, k, hk, by simpa using hb, hw, rfl⟩
      | succ r =>
        refine .inr ⟨r, k, by simpa using hr, by omega, hk, by simpa using hb, hw, ?_⟩
        rw [show row + (r + 1) = row + 1 + r by omega]

/-- Cells of the screen have different indices. -/
theorem cellIndex_inj {c : Config} {row col row' col' : Nat} (h : col < c.dispW) (h' : col' < c.dispW)
    (e : Config.cellIndex c row col = Config.cellIndex c row' col') : row = row' ∧ col = col' := by
  unfold Config.cellIndex at e
  have hd : ∀ a b : Nat, b < c.dispW → (a * c.dispW + b) / c.dispW = a ∧ (a * c.dispW + b) % c.dispW = b := by
    intro a b hb
    constructor
    · rw [Nat.mul_comm, Nat.mul_add_div (by omega), Nat.div_eq_of_lt hb, Nat.add_zero]
    · rw [Nat.mul_comm, Nat.mul_add_mod, Nat.mod_eq_of_lt hb]
  have a := hd row col h
  have b := hd row' col' h'
  rw [e] at a
  exact ⟨a.1.symm.trans b.1, a.2.symm.trans b.2⟩

/-- A cell of the screen lies in the frame buffer. -/
theorem cellIndex_lt {c : Config} {row col : Nat} (hr : row < c.dispH) (hc : col < c.dispW) :
    Config.cellIndex c row col < c.dispH * c.dispW := by
  unfold Config.cellIndex
  have := Nat.mul_le_mul_right c.dispW (show row + 1 ≤ c.dispH by omega)
  rw [Nat.add_mul, Nat.one_mul] at this
  omega

theorem spriteCells_lt {c : Config} {x0 row : Nat} {rows : List Byte} {p : Nat} (h : p ∈ spriteCells c x0 row rows) :
    p < c.dispH * c.dispW := by
  obtain ⟨r, k, -, hh, -, -, hw, rfl⟩ := mem_spriteCells.mp h
  exact cellIndex_lt hh hw

theorem spriteRowCells_nodup (c : Config) (x0 row : Nat) (b : Byte) : (spriteRowCells c x0 row b).Nodup := by
  unfold spriteRowCells
  split
  · refine List.Nodup.map_on ?_ (List.nodup_range.filter _)
    intro k hk k' hk' e
    simp only [List.mem_filter, Bool.and_eq_true, decide_eq_true_eq] at hk hk'
    have := (cellIndex_inj hk.2.2 hk'.2.2 e).2
    omega
  · exact List.nodup_nil

/-- A sprite names no cell twice. -/
theorem spriteCells_nodup (c : Config) (x0 row : Nat) (rows : List Byte) : (spriteCells c x0 row rows).Nodup := by
  induction rows generalizing row with
  | nil => exact List.nodup_nil
  | cons b rows ih =>
    refine List.nodup_append.mpr ⟨spriteRowCells_nodup c x0 row b, ih (row + 1), ?_⟩
    intro p hp q hq e
    subst e
    obtain ⟨-, k, -, -, hw, e⟩ := mem_spriteRowCells.mp hp
    obtain ⟨r, k', -, -, -, -, hw', e'⟩ := mem_spriteCells.mp hq
    have := (cellIndex_inj hw hw' (e.symm.trans e')).1
    omega

/-! ### Drawing a list of cells -/

/-- What `FrameBuffer.wf` says. -/
theorem FrameBuffer.wf_iff {c : Config} {fb : Cells} :
    FrameBuffer.wf c fb = true ↔
      Cells.wf fbBlank (c.dispH * c.dispW) fb = true ∧ ∀ e ∈ fb, e.2 = 0xFF#8 := by
  simp [FrameBuffer.wf]

/-- Every cell of a frame buffer is 0x00 or 0xFF (10_state.md R24). -/
theorem FrameBuffer.read_cases {c : Config} {fb : Cells} (h : FrameBuffer.wf c fb = true) (p : Nat) :
    Cells.read fbBlank fb p = 0x00#8 ∨ Cells.read fbBlank fb p = 0xFF#8 := by
  have hall := (FrameBuffer.wf_iff.mp h).2
  clear h
  induction fb with
  | nil => exact .inl rfl
  | cons e fb ih =>
    obtain ⟨k, b⟩ := e
    rw [Cells.read]
    split
    · exact .inr (hall (k, b) (by simp))
    · exact ih fun e he => hall e (by simp [he])

/-- What a write puts into the list. -/
theorem Cells.mem_write {blank : Nat → Byte} {m : Cells} {p : Nat} {b : Byte} {e : Host.Cell}
    (h : e ∈ Cells.write blank m p b) : e ∈ m ∨ e = (p, b) ∧ b ≠ blank p := by
  induction m with
  | nil =>
    simp only [Cells.write] at h
    split at h
    · simp at h
    · rename_i hb
      exact .inr ⟨by simpa using h, hb⟩
  | cons x m ih =>
    obtain ⟨k, y⟩ := x
    simp only [Cells.write] at h
    split at h
    · split at h
      · exact .inl h
      · rename_i hb
        rcases List.mem_cons.mp h with h | h
        · exact .inr ⟨h, hb⟩
        · exact .inl h
    · split at h
      · split at h
        · exact .inl (by simp [h])
        · rename_i hb
          rcases List.mem_cons.mp h with h | h
          · exact .inr ⟨h, hb⟩
          · exact .inl (by simp [h])
      · rcases List.mem_cons.mp h with h | h
        · exact .inl (by simp [h])
        · rcases ih h with h | h
          · exact .inl (by simp [h])
          · exact .inr h

/-- Flipping a cell of the screen keeps the frame buffer well formed. -/
theorem flipCell_wf {c : Config} {fb : Cells} {p : Nat} (h : FrameBuffer.wf c fb = true)
    (hp : p < c.dispH * c.dispW) : FrameBuffer.wf c (flipCell fb p) = true := by
  obtain ⟨hw, hall⟩ := FrameBuffer.wf_iff.mp h
  refine FrameBuffer.wf_iff.mpr ⟨Cells.write_wf _ hw hp, fun e he => ?_⟩
  rcases Cells.mem_write he with he | ⟨rfl, hb⟩
  · exact hall e he
  · rcases FrameBuffer.read_cases h p with hr | hr <;> rw [hr] at hb ⊢
    · rfl
    · exact absurd rfl hb

/-- What flipping a cell does. -/
theorem read_flipCell {c : Config} {fb : Cells} (h : FrameBuffer.wf c fb = true) (p q : Nat) :
    Cells.read fbBlank (flipCell fb p) q =
      if q = p then Cells.read fbBlank fb q ^^^ 0xFF#8 else Cells.read fbBlank fb q := by
  unfold flipCell
  split
  · rename_i e
    subst e
    exact Cells.read_write_same (lo := 0) (FrameBuffer.wf_iff.mp h).1 q _
  · rename_i e
    exact Cells.read_write_other e

theorem foldl_plotCell {c : Config} {fb : Cells} {cells : List Nat} (hit : Bool) (h : FrameBuffer.wf c fb = true)
    (hn : cells.Nodup) (hc : ∀ p ∈ cells, p < c.dispH * c.dispW) :
    FrameBuffer.wf c (cells.foldl plotCell (fb, hit)).1 = true ∧
      (∀ q, Cells.read fbBlank (cells.foldl plotCell (fb, hit)).1 q =
        if q ∈ cells then Cells.read fbBlank fb q ^^^ 0xFF#8 else Cells.read fbBlank fb q) ∧
      (cells.foldl plotCell (fb, hit)).2 = (hit || collisionFlag fb cells) := by
  induction cells generalizing fb hit with
  | nil => exact ⟨h, by simp, by simp [collisionFlag]⟩
  | cons p cells ih =>
    obtain ⟨hp, hn⟩ := List.nodup_cons.mp hn
    have hwf := flipCell_wf h (hc p (by simp))
    obtain ⟨h1, h2, h3⟩ := ih (hit || Cells.read fbBlank fb p == 0xFF#8) hwf hn fun q hq => hc q (by simp [hq])
    refine ⟨h1, fun q => ?_, ?_⟩
    · rw [List.foldl_cons]
      refine (h2 q).trans ?_
      simp only [read_flipCell h]
      by_cases e : q = p
      · subst e
        simp [hp]
      · simp [e]
    · rw [List.foldl_cons]
      refine h3.trans ?_
      have : collisionFlag (flipCell fb p) cells = collisionFlag fb cells := by
        unfold collisionFlag
        rw [Bool.eq_iff_iff, List.any_eq_true, List.any_eq_true]
        refine exists_congr fun q => and_congr_right fun hq => ?_
        rw [read_flipCell h, if_neg]
        rintro rfl
        exact hp hq
      rw [this]
      simp [collisionFlag, Bool.or_assoc]

/-- What drawing a list of cells without repeats does: every one is flipped, every other stays, and the flag says whether
one was lit (R133). -/
theorem drawCells_spec {c : Config} {fb : Cells} {cells : List Nat} (h : FrameBuffer.wf c fb = true)
    (hn : cells.Nodup) (hc : ∀ p ∈ cells, p < c.dispH * c.dispW) :
    FrameBuffer.wf c (drawCells fb cells).1 = true ∧
      (∀ q, Cells.read fbBlank (drawCells fb cells).1 q =
        if q ∈ cells then Cells.read fbBlank fb q ^^^ 0xFF#8 else Cells.read fbBlank fb q) ∧
      (drawCells fb cells).2 = collisionFlag fb cells := by
  simpa [drawCells] using foldl_plotCell false h hn hc

/-- The same of a sprite. -/
theorem drawSprite_spec {c : Config} {fb : Cells} (x0 row : Nat) (rows : List Byte) (h : FrameBuffer.wf c fb = true) :
    FrameBuffer.wf c (drawCells fb (spriteCells c x0 row rows)).1 = true ∧
      (∀ q, Cells.read fbBlank (drawCells fb (spriteCells c x0 row rows)).1 q =
        if q ∈ spriteCells c x0 row rows then Cells.read fbBlank fb q ^^^ 0xFF#8 else Cells.read fbBlank fb q) ∧
      (drawCells fb (spriteCells c x0 row rows)).2 = collisionFlag fb (spriteCells c x0 row rows) :=
  drawCells_spec h (spriteCells_nodup c x0 row rows) fun _ hp => spriteCells_lt hp

/-- The test of `Config.dispSizeWf` finds powers of two. -/
theorem eq_two_pow_of_and_pred {n : Nat} (h0 : 0 < n) (h : n &&& (n - 1) = 0) : ∃ k, n = 2 ^ k := by
  induction n using Nat.strong_induction_on with
  | _ n ih =>
    have hd : n / 2 &&& (n - 1) / 2 = 0 := by rw [← Nat.and_div_two, h]
    rcases Nat.even_or_odd' n with ⟨m, rfl | rfl⟩
    · rw [show 2 * m / 2 = m by omega, show (2 * m - 1) / 2 = m - 1 by omega] at hd
      obtain ⟨k, rfl⟩ := ih m (by omega) (by omega) hd
      exact ⟨k + 1, by rw [Nat.pow_succ, Nat.mul_comm]⟩
    · rw [show (2 * m + 1) / 2 = m by omega, show (2 * m + 1 - 1) / 2 = m by omega, Nat.and_self] at hd
      exact ⟨0, by omega⟩

/-- A mask of a power of two less one is a remainder (R131, D4). -/
theorem and_pred_of_dispSizeWf {n : Nat} (h : Config.dispSizeWf n = true) (a : Nat) : a &&& (n - 1) = a % n := by
  simp only [Config.dispSizeWf, Bool.and_eq_true, decide_eq_true_eq, beq_iff_eq] at h
  obtain ⟨k, rfl⟩ := eq_two_pow_of_and_pred (by omega) h.2
  exact Nat.and_two_pow_sub_one_eq_mod a k

end Sys2Proof.Machine
end

