-- ==== Sys2Proof/Laws/PerInstr.lean ====
section
/-!
SUPPORT. Per instruction: its word selects its own row of the opcode map (30_encoding.md R63).
-/

namespace Sys2Proof.Laws.TableRow

/-- The word of the instruction selects the instruction's row, and the row is one of the map's. -/
def Statement (i : Instr) : Prop := (rowOf i).selects (encode i) = true ∧ rowOf i ∈ opcodeRows

theorem cls : Statement .cls :=
  ⟨by decide, by decide⟩

theorem ret : Statement .ret :=
  ⟨by decide, by decide⟩

theorem jp (nnn : Addr12) : Statement (.jp nnn) :=
  ⟨by simp [OpcodeRow.selects, rowOf, encode, and_F000]; decide, by simp [rowOf, opcodeRows]⟩

theorem call (nnn : Addr12) : Statement (.call nnn) :=
  ⟨by simp [OpcodeRow.selects, rowOf, encode, and_F000]; decide, by simp [rowOf, opcodeRows]⟩

theorem seImm (x : Nibble) (kk : Byte) : Statement (.seImm x kk) :=
  ⟨by simp [OpcodeRow.selects, rowOf, encode, and_F000]; decide, by simp [rowOf, opcodeRows]⟩

theorem sneImm (x : Nibble) (kk : Byte) : Statement (.sneImm x kk) :=
  ⟨by simp [OpcodeRow.selects, rowOf, encode, and_F000]; decide, by simp [rowOf, opcodeRows]⟩

theorem seReg (x : Nibble) (y : Nibble) (n : Nibble) : Statement (.seReg x y n) :=
  ⟨by simp [OpcodeRow.selects, rowOf, encode, and_F000]; decide, by simp [rowOf, opcodeRows]⟩

theorem ldImm (x : Nibble) (kk : Byte) : Statement (.ldImm x kk) :=
  ⟨by simp [OpcodeRow.selects, rowOf, encode, and_F000]; decide, by simp [rowOf, opcodeRows]⟩

theorem addImm (x : Nibble) (kk : Byte) : Statement (.addImm x kk) :=
  ⟨by simp [OpcodeRow.selects, rowOf, encode, and_F000]; decide, by simp [rowOf, opcodeRows]⟩

theorem ldReg (x : Nibble) (y : Nibble) : Statement (.ldReg x y) :=
  ⟨by simp [OpcodeRow.selects, rowOf, encode, and_F00F]; decide, by simp [rowOf, opcodeRows]⟩

theorem orReg (x : Nibble) (y : Nibble) : Statement (.orReg x y) :=
  ⟨by simp [OpcodeRow.selects, rowOf, encode, and_F00F]; decide, by simp [rowOf, opcodeRows]⟩

theorem andReg (x : Nibble) (y : Nibble) : Statement (.andReg x y) :=
  ⟨by simp [OpcodeRow.selects, rowOf, encode, and_F00F]; decide, by simp [rowOf, opcodeRows]⟩

theorem xorReg (x : Nibble) (y : Nibble) : Statement (.xorReg x y) :=
  ⟨by simp [OpcodeRow.selects, rowOf, encode, and_F00F]; decide, by simp [rowOf, opcodeRows]⟩

theorem addReg (x : Nibble) (y : Nibble) : Statement (.addReg x y) :=
  ⟨by simp [OpcodeRow.selects, rowOf, encode, and_F00F]; decide, by simp [rowOf, opcodeRows]⟩

theorem subReg (x : Nibble) (y : Nibble) : Statement (.subReg x y) :=
  ⟨by simp [OpcodeRow.selects, rowOf, encode, and_F00F]; decide, by simp [rowOf, opcodeRows]⟩

theorem shr (x : Nibble) (y : Nibble) : Statement (.shr x y) :=
  ⟨by simp [OpcodeRow.selects, rowOf, encode, and_F00F]; decide, by simp [rowOf, opcodeRows]⟩

theorem subnReg (x : Nibble) (y : Nibble) : Statement (.subnReg x y) :=
  ⟨by simp [OpcodeRow.selects, rowOf, encode, and_F00F]; decide, by simp [rowOf, opcodeRows]⟩

theorem shl (x : Nibble) (y : Nibble) : Statement (.shl x y) :=
  ⟨by simp [OpcodeRow.selects, rowOf, encode, and_F00F]; decide, by simp [rowOf, opcodeRows]⟩

theorem sneReg (x : Nibble) (y : Nibble) (n : Nibble) : Statement (.sneReg x y n) :=
  ⟨by simp [OpcodeRow.selects, rowOf, encode, and_F000]; decide, by simp [rowOf, opcodeRows]⟩

theorem ldI (nnn : Addr12) : Statement (.ldI nnn) :=
  ⟨by simp [OpcodeRow.selects, rowOf, encode, and_F000]; decide, by simp [rowOf, opcodeRows]⟩

theorem jpV0 (nnn : Addr12) : Statement (.jpV0 nnn) :=
  ⟨by simp [OpcodeRow.selects, rowOf, encode, and_F000]; decide, by simp [rowOf, opcodeRows]⟩

theorem rnd (x : Nibble) (kk : Byte) : Statement (.rnd x kk) :=
  ⟨by simp [OpcodeRow.selects, rowOf, encode, and_F000]; decide, by simp [rowOf, opcodeRows]⟩

theorem drw (x : Nibble) (y : Nibble) (n : Nibble) : Statement (.drw x y n) :=
  ⟨by simp [OpcodeRow.selects, rowOf, encode, and_F000]; decide, by simp [rowOf, opcodeRows]⟩

theorem skp (x : Nibble) : Statement (.skp x) :=
  ⟨by simp [OpcodeRow.selects, rowOf, encode, and_F0FF]; decide, by simp [rowOf, opcodeRows]⟩

theorem sknp (x : Nibble) : Statement (.sknp x) :=
  ⟨by simp [OpcodeRow.selects, rowOf, encode, and_F0FF]; decide, by simp [rowOf, opcodeRows]⟩

theorem ldVxDt (x : Nibble) : Statement (.ldVxDt x) :=
  ⟨by simp [OpcodeRow.selects, rowOf, encode, and_F0FF]; decide, by simp [rowOf, opcodeRows]⟩

theorem ldVxK (x : Nibble) : Statement (.ldVxK x) :=
  ⟨by simp [OpcodeRow.selects, rowOf, encode, and_F0FF]; decide, by simp [rowOf, opcodeRows]⟩

theorem ldDtVx (x : Nibble) : Statement (.ldDtVx x) :=
  ⟨by simp [OpcodeRow.selects, rowOf, encode, and_F0FF]; decide, by simp [rowOf, opcodeRows]⟩

theorem ldStVx (x : Nibble) : Statement (.ldStVx x) :=
  ⟨by simp [OpcodeRow.selects, rowOf, encode, and_F0FF]; decide, by simp [rowOf, opcodeRows]⟩

theorem addI (x : Nibble) : Statement (.addI x) :=
  ⟨by simp [OpcodeRow.selects, rowOf, encode, and_F0FF]; decide, by simp [rowOf, opcodeRows]⟩

theorem ldF (x : Nibble) : Statement (.ldF x) :=
  ⟨by simp [OpcodeRow.selects, rowOf, encode, and_F0FF]; decide, by simp [rowOf, opcodeRows]⟩

theorem ldB (x : Nibble) : Statement (.ldB x) :=
  ⟨by simp [OpcodeRow.selects, rowOf, encode, and_F0FF]; decide, by simp [rowOf, opcodeRows]⟩

theorem store (x : Nibble) : Statement (.store x) :=
  ⟨by simp [OpcodeRow.selects, rowOf, encode, and_F0FF]; decide, by simp [rowOf, opcodeRows]⟩

theorem load (x : Nibble) : Statement (.load x) :=
  ⟨by simp [OpcodeRow.selects, rowOf, encode, and_F0FF]; decide, by simp [rowOf, opcodeRows]⟩

end Sys2Proof.Laws.TableRow
end

