-- ==== Sys2Proof/Laws/Step.lean ====
section
/-!
SUPPORT. What a step of the machine can do, said once: the moves of the agents, the scheduler's loop, the firing of a
timer, and the host's commands (48_scheduler.md R152 to R173; 60_exceptions.md R206, R210; log 4, log 5).
-/

namespace Sys2Proof.Machine

/-! ### The agents -/

/-- The state in which a move is made: only the pending moves, the counter of free moves and the host's queue differ. -/
def State.Poised (s u : State) : Prop :=
  u = { s with moves := u.moves, moveDraws := u.moveDraws, hostQueue := u.hostQueue }

/-- What a step can be: a move of the scheduler, of the collaborator, a host command between wakes, or one that waits. -/
theorem step_cases {s t : State} (h : step s = .next t) :
    ∃ u, s.Poised u ∧
      ((∃ gap, u.schedulerMove gap = .next t) ∨ t = u.rendererMove ∨
        (u.wake = none ∧ ∃ c, u.hostCommand c = .next t) ∨
        (u.wake.isSome ∧ ∃ c, t = { u with hostQueue := u.hostQueue ++ [c] })) := by
  have hm : ∀ (u : State) (m : Move), s.Poised u → u.runMove m = .next t → ∃ u, s.Poised u ∧
      ((∃ gap, u.schedulerMove gap = .next t) ∨ t = u.rendererMove ∨
        (u.wake = none ∧ ∃ c, u.hostCommand c = .next t) ∨
        (u.wake.isSome ∧ ∃ c, t = { u with hostQueue := u.hostQueue ++ [c] })) := by
    intro u m hu hr
    refine ⟨u, hu, ?_⟩
    cases m with
    | scheduler gap => exact .inl ⟨gap, hr⟩
    | renderer => cases hr; exact .inr (.inl rfl)
    | host c =>
      simp only [State.runMove] at hr
      split at hr
      · rename_i hw
        exact .inr (.inr (.inl ⟨hw, c, hr⟩))
      · rename_i hw
        cases hr
        exact .inr (.inr (.inr ⟨by simp [hw], c, rfl⟩))
  have ht : s.Poised s.takeMove.2 := by
    unfold State.takeMove
    split <;> rfl
  unfold step State.advance at h
  split at h
  · rename_i c rest hw hq
    exact ⟨{ s with hostQueue := rest }, rfl, .inr (.inr (.inl ⟨hw, c, h⟩))⟩
  · exact hm _ _ ht h

/-- Taking the next move changes only the pending moves and the counter of free moves. -/
theorem State.takeMove_eq (s : State) :
    s.takeMove.2 = { s with moves := s.takeMove.2.moves, moveDraws := s.takeMove.2.moveDraws } := by
  unfold State.takeMove
  split <;> rfl

/-- Where no host command waits for the end of a wake, or a wake is in progress, the step is the next move. -/
theorem step_of_takeMove {s u : State} {m : Move} (ht : s.takeMove = (m, u)) (hw : s.wake.isSome ∨ s.hostQueue = []) :
    step s = u.runMove m := by
  unfold step State.advance
  split
  · rename_i h h'
    simp [h, h'] at hw
  · rw [ht]

/-- The step of a scheduler that stands before a timer in its wake (48_scheduler.md R159). -/
theorem State.StandsAt.step_eq {s u : State} {p : WakePos} {tm : Timer} (h : s.StandsAt u p tm) :
    step s = if tm.due s.tickTime && decide (p.count < s.cfg.maxExecPerWake) then u.fireTimer p tm
      else .next (u.nextTimer p) := by
  obtain ⟨⟨gap, hm⟩, hs, hw, ht⟩ := h
  rw [step_of_takeMove hm (.inl (by simp [hw]))]
  have hu := s.takeMove_eq
  simp only [hm] at hu
  rw [hu]
  simp [State.runMove, State.schedulerMove, hs, hw, State.wakeStep, ht]

/-- The step of a scheduler that fires a timer. -/
theorem State.Fires.step_eq {s u : State} {p : WakePos} {tm : Timer} (h : s.Fires u p tm) :
    step s = u.fireTimer p tm := by
  rw [h.stands.step_eq]
  simp [Timer.due, h.active, h.due, h.bound]

/-! ### The scheduler -/

/-- What the firing of a due timer can do (R159): nothing while the callback is held, else the callback and the
reschedule. -/
theorem State.fireTimer_cases {s t : State} {p : WakePos} {tm : Timer} (h : s.fireTimer p tm = .next t) :
    tm.kind ≠ .unconfigured ∧
      ((s.callbackHeld (s.callbackOf p.handle tm) = true ∧ t = s) ∨
        (s.callbackHeld (s.callbackOf p.handle tm) = false ∧
          ∃ u, s.runCallback (s.callbackOf p.handle tm) = .next u ∧ t = u.afterFiring p)) := by
  unfold State.fireTimer at h
  split at h
  · cases h
  · rename_i hk
    refine ⟨hk, ?_⟩
    split at h
    · rename_i hh
      cases h
      exact .inl ⟨hh, rfl⟩
    · rename_i hh
      refine .inr ⟨by simpa using hh, ?_⟩
      split at h
      · rename_i u hu
        cases h
        exact ⟨u, hu, rfl⟩
      · cases h
      · cases h

/-- Only `T_CPU` runs a cycle (40_cpu_cycle.md R86). -/
theorem State.callbackOf_eq_cpuCycle {s : State} {h : Nat} {tm : Timer} :
    s.callbackOf h tm = .cpuCycle ↔ tm.callback = .cpuCycle ∧ h = s.cfg.handleOf .cpu := by
  unfold State.callbackOf
  split
  · rename_i hc
    exact ⟨(nomatch ·), fun e => absurd e.2 hc.2⟩
  · rename_i hc
    exact ⟨fun e => ⟨e, by_contra fun hn => hc ⟨e, hn⟩⟩, fun e => e.1⟩

/-- At its own handle, or with another callback than the CPU's, a timer runs its callback. -/
theorem State.callbackOf_self {s : State} {h : Nat} {tm : Timer} (hc : tm.callback = .cpuCycle → h = s.cfg.handleOf .cpu) :
    s.callbackOf h tm = tm.callback := by
  unfold State.callbackOf
  rw [if_neg fun h => h.2 (hc h.1)]

/-- What a move of the scheduler can do (R159). -/
theorem State.schedulerMove_cases {s t : State} {gap : Nat} (h : s.schedulerMove gap = .next t) :
    (s.sched ≠ .running ∧ t = s) ∨
      (s.sched = .running ∧ s.wake = none ∧ s.now + gap < Config.clockEnd ∧
        t = { s with now := s.now + gap, tickTime := s.now + gap, wake := some ⟨0, 0⟩ }) ∨
      ∃ p, s.sched = .running ∧ s.wake = some p ∧
        ((s.timers[p.handle]? = none ∧ t = s.endWake) ∨
          ∃ tm, s.timers[p.handle]? = some tm ∧
            (t = s.nextTimer p ∨
              (tm.active = true ∧ tm.nextDeadline ≤ s.tickTime ∧ p.count < s.cfg.maxExecPerWake ∧
                s.fireTimer p tm = .next t))) := by
  unfold State.schedulerMove at h
  split at h
  · rename_i hs
    cases h
    exact .inl ⟨by simp [hs], rfl⟩
  · rename_i hs
    cases h
    exact .inl ⟨by simp [hs], rfl⟩
  · rename_i hs
    refine .inr ?_
    split at h
    · rename_i p hp
      refine .inr ⟨p, hs, hp, ?_⟩
      unfold State.wakeStep at h
      split at h
      · rename_i hn
        cases h
        exact .inl ⟨hn, rfl⟩
      · rename_i tm htm
        refine .inr ⟨tm, htm, ?_⟩
        split at h
        · rename_i hc
          simp only [Timer.due, Bool.and_eq_true, decide_eq_true_eq] at hc
          exact .inr ⟨hc.1.1, hc.1.2, hc.2, h⟩
        · cases h
          exact .inl rfl
    · rename_i hw
      refine .inl ⟨hs, hw, ?_⟩
      unfold State.beginWake State.readClock at h
      split at h
      · rename_i u hu
        split at hu
        · rename_i hc
          cases hu
          cases h
          exact ⟨hc, rfl⟩
        · cases hu
      · cases h

theorem State.tickDt_eq (s : State) : s.tickDt = { s with dt := s.tickDt.dt } := by
  unfold State.tickDt
  split <;> rfl

theorem State.tickSt_eq (s : State) :
    s.tickSt = { s with st := s.tickSt.st, out := s.tickSt.out, tone := s.tickSt.tone } := by
  unfold State.tickSt
  split
  · rfl
  · rw [State.emitToneChange_eq]
    rfl

/-- The 60 Hz tick changes DT, ST, the trace and the tone only (R172). -/
theorem State.decay60_eq (s : State) :
    s.decay60 = { s with dt := s.decay60.dt, st := s.decay60.st, out := s.decay60.out, tone := s.decay60.tone } := by
  unfold State.decay60
  rw [State.tickSt_eq, State.tickDt_eq]

/-- What a callback can do (R159, R170, R172, R173). -/
theorem State.runCallback_cases {s t : State} {cb : Callback} (h : s.runCallback cb = .next t) :
    (cb = .cpuCycle ∧ s.cpuCycle = .next t) ∨ (cb = .decay60 ∧ t = s.decay60) ∨
      (cb = .refresh ∧ t = s.refreshSignal) ∨ (cb = .noCallback ∧ t = s) := by
  cases cb with
  | cpuCycle => exact .inl ⟨rfl, h⟩
  | decay60 => cases h; exact .inr (.inl ⟨rfl, rfl⟩)
  | refresh => cases h; exact .inr (.inr (.inl ⟨rfl, rfl⟩))
  | noCallback => cases h; exact .inr (.inr (.inr ⟨rfl, rfl⟩))

/-! ### The host -/

/-- What a reading of the clock can answer (R157). -/
theorem State.readClock_cases {s t : State} {gap : Nat} (h : s.readClock gap = some t) :
    s.now + gap < Config.clockEnd ∧ t = { s with now := s.now + gap } := by
  unfold State.readClock at h
  split at h
  · rename_i hc
    cases h
    exact ⟨hc, rfl⟩
  · cases h

/-- What a timer call can do (R152 to R156). -/
theorem State.timerCall_cases {s t : State} {call : TimerCall} (h : s.timerCall call = .next t) :
    (∃ cb, t = { s with timers := s.timers ++ [Timer.registered cb], reply := some (.handle s.timers.length) }) ∨
      t = { s with reply := some .error } ∨
      (∃ k n, n ≠ 0#64 ∧ t = { s with timers := s.timers.modify k fun tm => tm.asOneShot n, reply := some .done }) ∨
      (∃ k n b, n ≠ 0#64 ∧ t = { s with timers := s.timers.modify k fun tm => tm.asCyclic n b, reply := some .done }) ∨
      (∃ k gap tm, s.timers[k]? = some tm ∧ tm.kind ≠ .unconfigured ∧ s.now + gap < Config.clockEnd ∧
        t = { s with now := s.now + gap, timers := s.timers.modify k fun tm => tm.startedAt (s.now + gap),
                     reply := some .done }) ∨
      ∃ k, t = { s with timers := (s.stopTimer k).timers, reply := some .done } := by
  cases call with
  | register cb => cases h; exact .inl ⟨cb, rfl⟩
  | configureOneShot k n =>
    simp only [State.timerCall] at h
    split at h
    · cases h
    · split at h
      · cases h
        exact .inr (.inl rfl)
      · rename_i hn
        cases h
        exact .inr (.inr (.inl ⟨k, n, hn, rfl⟩))
  | configureCyclic k n b =>
    simp only [State.timerCall] at h
    split at h
    · cases h
    · split at h
      · cases h
        exact .inr (.inl rfl)
      · rename_i hn
        cases h
        exact .inr (.inr (.inr (.inl ⟨k, n, b, hn, rfl⟩)))
  | start k gap =>
    simp only [State.timerCall] at h
    split at h
    · cases h
    · rename_i tm htm
      split at h
      · cases h
        exact .inr (.inl rfl)
      · rename_i hk
        split at h
        · cases h
        · rename_i u hu
          cases h
          obtain ⟨hc, rfl⟩ := State.readClock_cases hu
          exact .inr (.inr (.inr (.inr (.inl ⟨k, gap, tm, htm, hk, hc, rfl⟩))))
  | stop k =>
    simp only [State.timerCall] at h
    split at h
    · cases h
    · cases h
      exact .inr (.inr (.inr (.inr (.inr ⟨k, rfl⟩))))

/-- What a host command can do (60_exceptions.md R210). -/
theorem State.hostCommand_cases {s t : State} {c : HostCommand} (h : s.hostCommand c = .next t) :
    (c = .reset ∧ s.sched ≠ .running ∧ t = s.resetMachine) ∨
      (∃ bytes, c = .loadRom bytes ∧ s.sched ≠ .running ∧ t = s.loadRom bytes) ∨
      (c = .start ∧ s.sched = .notStarted ∧ t = s.startScheduler) ∨
      (∃ g, c = .pause g ∧ s.sched = .running ∧ s.now + g < Config.clockEnd ∧
        t = ({ s with now := s.now + g } : State).pauseScheduler) ∨
      (∃ g, c = .resume g ∧ s.sched = .paused ∧ s.now + g < Config.clockEnd ∧
        t = ({ s with now := s.now + g } : State).resumeScheduler) ∨
      ∃ call, c = .timer call ∧ s.sched ≠ .paused ∧ s.timerCall call = .next t := by
  cases c with
  | reset =>
    simp only [State.hostCommand] at h
    split at h
    · cases h
    · rename_i hs
      cases h
      exact .inl ⟨rfl, hs, rfl⟩
  | loadRom bytes =>
    simp only [State.hostCommand] at h
    split at h
    · cases h
    · rename_i hs
      cases h
      exact .inr (.inl ⟨bytes, rfl, hs, rfl⟩)
  | start =>
    simp only [State.hostCommand] at h
    split at h
    · rename_i hs
      cases h
      exact .inr (.inr (.inl ⟨rfl, hs, rfl⟩))
    · cases h
  | pause g =>
    simp only [State.hostCommand] at h
    split at h
    · rename_i hs
      split at h
      · rename_i u hu
        cases h
        obtain ⟨hc, rfl⟩ := State.readClock_cases hu
        exact .inr (.inr (.inr (.inl ⟨g, rfl, hs, hc, rfl⟩)))
      · cases h
    · cases h
  | resume g =>
    simp only [State.hostCommand] at h
    split at h
    · rename_i hs
      split at h
      · rename_i u hu
        cases h
        obtain ⟨hc, rfl⟩ := State.readClock_cases hu
        exact .inr (.inr (.inr (.inr (.inl ⟨g, rfl, hs, hc, rfl⟩))))
      · cases h
    · cases h
  | timer call =>
    simp only [State.hostCommand] at h
    split at h
    · cases h
    · rename_i hs
      exact .inr (.inr (.inr (.inr (.inr ⟨call, rfl, hs, h⟩))))

/-- What the collaborator's move can do (60_exceptions.md R206). -/
theorem State.rendererMove_cases (s : State) :
    (s.fbLock = .renderer ∧ s.rendererMove = { s with frame := s.fb, fbLock := .free, copyPending := false }) ∨
      (s.fbLock = .free ∧ s.composeBusy = true ∧ s.copyPending = true ∧
        s.rendererMove = { s with fbLock := .renderer }) ∨
      (s.fbLock = .free ∧ s.rendererMove = { s with composeBusy := false }) := by
  unfold State.rendererMove
  cases h : s.fbLock with
  | renderer => exact .inl ⟨rfl, by simp⟩
  | free =>
    refine .inr ?_
    by_cases hb : s.composeBusy = true ∧ s.copyPending = true
    · exact .inl ⟨rfl, hb.1, hb.2, by simp [hb.1, hb.2]⟩
    · refine .inr ⟨rfl, ?_⟩
      have : (s.composeBusy && s.copyPending) = false := by
        cases hc : s.composeBusy <;> cases hp : s.copyPending <;> simp_all
      simp [this]

end Sys2Proof.Machine
end

