-- ==== Sys2Proof/Tests/Slice0.lean ====
section
/-!
SUPPORT. Tests of the model's own: decoding of words written out from 30_encoding.md, the vectors of 95_test_vectors.md as
one step each, the checks of WellFormed, and a witness for the hypotheses of every obligation that has some.
-/

namespace Sys2Proof.Tests

set_option Elab.async false

open Sys2Proof.Machine

/-! ### Helpers -/

/-- The state after reset with these registers. -/
def withRegs (regs : List (Nibble × Byte)) : State := regs.foldl (fun s r => s.setReg r.1 r.2) State.reset

/-- The step that runs the word at PC answers a state that passes the check. -/
def cycle (s : State) (w : Nat) (check : State → Bool) : Bool :=
  match step (s.withFetchWord 16 w) with
  | .next t => check t
  | .fault _ => false
  | .refused _ => false

/-- The trap record and PC after a step. -/
def trapped (kind : TrapKind) (op pc : Word) (addr : Nat) (t : State) : Bool :=
  decide (t.trap = some ⟨kind, op, pc, addr⟩)

/-- Register, value. -/
def regIs (x : Nibble) (b : Byte) (t : State) : Bool := t.reg x == b

/-- PC after the step. -/
def pcIs (pc : Word) (t : State) : Bool := t.pc == pc

/-! ### Decoding (30_encoding.md R61 to R66; 95_test_vectors.md section 2) -/

theorem test_decode_control :
    decode 0x00EE#16 = .instr (.ret) ∧
    decode 0x1ABC#16 = .instr (.jp 0xABC#12) ∧
    decode 0x2DEF#16 = .instr (.call 0xDEF#12) ∧
    decode 0xBF00#16 = .instr (.jpV0 0xF00#12) ∧
    decode 0x3A7F#16 = .instr (.seImm 0xA#4 0x7F#8) ∧
    decode 0x4B01#16 = .instr (.sneImm 0xB#4 0x01#8) ∧
    decode 0x5121#16 = .instr (.seReg 0x1#4 0x2#4 0x1#4) ∧
    decode 0x912F#16 = .instr (.sneReg 0x1#4 0x2#4 0xF#4) := by decide

theorem test_decode_alu_immediate :
    decode 0x6C05#16 = .instr (.ldImm 0xC#4 0x05#8) ∧
    decode 0x7D80#16 = .instr (.addImm 0xD#4 0x80#8) ∧
    decode 0xC70F#16 = .instr (.rnd 0x7#4 0x0F#8) := by decide

theorem test_decode_alu :
    decode 0x8120#16 = .instr (.ldReg 0x1#4 0x2#4) ∧
    decode 0x8341#16 = .instr (.orReg 0x3#4 0x4#4) ∧
    decode 0x8562#16 = .instr (.andReg 0x5#4 0x6#4) ∧
    decode 0x8783#16 = .instr (.xorReg 0x7#4 0x8#4) ∧
    decode 0x89A4#16 = .instr (.addReg 0x9#4 0xA#4) ∧
    decode 0x8BC5#16 = .instr (.subReg 0xB#4 0xC#4) ∧
    decode 0x8126#16 = .instr (.shr 0x1#4 0x2#4) ∧
    decode 0x8DE7#16 = .instr (.subnReg 0xD#4 0xE#4) ∧
    decode 0x812E#16 = .instr (.shl 0x1#4 0x2#4) := by decide

theorem test_decode_index :
    decode 0xA300#16 = .instr (.ldI 0x300#12) ∧
    decode 0xF51E#16 = .instr (.addI 0x5#4) ∧
    decode 0xF629#16 = .instr (.ldF 0x6#4) ∧
    decode 0xF733#16 = .instr (.ldB 0x7#4) ∧
    decode 0xF855#16 = .instr (.store 0x8#4) ∧
    decode 0xF965#16 = .instr (.load 0x9#4) := by decide

theorem test_decode_frame :
    decode 0x00E0#16 = .instr (.cls) ∧
    decode 0xD125#16 = .instr (.drw 0x1#4 0x2#4 0x5#4) := by decide

theorem test_decode_keys_timers :
    decode 0xE19E#16 = .instr (.skp 0x1#4) ∧
    decode 0xE1A1#16 = .instr (.sknp 0x1#4) ∧
    decode 0xF107#16 = .instr (.ldVxDt 0x1#4) ∧
    decode 0xF20A#16 = .instr (.ldVxK 0x2#4) ∧
    decode 0xF315#16 = .instr (.ldDtVx 0x3#4) ∧
    decode 0xF418#16 = .instr (.ldStVx 0x4#4) := by decide

/-- The invalid words of the decode vectors. -/
theorem test_decode_invalid :
    decode 0x0000#16 = .reject .invalidOpCode ∧ decode 0x00E1#16 = .reject .invalidOpCode ∧
    decode 0x8128#16 = .reject .invalidOpCode ∧ decode 0x812F#16 = .reject .invalidOpCode ∧
    decode 0xE19F#16 = .reject .invalidOpCode ∧ decode 0xE1A0#16 = .reject .invalidOpCode ∧
    decode 0xF134#16 = .reject .invalidOpCode ∧ decode 0xF1FF#16 = .reject .invalidOpCode := by decide

/-- Two bytes are one instruction, the first byte the high one (20_memory.md R41); one byte is none. -/
theorem test_decodeBytes :
    decodeBytes [0x12#8, 0x34#8, 0x56#8] = (.instr (.jp 0x234#12), [0x56#8]) ∧
    decodeBytes [0x12#8] = (.reject .truncated, [0x12#8]) := by decide

theorem test_decodeTableWord :
    decodeTableWord 16 0xD125 = some (.drw 0x1#4 0x2#4 0x5#4) ∧ decodeTableWord 16 0x0000 = none := by decide

/-! ### WellFormed: an ill-formed term for each check -/

theorem test_wf_accepts : Instr.wf (.seReg 0x1#4 0x2#4 0x0#4) = true ∧ Instr.wf (.drw 0x1#4 0x2#4 0xF#4) = true := by decide

theorem test_wf_refuses_seReg : Instr.wf (.seReg 0x1#4 0x2#4 0x1#4) = false := by decide

theorem test_wf_refuses_sneReg : Instr.wf (.sneReg 0x1#4 0x2#4 0xF#4) = false := by decide

theorem test_wf_refuses_shr : Instr.wf (.shr 0x1#4 0x2#4) = false := by decide

theorem test_wf_refuses_shl : Instr.wf (.shl 0x1#4 0x2#4) = false := by decide

theorem test_config_default : Config.default.wf = true := by decide

theorem test_config_refuses_memory :
    Config.wf { Config.default with progStart := 79 } = false ∧
    Config.wf { Config.default with progStart := 4096 } = false ∧
    Config.wf { Config.default with memSize := 65537 } = false := by decide

theorem test_config_refuses_stack :
    Config.wf { Config.default with stackCap := 0 } = false ∧
    Config.wf { Config.default with stackCap := 256 } = false ∧
    Config.wf { Config.default with spEmpty := 0x0F#8 } = false := by decide

theorem test_config_refuses_display :
    Config.wf { Config.default with dispW := 48 } = false ∧
    Config.wf { Config.default with dispW := 4 } = false ∧
    Config.wf { Config.default with dispH := 24 } = false := by decide

theorem test_config_refuses_rates :
    Config.wf { Config.default with cpuHz := 0 } = false ∧
    Config.wf { Config.default with cpuHz := 1000000001 } = false ∧
    Config.wf { Config.default with frameHz := 0 } = false ∧
    Config.wf { Config.default with frameHz := 1000000001 } = false ∧
    Config.wf { Config.default with maxExecPerWake := 0 } = false := by decide

theorem test_config_refuses_timers :
    Config.wf { Config.default with timerOrder := [.cpu, .decay, .decay] } = false ∧
    Config.wf { Config.default with timerOrder := [.cpu, .decay] } = false := by decide

/-! ### One cycle each (95_test_vectors.md sections 3 to 7) -/

/-- T1 -/
theorem test_ret :
    cycle { State.reset with pc := 0x020E#16, sp := 0x00#8, stack := State.reset.stack.set 0 0x0204#16 } 0x00EE (fun t => pcIs 0x0204#16 t && t.sp == 0xFF#8) = true := by decide +kernel

/-- T2 -/
theorem test_ret_underflow :
    cycle State.reset 0x00EE (fun t => trapped .stackUnderflow 0x00EE#16 0x0200#16 0x0000 t && pcIs 0x0200#16 t && t.sp == 0xFF#8) = true := by decide +kernel

/-- T3 -/
theorem test_jp :
    cycle { State.reset with pc := 0x0204#16 } 0x1204 (fun t => pcIs 0x0204#16 t && t.jumpFlag == false) = true := by decide +kernel

/-- T4, first cycle -/
theorem test_jp_beyond :
    cycle State.reset 0x1FFF (fun t => pcIs 0x0FFF#16 t && t.trap.isNone) = true := by decide +kernel

/-- T5 -/
theorem test_call :
    cycle { State.reset with pc := 0x0202#16 } 0x2208 (fun t => pcIs 0x0208#16 t && t.sp == 0x00#8 && t.stack[0]? == some 0x0204#16) = true := by decide +kernel

/-- T6 -/
theorem test_call_overflow :
    cycle { State.reset with pc := 0x0250#16, sp := 0x0F#8 } 0x2ABC (fun t => trapped .stackOverflow 0x2ABC#16 0x0250#16 0x0252 t && pcIs 0x0250#16 t && t.sp == 0x0F#8 && t.stack == State.reset.stack) = true := by decide +kernel

/-- T7 -/
theorem test_jpV0 :
    cycle (withRegs [(0x0#4, 0x04#8)]) 0xB300 (fun t => pcIs 0x0304#16 t) = true := by decide +kernel

/-- T8, first cycle -/
theorem test_jpV0_outside :
    cycle (withRegs [(0x0#4, 0xFF#8)]) 0xBFFF (fun t => pcIs 0x10FE#16 t) = true := by decide +kernel

/-- T9 -/
theorem test_seImm_taken :
    cycle { State.reset with pc := 0x0208#16 } 0x3100 (fun t => pcIs 0x020C#16 t) = true := by decide +kernel

/-- T14 -/
theorem test_seImm_trap :
    cycle { State.reset with pc := 0x0FFC#16 } 0x3000 (fun t => trapped .programCounterOutOfBounds 0x3000#16 0x0FFE#16 0x1000 t && pcIs 0x0FFE#16 t) = true := by decide +kernel

/-- T10 -/
theorem test_sneImm_not_taken :
    cycle (withRegs [(0x0#4, 0x05#8)]) 0x4005 (fun t => pcIs 0x0202#16 t) = true := by decide +kernel

/-- T10b -/
theorem test_sneImm_taken :
    cycle (withRegs [(0x0#4, 0x06#8)]) 0x4005 (fun t => pcIs 0x0204#16 t) = true := by decide +kernel

/-- T11 -/
theorem test_seReg :
    cycle (withRegs [(0x1#4, 0x07#8), (0x2#4, 0x07#8)]) 0x5121 (fun t => pcIs 0x0204#16 t) = true := by decide +kernel

/-- T11b -/
theorem test_sneReg_same :
    cycle (withRegs [(0x1#4, 0x07#8)]) 0x9110 (fun t => pcIs 0x0202#16 t) = true := by decide +kernel

/-- T11c -/
theorem test_sneReg :
    cycle (withRegs [(0x1#4, 0x07#8), (0x2#4, 0x08#8)]) 0x9120 (fun t => pcIs 0x0204#16 t) = true := by decide +kernel

/-- T12: the effect stays, the advance traps -/
theorem test_ldImm_last :
    cycle { State.reset with pc := 0x0FFE#16 } 0x6A07 (fun t => regIs 0xA#4 0x07#8 t && trapped .programCounterOutOfBounds 0x6A07#16 0x0FFE#16 0x1000 t && pcIs 0x0FFE#16 t) = true := by decide +kernel

/-- AL2 -/
theorem test_ldImm_flag :
    cycle State.reset 0x6FAB (fun t => regIs 0xF#4 0xAB#8 t && pcIs 0x0202#16 t) = true := by decide +kernel

/-- AL4 -/
theorem test_addImm :
    cycle (withRegs [(0x1#4, 0xFF#8), (0xF#4, 0x55#8)]) 0x7101 (fun t => regIs 0x1#4 0x00#8 t && regIs 0xF#4 0x55#8 t) = true := by decide +kernel

/-- AL5 -/
theorem test_addImm_flag :
    cycle (withRegs [(0xF#4, 0xFF#8)]) 0x7F01 (fun t => regIs 0xF#4 0x00#8 t) = true := by decide +kernel

/-- AL7 -/
theorem test_ldReg :
    cycle (withRegs [(0x1#4, 0x77#8)]) 0x8F10 (fun t => regIs 0xF#4 0x77#8 t && regIs 0x1#4 0x77#8 t) = true := by decide +kernel

/-- AL8 -/
theorem test_orReg :
    cycle (withRegs [(0x1#4, 0xF0#8), (0x2#4, 0x0F#8), (0xF#4, 0x55#8)]) 0x8121 (fun t => regIs 0x1#4 0xFF#8 t && regIs 0x2#4 0x0F#8 t && regIs 0xF#4 0x55#8 t) = true := by decide +kernel

/-- AL9 -/
theorem test_andReg :
    cycle (withRegs [(0x1#4, 0xF3#8), (0x2#4, 0x3F#8)]) 0x8122 (fun t => regIs 0x1#4 0x33#8 t && regIs 0x2#4 0x3F#8 t) = true := by decide +kernel

/-- AL10 -/
theorem test_xorReg :
    cycle (withRegs [(0x1#4, 0xFF#8), (0x2#4, 0x0F#8)]) 0x8123 (fun t => regIs 0x1#4 0xF0#8 t && regIs 0x2#4 0x0F#8 t) = true := by decide +kernel

/-- AL11 -/
theorem test_xorReg_same :
    cycle (withRegs [(0x1#4, 0xAA#8)]) 0x8113 (fun t => regIs 0x1#4 0x00#8 t) = true := by decide +kernel

/-- AL13 -/
theorem test_addReg :
    cycle (withRegs [(0x1#4, 0xFF#8), (0x2#4, 0xFF#8)]) 0x8124 (fun t => regIs 0x1#4 0xFE#8 t && regIs 0xF#4 0x01#8 t) = true := by decide +kernel

/-- AL16 -/
theorem test_addReg_flag :
    cycle (withRegs [(0xF#4, 0xF0#8), (0x1#4, 0x20#8)]) 0x8F14 (fun t => regIs 0xF#4 0x10#8 t) = true := by decide +kernel

/-- AL19 -/
theorem test_subReg_equal :
    cycle (withRegs [(0x1#4, 0x07#8), (0x2#4, 0x07#8)]) 0x8125 (fun t => regIs 0x1#4 0x00#8 t && regIs 0xF#4 0x00#8 t) = true := by decide +kernel

/-- AL23 -/
theorem test_subReg_flag :
    cycle (withRegs [(0x1#4, 0x05#8), (0xF#4, 0x03#8)]) 0x81F5 (fun t => regIs 0x1#4 0x02#8 t && regIs 0xF#4 0x01#8 t) = true := by decide +kernel

/-- AL25 -/
theorem test_subnReg :
    cycle (withRegs [(0x1#4, 0x05#8), (0x2#4, 0x02#8)]) 0x8127 (fun t => regIs 0x1#4 0xFD#8 t && regIs 0xF#4 0x00#8 t) = true := by decide +kernel

/-- AL27 -/
theorem test_subnReg_flag :
    cycle (withRegs [(0xF#4, 0x03#8), (0x1#4, 0x05#8)]) 0x8F17 (fun t => regIs 0xF#4 0x02#8 t) = true := by decide +kernel

/-- AL31 -/
theorem test_shr :
    cycle (withRegs [(0x1#4, 0x04#8), (0x2#4, 0xFF#8)]) 0x8126 (fun t => regIs 0x1#4 0x02#8 t && regIs 0xF#4 0x00#8 t && regIs 0x2#4 0xFF#8 t) = true := by decide +kernel

/-- AL32 -/
theorem test_shr_flag :
    cycle (withRegs [(0xF#4, 0x07#8)]) 0x8F06 (fun t => regIs 0xF#4 0x03#8 t) = true := by decide +kernel

/-- AL33 -/
theorem test_shl :
    cycle (withRegs [(0x1#4, 0x81#8)]) 0x810E (fun t => regIs 0x1#4 0x02#8 t && regIs 0xF#4 0x01#8 t) = true := by decide +kernel

/-- AL36 -/
theorem test_shl_flag :
    cycle (withRegs [(0xF#4, 0xC1#8)]) 0x8F0E (fun t => regIs 0xF#4 0x82#8 t) = true := by decide +kernel

/-- AL38: with the mask 0 every draw gives 0. -/
theorem test_rnd_mask_zero : ∃ t, exec (.rnd 0x1#4 0x00#8) (withRegs [(0x1#4, 0xFF#8)]) = .next t ∧ t.reg 0x1#4 = 0x00#8 :=
  ⟨_, rfl, by simp⟩

/-- AL39: with the mask 0xFF the register is the draw. -/
theorem test_rnd_mask_all : ∃ t, exec (.rnd 0x1#4 0xFF#8) State.reset = .next t ∧ t.reg 0x1#4 = Config.randomByte 0 :=
  ⟨_, rfl, by rw [State.reg_setReg_same]; exact BitVec.and_allOnes⟩

/-- M1 -/
theorem test_ldI :
    cycle State.reset 0xA300 (fun t => t.i == 0x0300#16) = true := by decide +kernel

/-- M2 -/
theorem test_addI :
    cycle { withRegs [(0x1#4, 0x10#8)] with i := 0x0300#16 } 0xF11E (fun t => t.i == 0x0310#16 && regIs 0xF#4 0x01#8 t) = true := by decide +kernel

/-- M3 -/
theorem test_addI_wraps :
    cycle { withRegs [(0xF#4, 0x01#8)] with i := 0xFFFF#16 } 0xFF1E (fun t => t.i == 0x0000#16 && regIs 0xF#4 0x01#8 t) = true := by decide +kernel

/-- M4 -/
theorem test_ldF :
    cycle (withRegs [(0x0#4, 0x0A#8)]) 0xF029 (fun t => t.i == 0x0032#16) = true := by decide +kernel

/-- M5 -/
theorem test_ldF_unmasked :
    cycle (withRegs [(0x0#4, 0xFF#8)]) 0xF029 (fun t => t.i == 0x04FB#16) = true := by decide +kernel

/-- M7 -/
theorem test_ldB :
    cycle { withRegs [(0x0#4, 0xFF#8)] with i := 0x0FFD#16 } 0xF033 (fun t => t.readByte 0xFFD == 0x02#8 && t.readByte 0xFFE == 0x05#8 && t.readByte 0xFFF == 0x05#8) = true := by decide +kernel

/-- M8 -/
theorem test_ldB_trap :
    cycle { withRegs [(0x0#4, 0xFF#8)] with i := 0x0FFE#16 } 0xF033 (fun t => trapped .memoryAccessOutOfBounds 0xF033#16 0x0200#16 0x0FFE t && t.readByte 0xFFE == 0x00#8 && pcIs 0x0200#16 t) = true := by decide +kernel

/-- M9 -/
theorem test_store :
    cycle { withRegs [(0x0#4, 0x01#8), (0xF#4, 0xEE#8)] with i := 0x0FF0#16 } 0xFF55 (fun t => t.readByte 0xFF0 == 0x01#8 && t.readByte 0xFF1 == 0x00#8 && t.readByte 0xFFF == 0xEE#8 && t.i == 0x0FF0#16) = true := by decide +kernel

/-- M10 -/
theorem test_store_trap :
    cycle { withRegs [(0x0#4, 0x01#8), (0xF#4, 0xEE#8)] with i := 0x0FF1#16 } 0xFF55 (fun t => trapped .memoryAccessOutOfBounds 0xFF55#16 0x0200#16 0x0FF1 t && t.readByte 0xFF1 == 0x00#8) = true := by decide +kernel

/-- M11 -/
theorem test_load :
    cycle State.reset 0xF265 (fun t => regIs 0x0#4 0xF0#8 t && regIs 0x1#4 0x90#8 t && regIs 0x2#4 0x90#8 t && regIs 0x3#4 0x00#8 t && t.i == 0x0000#16) = true := by decide +kernel

/-- M12 -/
theorem test_load_trap :
    cycle { withRegs [(0x0#4, 0x09#8)] with i := 0x0FFE#16 } 0xF265 (fun t => trapped .memoryAccessOutOfBounds 0xF265#16 0x0200#16 0x0FFE t && regIs 0x0#4 0x09#8 t) = true := by decide +kernel

/-- G10 -/
theorem test_cls :
    cycle { withRegs [(0xF#4, 0x09#8)] with fb := [(195, 0xFF#8)] } 0x00E0 (fun t => t.fb == [] && regIs 0xF#4 0x09#8 t && pcIs 0x0202#16 t) = true := by decide +kernel

/-- G9, first cycle -/
theorem test_drw_arms :
    cycle { State.reset with timers := State.reset.timers.modify 2 fun tm => tm.startedAt 0 } 0xD005 (fun t => t.drawPhase == .waiting && t.drawDeadline == 16666666 && pcIs 0x0200#16 t) = true := by decide +kernel

/-- G1: clipped at both edges -/
theorem test_drw_commits :
    cycle { (withRegs [(0x0#4, 62#8), (0x1#4, 30#8)]).storeBytes 0x300 [0xFF#8, 0xFF#8, 0xFF#8] with i := 0x0300#16, drawPhase := .waiting } 0xD013 (fun t => t.fb == [(30 * 64 + 62, 0xFF#8), (30 * 64 + 63, 0xFF#8), (31 * 64 + 62, 0xFF#8), (31 * 64 + 63, 0xFF#8)] && regIs 0xF#4 0x00#8 t && pcIs 0x0202#16 t) = true := by decide +kernel

/-- G3 -/
theorem test_drw_collides :
    cycle { (withRegs [(0xF#4, 0x07#8)]).storeBytes 0x300 [0xC0#8] with i := 0x0300#16, drawPhase := .waiting, fb := [(1, 0xFF#8)] } 0xD011 (fun t => t.fb == [(0, 0xFF#8)] && regIs 0xF#4 0x01#8 t) = true := by decide +kernel

/-- KT1: the key index is the low nibble of VX. -/
theorem test_skp (h : Config.keyPressed 0 0x5#4 = true) :
    ∃ t, exec (.skp 0x1#4) (withRegs [(0x1#4, 0x25#8)]) = .next t ∧ t.pc = 0x0202#16 :=
  ⟨_, rfl, by
    have : (withRegs [(0x1#4, 0x25#8)]).keyPressed (keyOf ((withRegs [(0x1#4, 0x25#8)]).reg 0x1#4)) = true := h
    rw [this]
    rfl⟩

/-- KT3. -/
theorem test_sknp (h : Config.keyPressed 0 0x5#4 = false) :
    ∃ t, exec (.sknp 0x1#4) (withRegs [(0x1#4, 0x05#8)]) = .next t ∧ t.pc = 0x0202#16 :=
  ⟨_, rfl, by
    have : (withRegs [(0x1#4, 0x05#8)]).keyPressed (keyOf ((withRegs [(0x1#4, 0x05#8)]).reg 0x1#4)) = false := h
    rw [this]
    rfl⟩

/-- KT4, first cycle -/
theorem test_ldVxK_counts :
    cycle State.reset 0xF30A (fun t => t.keyCounter == 1 && pcIs 0x0200#16 t && t.jumpFlag == false) = true := by decide +kernel

/-- KT7 -/
theorem test_ldVxDt :
    cycle { State.reset with dt := 0x1E#8 } 0xF207 (fun t => regIs 0x2#4 0x1E#8 t) = true := by decide +kernel

/-- KT8 -/
theorem test_ldDtVx :
    cycle (withRegs [(0x2#4, 0x3C#8)]) 0xF215 (fun t => t.dt == 0x3C#8) = true := by decide +kernel

/-- KT9 -/
theorem test_ldStVx_starts :
    cycle (withRegs [(0x2#4, 0x0A#8)]) 0xF218 (fun t => t.st == 0x0A#8 && t.out == [(.playTone, 0)] && t.tone) = true := by decide +kernel

/-- KT10 -/
theorem test_ldStVx_stops :
    cycle { State.reset with st := 0x05#8, tone := true } 0xF218 (fun t => t.st == 0x00#8 && t.out == [(.stopTone, 0)] && t.tone == false) = true := by decide +kernel

/-- section 2: an invalid word -/
theorem test_invalid :
    cycle State.reset 0x0000 (fun t => trapped .invalidOpCode 0x0000#16 0x0200#16 0x0200 t && pcIs 0x0200#16 t && (t.timers[0]?.map Timer.active) == some false) = true := by decide +kernel

/-- S5 -/
theorem test_fetch_outside :
    cycle { State.reset with pc := 0x0FFF#16 } 0x6105 (fun t => trapped .programCounterOutOfBounds 0x0000#16 0x0FFF#16 0x0FFF t && pcIs 0x0FFF#16 t) = true := by decide +kernel

/-! ### The scheduler and the host (95_test_vectors.md section 8) -/

/-- A decay timer due at 16,666,666. -/
def decayTimer : Timer := (Timer.resetRow Config.default .decay).startedAt 0

/-- W2. -/
theorem test_skip_one_period : (decayTimer.reschedule 18000000).nextDeadline = 33333332 := by decide +kernel

/-- W3: one tick is dropped. -/
theorem test_skip_two_periods : (decayTimer.reschedule 40000000).nextDeadline = 49999998 := by decide +kernel

/-- W3b: late by exactly one period, the deadline is the snapshot, so the timer is due again. -/
theorem test_skip_exact_multiple :
    (decayTimer.reschedule 33333332).nextDeadline = 33333332 ∧ (decayTimer.reschedule 33333332).due 33333332 = true ∧
    ((decayTimer.reschedule 33333332).reschedule 33333332).nextDeadline = 49999998 := by decide +kernel

/-- W1: the strict timer. -/
theorem test_strict :
    (((Timer.resetRow Config.default .cpu).startedAt 0).reschedule 6000001).nextDeadline = 4000000 := by decide +kernel

/-- W4: a quarter of a period is left after the pause. -/
theorem test_pause_resume :
    let tm := { decayTimer with period := 16000000, nextDeadline := 16000000 }
    (tm.pausedAt 12000000).phaseOffset = 4000000 ∧
    ((tm.pausedAt 12000000).resumedAt 500000000).nextDeadline = 504000000 := by decide +kernel

/-- W9: a zero period is an error and changes no timer. -/
theorem test_zero_period :
    State.reset.hostCommand (.timer (.configureCyclic 1 0 true)) = .next { State.reset with reply := some .error } := rfl

/-- R49: a ROM of `MEM_SIZE - PROG_START` bytes is refused, and an empty one is loaded. -/
theorem test_loadRom_bound :
    State.reset.loadRom (List.replicate 3584 0x00#8) = { State.reset with reply := some (.romLoaded false) } ∧
    State.reset.loadRom [] = { State.reset with reply := some (.romLoaded true) } :=
  ⟨by rw [State.loadRom, if_neg (by rw [List.length_replicate]; decide)]; rfl, by decide +kernel⟩

/-- R172: the tick that brings ST to 0 stops the tone, and a register at 0 stays there. -/
theorem test_decay :
    let s := { State.reset with st := 0x01#8, tone := true }
    s.decay60.st = 0x00#8 ∧ s.decay60.dt = 0x00#8 ∧ s.decay60.out = [(.stopTone, 0)] ∧ s.decay60.tone = false := by
  decide +kernel

/-- R159: a move of the scheduler between wakes takes the snapshot and begins a wake. -/
theorem test_wake_begins :
    (match step { State.reset with sched := .running, moves := [.scheduler 5] } with
      | .next t => t.tickTime == 5 && t.wake == some ⟨0, 0⟩
      | .fault _ => false
      | .refused _ => false) = true := by decide +kernel

/-- R132 (44_draw.md, corner cases): a deadline recorded when it is already at `TickTime` lets the next cycle commit. -/
theorem test_draw_armed_late :
    (match exec (.drw 0x0#4 0x0#4 0x5#4) { State.reset with
        tickTime := 16666666, timers := State.reset.timers.modify 2 fun tm => tm.startedAt 0 } with
      | .next t =>
        t.drawPhase == .waiting && t.drawDeadline == 16666666 &&
          (match exec (.drw 0x0#4 0x0#4 0x5#4) { t with jumpFlag := false } with
            | .next u => u.drawPhase == .armed && u.jumpFlag == false && u.pixel 0 0 == 0xFF#8
            | .fault _ => false
            | .refused _ => false)
      | .fault _ => false
      | .refused _ => false) = true := by decide +kernel

/-- R209, R231: in the same late wake a second draw stays armed at the deadline at which one has committed. -/
theorem test_one_draw_per_deadline :
    (match exec (.drw 0x0#4 0x0#4 0x5#4) { State.reset with
        tickTime := 16666666, drawnDeadline := some 16666666,
        timers := State.reset.timers.modify 2 fun tm => tm.startedAt 0 } with
      | .next t => t.drawPhase == .armed && t.jumpFlag && t.fb == []
      | .fault _ => false
      | .refused _ => false) = true := by decide +kernel

/-- R86: a timer of the host's with the callback `CpuCycle` fires and runs no cycle. -/
theorem test_only_cpu_timer_runs_cycles :
    (match step { State.reset with
        sched := .running, wake := some ⟨3, 0⟩, moves := [.scheduler 0],
        timers := State.reset.timers ++ [{ (Timer.registered .cpuCycle).asCyclic 5#64 false with active := true }] } with
      | .next t => t.pc == 0x0200#16 && t.trap.isNone && t.wake == some ⟨3, 1⟩
      | .fault _ => false
      | .refused _ => false) = true := by decide +kernel

/-- R210: `Pause` is not admitted before `Start`. -/
theorem test_pause_refused : State.reset.hostCommand (.pause 0) = .refused .commandNotAdmitted := rfl

/-! ### Witnesses: states and operands that meet the hypotheses of each obligation -/

theorem witness_EncodeOfDecodeIsTheWord : decode 0x5121#16 = .instr (.seReg 0x1#4 0x2#4 0x1#4) := by decide

theorem witness_OpcodeMapRowsSelectTheirWords :
    (⟨0xF00F#16, 0x800E#16⟩ : OpcodeRow) ∈ opcodeRows ∧
    (⟨0xF00F#16, 0x800E#16⟩ : OpcodeRow).selects 0x812E#16 = true ∧
    decode 0x812E#16 = .instr (.shl 0x1#4 0x2#4) := by decide

/-- A running machine inside a wake that stands at the timer `h`, which is due; a move of the scheduler is pending. -/
def firing (h : Nat) : State :=
  { State.reset with
    sched := .running, now := 40000000, tickTime := 40000000, wake := some ⟨h, 0⟩, moves := [.scheduler 0],
    timers := State.reset.timers.modify h fun tm => tm.startedAt 0 }

/-- The CPU's timer at its deadline, with `LD V1, 0x05` at PC. -/
def cpuFiring : State := { (firing 0).storeBytes 0x200 [0x61#8, 0x05#8] with tickTime := 2000000 }

/-- A machine that has trapped and whose `T_CPU` the host has started again. -/
def trappedFiring : State := { cpuFiring with trap := some ⟨.invalidOpCode, 0x0000#16, 0x0200#16, 0x0200⟩ }

/-- The clause of a wake's beginning: the last reading below 2^64. -/
theorem witness_StepBeginsAWake :
    ∃ s u : State, s.takeMove = (.scheduler 18446744073709551615, u) ∧ s.sched = .running ∧ s.wake = none ∧
      s.hostQueue = [] ∧ s.now + 18446744073709551615 + 1 = Config.clockEnd :=
  ⟨{ State.reset with sched := .running, moves := [.scheduler 18446744073709551615] }, _, rfl, rfl, rfl, rfl,
    by decide +kernel⟩

/-- The clause of a wake's end: the place just past the last timer. -/
theorem witness_StepEndsAWake :
    ∃ s u : State, s.takeMove = (.scheduler 0, u) ∧ s.sched = .running ∧ s.wake = some ⟨3, 0⟩ ∧ s.timers.length = 3 :=
  ⟨{ firing 0 with wake := some ⟨3, 0⟩ }, _, rfl, rfl, rfl, rfl⟩

/-- The clause of a timer passed over: one not active, one a nanosecond early, one that has reached the bound. -/
theorem witness_StepPassesATimerOver :
    (∃ tm, { State.reset with sched := .running, wake := some ⟨0, 0⟩, moves := [.scheduler 0] }.StandsAt
      { State.reset with sched := .running, wake := some ⟨0, 0⟩ } ⟨0, 0⟩ tm ∧ tm.active = false) ∧
    (∃ tm, { cpuFiring with tickTime := 1999999 }.StandsAt { cpuFiring with tickTime := 1999999, moves := [] } ⟨0, 0⟩ tm ∧
      1999999 + 1 = tm.nextDeadline) ∧
    ∃ tm, { cpuFiring with wake := some ⟨0, 4⟩ }.StandsAt { cpuFiring with wake := some ⟨0, 4⟩, moves := [] } ⟨0, 4⟩ tm ∧
      cpuFiring.cfg.maxExecPerWake = 4 :=
  ⟨⟨_, ⟨⟨0, rfl⟩, rfl, rfl, rfl⟩, rfl⟩, ⟨_, ⟨⟨0, rfl⟩, rfl, rfl, rfl⟩, by decide +kernel⟩,
    ⟨_, ⟨⟨0, rfl⟩, rfl, rfl, rfl⟩, rfl⟩⟩

/-- `T_CPU` as it stands in `cpuFiring`, exactly at its deadline. -/
def cpuTimer : Timer := (Timer.resetRow Config.default .cpu).startedAt 0

theorem cpuFiring_fires : cpuFiring.FiresCpu { cpuFiring with moves := [] } ⟨0, 0⟩ cpuTimer :=
  ⟨⟨⟨⟨0, rfl⟩, rfl, rfl, rfl⟩, by decide, rfl, by decide +kernel, by decide⟩, rfl, rfl⟩

/-- The clause of the instruction run, and the one of the cycle held at `FBLock` (`00E0` at PC). -/
theorem witness_StepRunsTheDecodedInstruction :
    (∃ t, cpuFiring.FiresCpu { cpuFiring with moves := [] } ⟨0, 0⟩ cpuTimer ∧ cpuFiring.trap = none ∧
      cpuFiring.pc.toNat + 1 < cpuFiring.cfg.memSize ∧
      decode (BitVec.ofNat 16 ((cpuFiring.readByte cpuFiring.pc.toNat).toNat * 256 +
        (cpuFiring.readByte (cpuFiring.pc.toNat + 1)).toNat)) = .instr (.ldImm 0x1#4 0x05#8) ∧
      cpuFiring.fbLock = .free ∧ exec (.ldImm 0x1#4 0x05#8) { cpuFiring with moves := [] } = .next t) ∧
    ∃ s : State, s.FiresCpu { s with moves := [] } ⟨0, 0⟩ cpuTimer ∧ s.trap = none ∧
      s.pc.toNat + 1 < s.cfg.memSize ∧
      decode (BitVec.ofNat 16 ((s.readByte s.pc.toNat).toNat * 256 + (s.readByte (s.pc.toNat + 1)).toNat)) =
        .instr .cls ∧
      s.fbLock = .renderer ∧ needsLock s .cls = true :=
  ⟨⟨_, cpuFiring_fires, rfl, by decide +kernel, by decide +kernel, rfl, rfl⟩,
    { cpuFiring.storeBytes 0x200 [0x00#8, 0xE0#8] with fbLock := .renderer },
    ⟨⟨⟨⟨0, rfl⟩, rfl, rfl, rfl⟩, by decide, rfl, by decide +kernel, by decide⟩, rfl, rfl⟩, rfl, by decide +kernel,
    by decide +kernel, rfl, rfl⟩

/-- The clause of a firing without a cycle: `T_CPU` of a trapped machine, and another timer with the CPU's callback. -/
theorem witness_StepFiresWithoutACycle :
    (∃ tm, trappedFiring.Fires { trappedFiring with moves := [] } ⟨0, 0⟩ tm ∧ tm.callback = .cpuCycle ∧
      trappedFiring.trap.isSome) ∧
    ∃ (s : State) (tm : Timer), s.Fires { s with moves := [] } ⟨3, 0⟩ tm ∧ tm.callback = .cpuCycle ∧
      3 ≠ s.cfg.handleOf .cpu :=
  ⟨⟨_, ⟨⟨⟨0, rfl⟩, rfl, rfl, rfl⟩, by decide, rfl, by decide +kernel, by decide⟩, rfl, rfl⟩,
    { firing 0 with
        wake := some ⟨3, 0⟩,
        timers := State.reset.timers ++ [((Timer.registered .cpuCycle).asCyclic 5#64 false).startedAt 0] },
    _, ⟨⟨⟨0, rfl⟩, rfl, rfl, rfl⟩, by decide, rfl, by decide +kernel, by decide⟩, rfl, by decide⟩

/-- The clause of a scheduler that does not run: a paused one, and one not started. -/
theorem witness_StepOfAnIdleScheduler :
    (∃ s u : State, s.takeMove = (.scheduler 5, u) ∧ s.sched = .paused ∧ s.wake = none ∧ s.hostQueue = []) ∧
    ∃ s u : State, s.takeMove = (.scheduler 5, u) ∧ s.sched = .notStarted ∧ s.wake = none ∧ s.hostQueue = [] :=
  ⟨⟨{ State.reset with sched := .paused, moves := [.scheduler 5] }, _, rfl, rfl, rfl, rfl⟩,
    ⟨{ State.reset with moves := [.scheduler 5] }, _, rfl, rfl, rfl, rfl⟩⟩

/-- The last address from which the PC update stays in memory, the first from which it leaves, and an instruction that is none
of the three with extra bytes. -/
theorem witness_PcUpdateAdvancesHoldsOrTraps :
    (∃ s : State, s.trap = none ∧ s.jumpFlag = true) ∧
    (∃ s : State, s.trap = none ∧ s.jumpFlag = false ∧ s.cfg.memSize ≤ 65536 ∧ s.pc.toNat + 2 + 0 + 1 = s.cfg.memSize) ∧
    (∃ s : State, s.trap = none ∧ s.jumpFlag = false ∧ s.pc.toNat + 2 + 0 = s.cfg.memSize) ∧
    trappedFiring.trap.isSome ∧
    ((∀ x, Instr.addI 0x1#4 ≠ .ldB x) ∧ (∀ x, Instr.addI 0x1#4 ≠ .store x) ∧ ∀ x, Instr.addI 0x1#4 ≠ .load x) :=
  ⟨⟨{ State.reset with jumpFlag := true }, rfl, rfl⟩,
    ⟨{ State.reset with pc := 0x0FFD#16 }, rfl, rfl, by decide +kernel, by decide +kernel⟩,
    ⟨{ State.reset with pc := 0x0FFE#16 }, rfl, rfl, by decide +kernel⟩, rfl, nofun, nofun, nofun⟩

theorem witness_FetchOutsideMemoryTraps :
    ∃ s : State, s.FiresCpu { s with moves := [] } ⟨0, 0⟩ cpuTimer ∧ s.trap = none ∧ s.pc.toNat + 1 = s.cfg.memSize :=
  ⟨{ cpuFiring with pc := 0x0FFF#16 },
    ⟨⟨⟨⟨0, rfl⟩, rfl, rfl, rfl⟩, by decide, rfl, by decide +kernel, by decide⟩, rfl, rfl⟩, rfl, by decide +kernel⟩

theorem witness_InvalidWordRaisesInvalidOpCode :
    ∃ s : State, s.FiresCpu { s with moves := [] } ⟨0, 0⟩ cpuTimer ∧ s.trap = none ∧
      s.pc.toNat + 2 = s.cfg.memSize ∧ decode s.fetchWord = .reject .invalidOpCode :=
  ⟨{ cpuFiring with pc := 0x0FFE#16 },
    ⟨⟨⟨⟨0, rfl⟩, rfl, rfl, rfl⟩, by decide, rfl, by decide +kernel, by decide⟩, rfl, rfl⟩, rfl, by decide +kernel,
    by decide +kernel⟩

/-- A machine that has trapped and goes on. -/
def trappedRunning : State := { (firing 0).raise .invalidOpCode 0x0000#16 0x0200 with moves := [.scheduler 0] }

theorem witness_TrappedMachineStaysTrapped :
    ∃ r t, trappedRunning.trap = some r ∧ trappedRunning.sched = .running ∧ step trappedRunning = .next t :=
  ⟨_, _, rfl, rfl, rfl⟩

/-- A state whose stack is full, with `I` one byte too high for every access, and a draw that waits no longer. -/
def atTheEdge : State := { State.reset with sp := 0x0F#8, i := 0x0FFF#16, drawPhase := .waiting }

/-- Each kind of trap that an execute step raises. -/
theorem witness_ExecuteTrapsArePrecise :
    (∃ t r, State.reset.trap = none ∧ exec .ret State.reset = .next t ∧ t.trap = some r) ∧
    (∃ t r, atTheEdge.trap = none ∧ exec (.call 0x300#12) atTheEdge = .next t ∧ t.trap = some r) ∧
    (∃ t r, exec (.ldB 0x0#4) atTheEdge = .next t ∧ t.trap = some r) ∧
    (∃ t r, exec (.store 0x1#4) atTheEdge = .next t ∧ t.trap = some r) ∧
    (∃ t r, exec (.load 0x1#4) atTheEdge = .next t ∧ t.trap = some r) ∧
    ∃ t r, exec (.drw 0x0#4 0x0#4 0x2#4) atTheEdge = .next t ∧ t.trap = some r :=
  ⟨⟨_, _, rfl, rfl, rfl⟩, ⟨_, _, rfl, rfl, rfl⟩, ⟨_, _, rfl, rfl⟩, ⟨_, _, rfl, rfl⟩, ⟨_, _, rfl, rfl⟩, ⟨_, _, rfl, rfl⟩⟩

theorem witness_EachInstructionRaisesOnlyItsOwnTrap :
    ∃ t r, atTheEdge.trap = none ∧ exec (.ldB 0x0#4) atTheEdge = .next t ∧ t.trap = some r :=
  ⟨_, _, rfl, rfl, rfl⟩

theorem witness_ReturnPopsTheTopAddress :
    (∃ s : State, s.sp ≠ s.cfg.spEmpty ∧ s.stack[s.sp.toNat]? = some 0x0000#16 ∧ s.sp.toNat = 0) ∧
    ∃ s : State, s.sp ≠ s.cfg.spEmpty ∧ s.stack[s.sp.toNat]? = some 0x0000#16 ∧ s.sp.toNat = 15 :=
  ⟨⟨{ State.reset with sp := 0x00#8 }, by decide, rfl, rfl⟩, ⟨{ State.reset with sp := 0x0F#8 }, by decide, rfl, rfl⟩⟩

theorem witness_ReturnOnEmptyStackTraps : State.reset.sp = State.reset.cfg.spEmpty := rfl

/-- The empty stack, and the last one with room. -/
theorem witness_CallPushesTheReturnAddress :
    (State.reset.cfg.stackCap ≤ 255 ∧ State.reset.stack.length = State.reset.cfg.stackCap ∧
      1 ≤ State.reset.cfg.stackCap ∧ State.reset.sp = State.reset.cfg.spEmpty) ∧
    ∃ s : State, s.stack.length = s.cfg.stackCap ∧ s.sp ≠ s.cfg.spEmpty ∧ s.sp.toNat + 1 + 1 = s.cfg.stackCap :=
  ⟨by decide, { State.reset with sp := 0x0E#8 }, rfl, by decide, rfl⟩

theorem witness_CallOnFullStackTraps :
    ∃ s : State, s.sp ≠ s.cfg.spEmpty ∧ s.cfg.stackCap = s.sp.toNat + 1 :=
  ⟨{ State.reset with sp := 0x0F#8 }, by decide, rfl⟩

/-- A taken and an untaken comparison of each of the four forms. -/
theorem witness_SkipsMovePcExactlyWhenTaken :
    (State.reset.reg 0x1#4 = 0x00#8 ∧ State.reset.reg 0x1#4 ≠ 0x01#8) ∧
    (withRegs [(0x2#4, 0x01#8)]).reg 0x1#4 ≠ (withRegs [(0x2#4, 0x01#8)]).reg 0x2#4 ∧
    ((Instr.seReg 0x1#4 0x2#4 0xF#4 = .seReg 0x1#4 0x2#4 0xF#4) ∧
      (State.reset.reg 0x1#4 = State.reset.reg 0x2#4 ↔ State.reset.reg 0x1#4 = State.reset.reg 0x2#4)) :=
  ⟨by decide +kernel, by decide +kernel, rfl, Iff.rfl⟩

theorem witness_CallThenReturnComesBack :
    State.reset.cfg.wf = true ∧ State.reset.StackInv ∧ State.reset.sp = State.reset.cfg.spEmpty :=
  ⟨by decide, ⟨rfl, .inl rfl⟩, rfl⟩

theorem witness_StackHoldsCapacityAddresses :
    State.reset.cfg.wf = true ∧ State.reset.stack.length = State.reset.cfg.stackCap ∧
    State.reset.sp = State.reset.cfg.spEmpty ∧
    (List.replicate 16 0x0300#16 : List Word).length = State.reset.cfg.stackCap :=
  ⟨by decide, rfl, rfl, rfl⟩

/-- A destination that is not the flag register; the other case has no hypothesis. -/
theorem witness_AddSetsCarryThenResult : (0xE#4 : Nibble) ≠ 0xF#4 := by decide

theorem witness_SubtractionsSetStrictNoBorrow : (0x0#4 : Nibble) ≠ 0xF#4 := by decide

theorem witness_ShiftsMoveVxByOnePlace : (0x1#4 : Nibble) ≠ 0xF#4 := by decide

theorem witness_AddToIndexWrapsAndWritesVf :
    (∃ s : State, s.cfg.addiVf = .alwaysOne) ∧ ∃ s : State, s.cfg.addiVf = .overflow 0x0FFF :=
  ⟨⟨State.reset, rfl⟩, ⟨State.resetWith { Config.default with addiVf := .overflow 0x0FFF }, rfl⟩⟩

/-- The last range in memory, and the first that is not. -/
theorem witness_BcdStoresTheDecimalDigits :
    (∃ s : State, s.MemoryInv ∧ s.i.toNat + 3 = s.cfg.memSize) ∧
    ∃ s : State, s.MemoryInv ∧ s.i.toNat + 3 = s.cfg.memSize + 1 :=
  ⟨⟨{ State.reset with i := 0x0FFD#16 }, rfl, by decide +kernel⟩, ⟨{ State.reset with i := 0x0FFE#16 }, rfl, by decide +kernel⟩⟩

/-- All sixteen registers, up to the last byte of memory. -/
def lastBlock : State := { State.reset with i := 0x0FF0#16 }

theorem witness_BlockStoreWritesV0ToVx :
    (lastBlock.MemoryInv ∧ lastBlock.i.toNat + (0xF#4 : Nibble).toNat + 1 = lastBlock.cfg.memSize) ∧
    ∃ s : State, s.MemoryInv ∧ s.i.toNat + (0xF#4 : Nibble).toNat + 1 = s.cfg.memSize + 1 :=
  ⟨⟨rfl, by decide +kernel⟩, ⟨{ State.reset with i := 0x0FF1#16 }, rfl, by decide +kernel⟩⟩

theorem witness_BlockLoadReadsV0ToVx :
    lastBlock.i.toNat + (0xF#4 : Nibble).toNat + 1 = lastBlock.cfg.memSize ∧
    (0x1#4 : Nibble).toNat < (0x2#4 : Nibble).toNat ∧
    ∃ s : State, s.i.toNat + (0xF#4 : Nibble).toNat + 1 = s.cfg.memSize + 1 :=
  ⟨by decide +kernel, by decide, { State.reset with i := 0x0FF1#16 }, by decide +kernel⟩

theorem witness_BlockLoadAfterStoreRestores :
    lastBlock.MemoryInv ∧ lastBlock.i.toNat + (0xF#4 : Nibble).toNat + 1 ≤ lastBlock.cfg.memSize :=
  ⟨rfl, by decide +kernel⟩

/-- One byte too many, for each of the four forms. -/
theorem witness_OutOfRangeAccessTraps :
    atTheEdge.i.toNat + 1 = atTheEdge.cfg.memSize ∧ atTheEdge.cfg.memSize < atTheEdge.i.toNat + 3 ∧
    atTheEdge.cfg.memSize < atTheEdge.i.toNat + ((0x1#4 : Nibble).toNat + 1) ∧
    atTheEdge.cfg.memSize < atTheEdge.i.toNat + (0x2#4 : Nibble).toNat ∧ atTheEdge.drawPhase = .waiting ∧
    atTheEdge.drawDeadline ≤ atTheEdge.tickTime := by decide +kernel

theorem witness_EachStateHasItsOnlyWriters : ∃ t, exec (.ldI 0x300#12) State.reset = .next t := ⟨_, rfl⟩

/-- An armed draw with no commit before it; one a nanosecond after the last commit's deadline; one at it; the other reading;
and a draw that waits one nanosecond longer. -/
theorem witness_DrawArmsThenWaits :
    (∃ tm, State.reset.drawPhase = .armed ∧ State.reset.timers[State.reset.cfg.handleOf .refresh]? = some tm ∧
      ∀ d, State.reset.drawnDeadline = some d → d < tm.nextDeadline) ∧
    (∃ (s : State) (tm : Timer) (d : Nat), s.drawPhase = .armed ∧ s.timers[s.cfg.handleOf .refresh]? = some tm ∧
      s.drawnDeadline = some d ∧ d + 1 = tm.nextDeadline) ∧
    (∃ (s : State) (tm : Timer) (d : Nat), s.drawPhase = .armed ∧ s.timers[s.cfg.handleOf .refresh]? = some tm ∧
      s.cfg.oneDrawPerDeadline = true ∧ s.drawnDeadline = some d ∧ tm.nextDeadline = d) ∧
    (∃ (s : State) (tm : Timer), s.drawPhase = .armed ∧ s.timers[s.cfg.handleOf .refresh]? = some tm ∧
      s.cfg.oneDrawPerDeadline = false ∧ s.drawnDeadline = some tm.nextDeadline) ∧
    ∃ s : State, s.drawPhase = .waiting ∧ s.tickTime + 1 = s.drawDeadline :=
  ⟨⟨_, rfl, rfl, fun _ h => by cases h⟩,
    ⟨{ firing 2 with drawnDeadline := some 16666665 }, _, _, rfl, rfl, rfl, by decide +kernel⟩,
    ⟨{ firing 2 with drawnDeadline := some 16666666 }, _, _, rfl, rfl, rfl, rfl, by decide +kernel⟩,
    ⟨{ State.resetWith { Config.default with oneDrawPerDeadline := false } with drawnDeadline := some 0 }, _, rfl, rfl, rfl,
      rfl⟩,
    ⟨{ State.reset with drawPhase := .waiting, drawDeadline := 1 }, rfl, rfl⟩⟩

/-- A draw at its deadline whose last row is the last byte of memory. -/
def lastDraw : State := { State.reset with drawPhase := .waiting, i := 0x0FFB#16, fb := [(1, 0xFF#8)] }

theorem witness_DrawCommitsTheSprite :
    lastDraw.cfg.wf = true ∧ lastDraw.FrameBufferInv ∧ lastDraw.drawPhase = .waiting ∧
    lastDraw.drawDeadline ≤ lastDraw.tickTime ∧ lastDraw.i.toNat + (0x5#4 : Nibble).toNat = lastDraw.cfg.memSize :=
  ⟨by decide, by show FrameBuffer.wf _ _ = true; decide +kernel, rfl, Nat.le_refl _, by decide +kernel⟩

theorem witness_DrawingTwiceRestoresTheFrame : FrameBuffer.wf Config.default [(0, 0xFF#8), (2047, 0xFF#8)] = true := by
  decide +kernel

/-- Each of the four changes of ST. -/
theorem witness_SoundTimerWriteEmitsToneChanges :
    (State.reset.st = 0x00#8 ∧ (withRegs [(0x2#4, 0x0A#8)]).reg 0x2#4 ≠ 0x00#8) ∧
    (∃ s : State, s.st ≠ 0x00#8 ∧ s.reg 0x2#4 = 0x00#8) ∧
    (State.reset.st = 0x00#8 ↔ State.reset.reg 0x2#4 = 0x00#8) :=
  ⟨by decide +kernel, ⟨{ State.reset with st := 0x05#8 }, by decide, by decide +kernel⟩, by decide +kernel⟩

/-- The last cycle that only counts, and the first that polls for a release. -/
theorem witness_KeyWaitCountsAndEndsAtRelease :
    (∃ s : State, s.keyCounter + 1 + 1 = s.cfg.keyDiv) ∧
    ∃ s : State, s.cfg.keyDiv = s.keyCounter + 1 ∧ s.keyPhase = .waitRelease :=
  ⟨⟨{ State.reset with keyCounter := 3 }, by decide +kernel⟩,
    ⟨{ State.reset with keyCounter := 4, keyPhase := .waitRelease }, by decide +kernel, rfl⟩⟩

theorem witness_KeyWaitTakesTheLeastPressedKey :
    ∃ s : State, s.cfg.keyDiv = s.keyCounter + 1 ∧ s.keyPhase = .waitPress :=
  ⟨{ State.reset with keyCounter := 4 }, by decide +kernel, rfl⟩

theorem witness_StrictTimerKeepsItsGrid :
    (Timer.resetRow Config.default .cpu).kind = .cyclic ∧ (Timer.resetRow Config.default .cpu).skipMissed = false :=
  ⟨rfl, rfl⟩

theorem witness_OneShotBecomesInactive : ((Timer.registered .noCallback).asOneShot 5).kind = .oneShot := rfl

/-- A timer exactly at its deadline. -/
theorem witness_SkipMissedRealignsToTheGrid :
    decayTimer.kind = .cyclic ∧ decayTimer.skipMissed = true ∧ decayTimer.period ≠ 0#64 ∧
    decayTimer.nextDeadline = 16666666 := by decide +kernel

/-- An active timer and an inactive one, through a pause and a resume. -/
theorem witness_PauseThenResumeShiftsDeadlines :
    ∃ p r tm tm', (firing 0).sched = .running ∧ (firing 0).hostCommand (.pause 3) = .next p ∧
      p.hostCommand (.resume 4) = .next r ∧ (firing 0).timers[0]? = some tm ∧ tm.active = true ∧
      (firing 0).timers[1]? = some tm' ∧ tm'.active = false :=
  ⟨_, _, _, _, rfl, rfl, rfl, rfl, rfl, rfl, rfl⟩

/-- The last tick of ST, a tick with ST at 0, and the decay timer at its firing. -/
theorem witness_DecayTickCountsDown :
    ({ State.reset with st := 0x01#8 } : State).st = 0x01#8 ∧ State.reset.st ≠ 0x01#8 ∧
    ∃ tm, (firing 1).Fires { firing 1 with moves := [] } ⟨1, 0⟩ tm ∧ tm.callback = .decay60 :=
  ⟨rfl, by decide, _, ⟨⟨⟨0, rfl⟩, rfl, rfl, rfl⟩, by decide, rfl, by decide +kernel, by decide⟩, rfl⟩

/-- The refresh timer at its firing, with no composition running and with one. -/
theorem witness_RefreshWaitsForTheComposition :
    (∃ tm, (firing 2).Fires { firing 2 with moves := [] } ⟨2, 0⟩ tm ∧ tm.callback = .refresh ∧
      (firing 2).composeBusy = false) ∧
    ∃ (s : State) (tm : Timer), s.Fires { s with moves := [] } ⟨2, 0⟩ tm ∧ tm.callback = .refresh ∧
      s.composeBusy = true :=
  ⟨⟨_, ⟨⟨⟨0, rfl⟩, rfl, rfl, rfl⟩, by decide, rfl, by decide +kernel, by decide⟩, rfl, rfl⟩,
    { firing 2 with composeBusy := true }, _,
    ⟨⟨⟨0, rfl⟩, rfl, rfl, rfl⟩, by decide, rfl, by decide +kernel, by decide⟩, rfl, rfl⟩

/-- After reset, with a ROM loaded and a fourth timer registered, which is no system timer's handle. -/
theorem witness_StartStartsTheSystemTimers :
    ∃ s : State, s.cfg.wf = true ∧ s.sched = .notStarted ∧ s.TimerInv ∧ (∀ u : SysTimer, 3 ≠ s.cfg.handleOf u) ∧
      (∃ tm, s.timers[3]? = some tm) ∧ s.mem ≠ [] := by
  refine ⟨{ State.reset with
      timers := State.reset.timers ++ [Timer.registered .noCallback], mem := [(0x200, 0x12#8)] },
    by decide, rfl, ⟨fun tm h => ?_, fun t => ?_⟩, fun u => by cases u <;> decide, ⟨_, rfl⟩, by decide⟩
  · have hm : tm = Timer.resetRow Config.default .cpu ∨ tm = Timer.resetRow Config.default .decay ∨
        tm = Timer.resetRow Config.default .refresh ∨ tm = Timer.registered .noCallback := by
      simpa [State.reset, State.resetWith, Config.default] using h
    rcases hm with rfl | rfl | rfl | rfl
    case inr.inr.inr => exact ⟨fun h => absurd rfl h, fun _ => ⟨rfl, rfl⟩⟩
    all_goals exact ⟨fun _ => by decide +kernel, fun h => by cases h⟩
  · cases t <;> exact ⟨_, rfl, by decide, rfl⟩

/-- The last reading below 2^64; a timer call on the last handle of the table, and one on the first that is not in it. -/
theorem witness_HostCommandsWhereAdmitted :
    State.reset.now + 18446744073709551615 + 1 = Config.clockEnd ∧ State.reset.sched ≠ .paused ∧
    (∃ tm, State.reset.timers[2]? = some tm ∧ tm.kind ≠ .unconfigured) ∧ State.reset.timers.length = 3 :=
  ⟨by decide +kernel, by decide, ⟨_, rfl, by decide⟩, rfl⟩

/-- A host's move between wakes, one inside a wake, and a command that waits at the end of one. -/
theorem witness_HostCommandsAreServed :
    (∃ s u : State, s.takeMove = (.host .start, u) ∧ s.wake = none ∧ s.hostQueue = []) ∧
    (∃ s u : State, s.takeMove = (.host (.pause 0), u) ∧ s.wake.isSome) ∧
    ∃ s : State, s.wake = none ∧ s.hostQueue = .pause 0 :: [.reset] :=
  ⟨⟨{ State.reset with moves := [.host .start] }, _, rfl, rfl, rfl⟩,
    ⟨{ firing 0 with moves := [.host (.pause 0)] }, _, rfl, rfl⟩,
    ⟨{ State.reset with sched := .running, hostQueue := [.pause 0, .reset] }, rfl, rfl⟩⟩

/-- The longest ROM that is loaded and the shortest that is refused. -/
theorem witness_LoadRomCopiesOrRejects :
    State.reset.MemoryInv ∧ State.reset.sched ≠ .running ∧
    (List.replicate 3583 0x00#8).length < State.reset.cfg.memSize - State.reset.cfg.progStart ∧
    State.reset.cfg.memSize - State.reset.cfg.progStart ≤ (List.replicate 3584 0x00#8).length :=
  ⟨rfl, by decide, by rw [List.length_replicate]; decide, by rw [List.length_replicate]; decide⟩

/-- A paused machine with a register written. -/
theorem witness_ResetLeavesTheSpecifiedValues :
    Config.default.wf = true ∧
    ∃ s : State, s.cfg.wf = true ∧ s.sched ≠ .running ∧ s.sched = .paused ∧ s.i = 0x0123#16 :=
  ⟨by decide, { State.reset with sched := .paused, i := 0x0123#16 }, by decide, by decide, rfl, rfl⟩

theorem witness_InvariantHoldsAfterReset :
    Config.default.wf = true ∧ { Config.default with timerOrder := [.refresh, .cpu, .decay] }.wf = true := by decide

/-- The state after reset, with a move of the collaborator pending. -/
def resetMoving : State := { State.reset with moves := [.renderer] }

theorem resetMoving_inv : resetMoving.Inv where
  config := by decide
  memory := rfl
  frameBuffer := rfl
  stack := ⟨rfl, .inl rfl⟩
  cycle := ⟨rfl, by decide, by decide +kernel⟩
  clock := ⟨Nat.le_refl _, by decide +kernel⟩
  timer := by
    refine ⟨fun tm h => ?_, fun t => ?_⟩
    · have hm : tm = Timer.resetRow Config.default .cpu ∨ tm = Timer.resetRow Config.default .decay ∨
          tm = Timer.resetRow Config.default .refresh := by
        simpa [resetMoving, State.reset, State.resetWith, Config.default] using h
      rcases hm with rfl | rfl | rfl <;> exact ⟨fun _ => by decide +kernel, fun h => by cases h⟩
    · cases t <;> exact ⟨_, rfl, by decide, rfl⟩
  wake := fun p h => by cases h
  lock := fun h => by cases h
  draw := fun _ h => by cases h

/-- The clause of `DrawCommitsTheSprite` on the machine's steps. -/
theorem witness_DrawsCommitAtRisingDeadlines :
    resetMoving.Inv ∧ resetMoving.cfg.oneDrawPerDeadline = true ∧ ∃ t, step resetMoving = .next t :=
  ⟨resetMoving_inv, rfl, _, rfl⟩

theorem witness_EveryStepKeepsTheInvariant : ∃ t, resetMoving.Inv ∧ step resetMoving = .next t :=
  ⟨_, resetMoving_inv, rfl⟩

/-- The clause on the clock: a step from `Running` to `Running` that reads it. -/
theorem witness_EveryStepKeepsTheClock :
    ∃ s t : State, s.Inv ∧ step s = .next t ∧ s.sched ≠ .notStarted ∧ t.sched ≠ .notStarted ∧ s.now + 7 = t.now := by
  refine ⟨{ resetMoving with sched := .running, moves := [.scheduler 7] }, _, ⟨resetMoving_inv.config,
    resetMoving_inv.memory, resetMoving_inv.frameBuffer, resetMoving_inv.stack, resetMoving_inv.cycle,
    resetMoving_inv.clock, resetMoving_inv.timer, (fun p h => by cases h), resetMoving_inv.lock,
    resetMoving_inv.draw⟩, rfl, by decide,
    by decide, rfl⟩

theorem witness_NoFaultFromTheInvariant : resetMoving.Inv := resetMoving_inv

theorem witness_ConfigurationNeverChanges : ∃ t, step resetMoving = .next t := ⟨_, rfl⟩

/-- A wake that stands at `T_CPU`, due and below the bound, while the collaborator has the move. -/
theorem witness_OnlyCyclesChangeTheRegisterFile :
    ∃ s t : State, s.sched = .running ∧ step s = .next t ∧ (¬ ∃ u p tm, s.FiresCpu u p tm) ∧ s.wake = some ⟨0, 0⟩ :=
  ⟨{ cpuFiring with moves := [.renderer] }, _, rfl, rfl, (by
    rintro ⟨_, _, _, h, _⟩
    obtain ⟨_, hm⟩ := h.stands.1
    cases hm), rfl⟩

theorem witness_ToneFollowsTheLastEvent :
    ∃ s t : State, s.ToneInv ∧ s.out ≠ [] ∧ step s = .next t :=
  ⟨{ resetMoving with tone := true, out := [(.stopTone, 3), (.playTone, 5)] }, _, rfl, by decide, rfl⟩

theorem witness_FrameBufferStaysWhileLocked :
    ∃ s t : State, s.sched = .running ∧ s.fbLock = .renderer ∧ step s = .next t ∧ t.fbLock = .free :=
  ⟨{ firing 0 with fbLock := .renderer, moves := [.renderer] }, _, rfl, rfl, rfl, rfl⟩

/-- The collaborator's three moves: a copy pending, the lock held, and a composition whose copy is taken. -/
theorem witness_CollaboratorMoves :
    (∃ s u : State, s.takeMove = (.renderer, u) ∧ s.wake = none ∧ s.hostQueue = [] ∧ s.fbLock = .free ∧
      s.composeBusy = true ∧ s.copyPending = true) ∧
    (∃ s u : State, s.takeMove = (.renderer, u) ∧ s.wake = none ∧ s.hostQueue = [] ∧ s.fbLock = .renderer) ∧
    ∃ s u : State, s.takeMove = (.renderer, u) ∧ s.wake = none ∧ s.hostQueue = [] ∧ s.fbLock = .free ∧
      s.composeBusy = true ∧ s.copyPending = false :=
  ⟨⟨{ resetMoving with composeBusy := true, copyPending := true }, _, rfl, rfl, rfl, rfl, rfl, rfl⟩,
    ⟨{ resetMoving with fbLock := .renderer }, _, rfl, rfl, rfl, rfl⟩,
    ⟨{ resetMoving with composeBusy := true }, _, rfl, rfl, rfl, rfl, rfl, rfl⟩⟩

/-- Both sides of the clause on `needsLock`: a draw whose last row is the last byte of memory, and one a byte too long. -/
theorem witness_CyclesThatWaitForTheLock :
    needsLock lastDraw (.drw 0x0#4 0x0#4 0x5#4) = true ∧ needsLock lastDraw (.drw 0x0#4 0x0#4 0x6#4) = false ∧
    needsLock State.reset (.drw 0x0#4 0x0#4 0x1#4) = false := by decide +kernel

end Sys2Proof.Tests
end

section
/-!
PROOFS. What each instruction may write, said once as a table, and what follows from the table (20_memory.md R46;
43_index_memory.md R126; 60_exceptions.md R203).
-/

namespace Sys2Proof.Machine

/-- The fields that an instruction writes where it takes no trap (41_control_flow.md, 42_alu.md, 43_index_memory.md,
44_draw.md, 45_keys_timers.md); the input counters are those of logs 7 and 8. -/
def State.WritesOnly (s t : State) : Instr → Prop
  | .cls => t = { s with fb := t.fb }
  | .ret => t = { s with sp := t.sp, pc := t.pc, jumpFlag := t.jumpFlag }
  | .call _ => t = { s with sp := t.sp, stack := t.stack, pc := t.pc, jumpFlag := t.jumpFlag }
  | .jp _ | .jpV0 _ => t = { s with pc := t.pc, jumpFlag := t.jumpFlag }
  | .seImm _ _ | .sneImm _ _ | .seReg _ _ _ | .sneReg _ _ _ | .skp _ | .sknp _ =>
    t = { s with pc := t.pc, keyDraws := t.keyDraws }
  | .ldImm _ _ | .addImm _ _ | .ldReg _ _ | .orReg _ _ | .andReg _ _ | .xorReg _ _ | .addReg _ _ | .subReg _ _
  | .shr _ _ | .subnReg _ _ | .shl _ _ | .rnd _ _ | .ldVxDt _ | .load _ => t = { s with v := t.v, randDraws := t.randDraws }
  | .ldI _ | .addI _ | .ldF _ => t = { s with i := t.i, v := t.v }
  | .drw _ _ _ =>
    t = { s with v := t.v, fb := t.fb, drawPhase := t.drawPhase, drawDeadline := t.drawDeadline,
                 drawnDeadline := t.drawnDeadline, jumpFlag := t.jumpFlag }
  | .ldVxK _ =>
    t = { s with v := t.v, jumpFlag := t.jumpFlag, keyPhase := t.keyPhase, keyCounter := t.keyCounter,
                 keyLatched := t.keyLatched, keyDraws := t.keyDraws, out := t.out, tone := t.tone }
  | .ldDtVx _ => t = { s with dt := t.dt }
  | .ldStVx _ => t = { s with st := t.st, out := t.out, tone := t.tone }
  | .ldB _ | .store _ => t = { s with mem := t.mem }

/-- The state after is the one that taking a trap leaves (60_exceptions.md R192). -/
def State.RaisesTo (s t : State) : Prop := ∃ k op a, t = s.raise k op a

/-- An instruction takes a trap, and then does nothing else, or writes only the fields of its row. -/
theorem exec_raises_or_writesOnly {i : Instr} {s t : State} (h : exec i s = .next t) :
    s.RaisesTo t ∨ s.WritesOnly t i := by
  cases i
  case ret =>
    obtain ⟨-, rfl⟩ | ⟨a, -, -, rfl⟩ := execRet_cases h
    · exact .inl ⟨_, _, _, rfl⟩
    · exact .inr rfl
  case call =>
    obtain ⟨-, rfl⟩ | ⟨k, -, rfl⟩ := execCall_cases h
    · exact .inl ⟨_, _, _, rfl⟩
    · exact .inr rfl
  case ldB =>
    obtain ⟨-, rfl⟩ | ⟨-, rfl⟩ := execLdB_cases h
    · exact .inr rfl
    · exact .inl ⟨_, _, _, rfl⟩
  case store =>
    obtain ⟨-, rfl⟩ | ⟨-, rfl⟩ := execStore_cases h
    · exact .inr rfl
    · exact .inl ⟨_, _, _, rfl⟩
  case load =>
    obtain ⟨-, rfl⟩ | ⟨-, rfl⟩ := execLoad_cases h
    · rw [State.setRegsFrom_only]
      exact .inr rfl
    · exact .inl ⟨_, _, _, rfl⟩
  case drw x y n =>
    obtain ⟨-, d, -, -, rfl⟩ | ⟨-, rfl⟩ | ⟨-, rfl⟩ := execDrw_cases h
    · exact .inr rfl
    · exact .inr rfl
    · obtain ⟨-, e⟩ | ⟨cells, -, -, e⟩ := s.commitDraw_cases x y n
      · exact .inl ⟨_, _, _, e⟩
      · rw [e]; exact .inr rfl
  case ldVxK => exact .inr (execLdVxK_eq h).2
  case seImm | sneImm | seReg | sneReg | skp | sknp =>
    cases h
    rw [State.skipIf_eq]
    exact .inr rfl
  case ldStVx =>
    cases h
    rw [State.emitToneChange_eq]
    exact .inr rfl
  all_goals
    cases h
    exact .inr rfl

end Sys2Proof.Machine

open Sys2Proof Sys2Proof.Machine

/-- Settles O34, read off the table of what each instruction writes. -/
theorem eachStateHasItsOnlyWriters : Obligations.EachStateHasItsOnlyWriters := by
  intro i s t h
  obtain ⟨k, op, a, rfl⟩ | hw := exec_raises_or_writesOnly h
  · simp
  · cases i <;> (simp only [State.WritesOnly] at hw; rw [hw]; simp)
end

section
/-!
PROOFS. The timer table: where the system timers stand, what their periods are, and which changes of a record keep
`State.TimerInv` (10_state.md R27, R28; 48_scheduler.md R152 to R167).
-/

namespace Sys2Proof.Machine

/-! ### A well-formed configuration -/

/-- Every system timer is in `TIMER_ORDER` (00_scope.md R5). -/
theorem mem_timerOrder {c : Config} (h : c.wf = true) (t : SysTimer) : t ∈ c.timerOrder := by
  simp only [Config.wf, Config.timerOrderWf, Bool.and_eq_true, List.contains_iff_mem] at h
  obtain ⟨-, ⟨⟨-, hcpu⟩, hdecay⟩, hrefresh⟩ := h
  cases t with
  | cpu => exact hcpu
  | decay => exact hdecay
  | refresh => exact hrefresh

theorem timerOrder_length {c : Config} (h : c.wf = true) : c.timerOrder.length = 3 := by
  simp only [Config.wf, Config.timerOrderWf, Bool.and_eq_true, beq_iff_eq] at h
  exact h.2.1.1.1

/-- A list of timers has `t` at the place of `t`. -/
theorem getElem?_position {t : SysTimer} {l : List SysTimer} (h : t ∈ l) : l[t.position l]? = some t := by
  induction l with
  | nil => simp at h
  | cons u l ih =>
    simp only [SysTimer.position]
    split
    · rename_i hu
      simp [hu]
    · rename_i hu
      exact ih ((List.mem_cons.mp h).resolve_left (Ne.symm hu))

/-- The quotient of a second by a rate in range is a period in range (10_state.md R28, D7). -/
theorem nsPerSecond_div_bounds {hz : Nat} (h : 1 ≤ hz) (h' : hz ≤ 1000000000) :
    0 < Config.nsPerSecond / hz ∧ Config.nsPerSecond / hz < 2 ^ 64 :=
  ⟨Nat.div_pos h' h, Nat.lt_of_le_of_lt (Nat.div_le_self _ _) (by decide)⟩

theorem period_bounds {c : Config} (h : c.wf = true) (t : SysTimer) : 0 < c.period t ∧ c.period t < 2 ^ 64 := by
  simp only [Config.wf, Bool.and_eq_true, decide_eq_true_eq] at h
  obtain ⟨⟨⟨⟨⟨⟨-, hc⟩, hc'⟩, hf⟩, hf'⟩, -⟩, -⟩ := h
  cases t with
  | cpu => exact nsPerSecond_div_bounds hc hc'
  | decay => exact nsPerSecond_div_bounds (by decide) (by decide)
  | refresh => exact nsPerSecond_div_bounds hf hf'

/-! ### The table after reset -/

@[simp] theorem resetRow_period_toNat {c : Config} (h : c.wf = true) (t : SysTimer) :
    (Timer.resetRow c t).period.toNat = c.period t :=
  Nat.mod_eq_of_lt (period_bounds h t).2

theorem resetWith_timer {c : Config} (h : c.wf = true) (t : SysTimer) :
    (State.resetWith c).timers[c.handleOf t]? = some (Timer.resetRow c t) := by
  simp [State.resetWith, Config.handleOf, getElem?_position (mem_timerOrder h t)]

theorem resetRow_legal {c : Config} (h : c.wf = true) (t : SysTimer) : (Timer.resetRow c t).Legal := by
  refine ⟨fun _ h0 => ?_, (nomatch ·)⟩
  have hp := resetRow_period_toNat h t
  have hpos := (period_bounds h t).1
  rw [h0] at hp
  exact absurd hp.symm hpos.ne'

theorem resetWith_timerInv {c : Config} (h : c.wf = true) : (State.resetWith c).TimerInv := by
  refine ⟨fun tm htm => ?_, fun t => ⟨_, resetWith_timer h t, (nomatch ·), rfl⟩⟩
  obtain ⟨t, -, rfl⟩ := List.mem_map.mp htm
  exact resetRow_legal h t

/-! ### Changes of a record -/

/-- The record `b` may stand where `a` stood: it is legal if `a` was, configured if `a` was, and has its callback. -/
structure Timer.Succeeds (b a : Timer) : Prop where
  legal : a.Legal → b.Legal
  configured : a.kind ≠ .unconfigured → b.kind ≠ .unconfigured
  callback : b.callback = a.callback

theorem Timer.Succeeds.refl (tm : Timer) : tm.Succeeds tm := ⟨id, id, rfl⟩

/-- A legal timer that is active or put aside by a pause is configured (48_scheduler.md R155). -/
theorem Timer.Legal.configured {tm : Timer} (h : tm.Legal) (ha : tm.active = true ∨ tm.wasActive = true) :
    tm.kind ≠ .unconfigured := by
  intro hk
  obtain ⟨h1, h2⟩ := h.2 hk
  simp [h1, h2] at ha

theorem Timer.stopped_succeeds (tm : Timer) : ({ tm with active := false } : Timer).Succeeds tm :=
  ⟨fun h => ⟨h.1, fun hk => ⟨rfl, (h.2 hk).2⟩⟩, id, rfl⟩

theorem Timer.asOneShot_succeeds (tm : Timer) {n : Duration} (hn : n ≠ 0#64) : (tm.asOneShot n).Succeeds tm :=
  ⟨fun _ => ⟨fun _ => hn, (nomatch ·)⟩, fun _ => (nomatch ·), rfl⟩

theorem Timer.asCyclic_succeeds (tm : Timer) {n : Duration} (b : Bool) (hn : n ≠ 0#64) : (tm.asCyclic n b).Succeeds tm :=
  ⟨fun _ => ⟨fun _ => hn, (nomatch ·)⟩, fun _ => (nomatch ·), rfl⟩

theorem Timer.startedAt_succeeds {tm : Timer} (t : Nat) (hk : tm.kind ≠ .unconfigured) : (tm.startedAt t).Succeeds tm :=
  ⟨fun h => ⟨h.1, fun h' => absurd h' hk⟩, id, rfl⟩

theorem Timer.reschedule_succeeds (tm : Timer) (tick : Nat) : (tm.reschedule tick).Succeeds tm := by
  unfold Timer.reschedule
  split
  · exact tm.stopped_succeeds
  · split
    · exact ⟨id, id, rfl⟩
    · exact ⟨id, id, rfl⟩
  · exact .refl tm

theorem Timer.pausedAt_succeeds (tm : Timer) (t : Nat) : (tm.pausedAt t).Succeeds tm := by
  unfold Timer.pausedAt
  split
  · rename_i ha
    exact ⟨fun h => ⟨h.1, fun hk => absurd hk (h.configured (.inl ha))⟩, id, rfl⟩
  · exact ⟨fun h => ⟨h.1, fun hk => ⟨(h.2 hk).1, rfl⟩⟩, id, rfl⟩

theorem Timer.resumedAt_succeeds (tm : Timer) (t : Nat) : (tm.resumedAt t).Succeeds tm := by
  unfold Timer.resumedAt
  split
  · rename_i hw
    exact ⟨fun h => ⟨h.1, fun hk => absurd hk (h.configured (.inr hw))⟩, id, rfl⟩
  · exact .refl tm

/-! ### Changes of the table -/

/-- The timers keep their invariant where each record is succeeded at its own handle. -/
theorem State.TimerInv.of_succeeds {s t : State} (hs : s.TimerInv) (hc : t.cfg = s.cfg)
    (hl : t.timers.length = s.timers.length)
    (hf : ∀ (h : Nat) (tm : Timer), s.timers[h]? = some tm →
      ∃ tm' : Timer, t.timers[h]? = some tm' ∧ tm'.Succeeds tm) : t.TimerInv := by
  obtain ⟨hlegal, hsys⟩ := hs
  refine ⟨fun tm' htm' => ?_, fun u => ?_⟩
  · obtain ⟨h, hh, rfl⟩ := List.mem_iff_getElem.mp htm'
    have hh' : h < s.timers.length := hl ▸ hh
    obtain ⟨tm', e, hsucc⟩ := hf h _ (List.getElem?_eq_getElem hh')
    rw [List.getElem?_eq_getElem hh] at e
    cases e
    exact hsucc.legal (hlegal _ (List.getElem_mem hh'))
  · obtain ⟨tm, htm, hk, hcb⟩ := hsys u
    obtain ⟨tm', e, hsucc⟩ := hf _ _ htm
    exact ⟨tm', hc ▸ e, hsucc.configured hk, hsucc.callback.trans hcb⟩

/-- One record changed. -/
theorem State.TimerInv.modify {s t : State} {k : Nat} {f : Timer → Timer} (hs : s.TimerInv) (hc : t.cfg = s.cfg)
    (ht : t.timers = s.timers.modify k f) (hf : ∀ tm, s.timers[k]? = some tm → (f tm).Succeeds tm) : t.TimerInv := by
  refine hs.of_succeeds hc (by simp [ht]) fun h tm htm => ?_
  by_cases hk : k = h
  · subst hk
    exact ⟨f tm, by simp [ht, htm], hf tm htm⟩
  · exact ⟨tm, by simp [ht, htm, hk], .refl tm⟩

/-- Every record changed. -/
theorem State.TimerInv.map {s t : State} {f : Timer → Timer} (hs : s.TimerInv) (hc : t.cfg = s.cfg)
    (ht : t.timers = s.timers.map f) (hf : ∀ tm, (f tm).Succeeds tm) : t.TimerInv :=
  hs.of_succeeds hc (by simp [ht]) fun _ tm htm => ⟨f tm, by simp [ht, htm], hf tm⟩

/-- A record registered (48_scheduler.md R152). -/
theorem State.TimerInv.register {s t : State} {cb : Callback} (hs : s.TimerInv) (hc : t.cfg = s.cfg)
    (ht : t.timers = s.timers ++ [Timer.registered cb]) : t.TimerInv := by
  obtain ⟨hlegal, hsys⟩ := hs
  refine ⟨fun tm htm => ?_, fun u => ?_⟩
  · rw [ht, List.mem_append, List.mem_singleton] at htm
    obtain htm | rfl := htm
    · exact hlegal tm htm
    · exact ⟨fun h => absurd rfl h, fun _ => ⟨rfl, rfl⟩⟩
  · obtain ⟨tm, htm, hrest⟩ := hsys u
    have hlt : s.cfg.handleOf u < s.timers.length := (List.getElem?_eq_some_iff.mp htm).1
    exact ⟨tm, by rw [ht, hc, List.getElem?_append_left hlt, htm], hrest⟩

/-! ### `Start` -/

/-- A start repeated at the same time changes nothing, so the handles of a list need not differ. -/
@[simp] theorem Timer.startedAt_startedAt (tm : Timer) (t : Nat) : (tm.startedAt t).startedAt t = tm.startedAt t := rfl

/-- The timers of a list started one after the other: exactly those at a handle of the list are started (R165). -/
theorem getElem?_foldl_startSystemTimer (c : Config) (l : List SysTimer) (timers : List Timer) (h : Nat) :
    (l.foldl (startSystemTimer c) timers)[h]? =
      (timers[h]?).map fun tm => if h ∈ l.map c.handleOf then tm.startedAt 0 else tm := by
  induction l generalizing timers with
  | nil => simp
  | cons u l ih =>
    rw [List.foldl_cons, ih, startSystemTimer, List.getElem?_modify]
    cases timers[h]? with
    | none => simp
    | some tm =>
      by_cases hu : c.handleOf u = h
      · simp [hu]
      · simp [hu, Ne.symm hu]

theorem length_foldl_startSystemTimer (c : Config) (l : List SysTimer) (timers : List Timer) :
    (l.foldl (startSystemTimer c) timers).length = timers.length := by
  induction l generalizing timers with
  | nil => rfl
  | cons u l ih => rw [List.foldl_cons, ih, startSystemTimer, List.length_modify]

/-- `Start` changes the record of a system timer as R165 says. -/
theorem State.startScheduler_timer {s : State} (hw : s.cfg.wf = true) (u : SysTimer) {tm : Timer}
    (h : s.timers[s.cfg.handleOf u]? = some tm) :
    s.startScheduler.timers[s.cfg.handleOf u]? = some (tm.startedAt 0) := by
  have hu : s.cfg.handleOf u ∈ s.cfg.timerOrder.map s.cfg.handleOf := List.mem_map_of_mem (mem_timerOrder hw u)
  simp only [State.startScheduler, State.answer_timers, getElem?_foldl_startSystemTimer, h, Option.map_some, if_pos hu]

/-- `Start` leaves every other record. -/
theorem State.startScheduler_timer_other {s : State} {h : Nat} (hh : ∀ u, h ≠ s.cfg.handleOf u) :
    s.startScheduler.timers[h]? = s.timers[h]? := by
  have hn : h ∉ s.cfg.timerOrder.map s.cfg.handleOf := by
    intro hm
    obtain ⟨u, -, e⟩ := List.mem_map.mp hm
    exact hh u e.symm
  simp only [State.startScheduler, State.answer_timers, getElem?_foldl_startSystemTimer, if_neg hn, Option.map_id']

theorem State.startScheduler_timers_length (s : State) : s.startScheduler.timers.length = s.timers.length :=
  length_foldl_startSystemTimer _ _ _

theorem State.startScheduler_timerInv {s : State} (hw : s.cfg.wf = true) (hs : s.TimerInv) : s.startScheduler.TimerInv := by
  refine hs.of_succeeds rfl s.startScheduler_timers_length fun h tm htm => ?_
  by_cases hh : ∃ u, h = s.cfg.handleOf u
  · obtain ⟨u, rfl⟩ := hh
    obtain ⟨tm', htm', hk, -⟩ := hs.2 u
    cases htm.symm.trans htm'
    exact ⟨_, State.startScheduler_timer hw u htm, Timer.startedAt_succeeds 0 hk⟩
  · exact ⟨tm, (State.startScheduler_timer_other (not_exists.mp hh)).trans htm, .refl tm⟩

end Sys2Proof.Machine

open Sys2Proof Sys2Proof.Machine

/-- Settles O50: `Start` starts exactly the records at the system timers' handles. -/
theorem startStartsTheSystemTimers : Obligations.StartStartsTheSystemTimers := by
  refine ⟨fun s hw hs _ => ?_, fun c hw => ⟨(State.resetWith c).startScheduler, rfl, fun u => ?_⟩⟩
  · refine ⟨s.startScheduler, if_pos hs, rfl, s.startScheduler_timers_length, fun u tm htm => ?_,
      fun h => State.startScheduler_timer_other⟩
    simpa [Timer.startedAt] using State.startScheduler_timer hw u htm
  · have htimer := State.startScheduler_timer (s := State.resetWith c) hw u (resetWith_timer hw u)
    exact ⟨_, htimer, rfl, by simp [Timer.startedAt, hw], resetRow_period_toNat hw u⟩
end

section
/-!
PROOFS. The invariant inside a cycle: what each instruction and the cycle around it keep (40_cpu_cycle.md R80 to R86).
-/

namespace Sys2Proof.Machine

/-! ### The invariant after reset -/

theorem keyDiv_pos (c : Config) : 0 < c.keyDiv := Nat.lt_of_lt_of_le Nat.zero_lt_one (Nat.le_max_left _ _)

theorem stackCap_bounds {c : Config} (h : c.wf = true) : 1 ≤ c.stackCap ∧ c.stackCap ≤ 255 := by
  simp only [Config.wf, Bool.and_eq_true, decide_eq_true_eq] at h
  omega

theorem State.resetWith_inv {c : Config} (h : c.wf = true) : (State.resetWith c).Inv where
  config := h
  memory := State.resetWith_memory_wf c
  frameBuffer := rfl
  stack := ⟨List.length_replicate, .inl rfl⟩
  cycle := ⟨rfl, (nomatch ·), keyDiv_pos c⟩
  clock := ⟨le_rfl, Nat.two_pow_pos 64⟩
  timer := resetWith_timerInv h
  wake := fun _ => (nomatch ·)
  lock := (nomatch ·)
  draw := fun _ => (nomatch ·)

/-! ### The invariant inside a cycle -/

/-- The invariant but for `JumpFlag`, which an instruction may set until the cycle's end clears it (10_state.md R17). -/
def State.InvInCycle (s : State) : Prop := ({ s with jumpFlag := false } : State).Inv

theorem State.Inv.inCycle {s : State} (h : s.Inv) : s.InvInCycle where
  config := h.config
  memory := h.memory
  frameBuffer := h.frameBuffer
  stack := h.stack
  cycle := ⟨rfl, h.cycle.2⟩
  clock := h.clock
  timer := h.timer
  wake := h.wake
  lock := h.lock
  draw := h.draw

theorem State.InvInCycle.inv {s : State} (h : s.InvInCycle) (hj : s.jumpFlag = false) : s.Inv := by
  have e : s = { s with jumpFlag := false } := by rw [← hj]
  exact e ▸ h

/-- The fields that the invariant does not read may change freely, and inside a cycle so may `JumpFlag`. -/
theorem State.InvInCycle.of_unread {s t : State} (hs : s.InvInCycle)
    (h : t = { s with
      v := t.v, pc := t.pc, i := t.i, dt := t.dt, st := t.st, jumpFlag := t.jumpFlag, keyPhase := t.keyPhase,
      keyLatched := t.keyLatched, trap := t.trap, tone := t.tone, out := t.out, frame := t.frame,
      hostQueue := t.hostQueue, reply := t.reply, moves := t.moves, moveDraws := t.moveDraws, randDraws := t.randDraws,
      keyDraws := t.keyDraws, cycles := t.cycles }) : t.InvInCycle := by
  rw [h]
  exact ⟨hs.config, hs.memory, hs.frameBuffer, hs.stack, hs.cycle, hs.clock, hs.timer, hs.wake, hs.lock, hs.draw⟩

/-- The timers changed, in a way that keeps their own invariant. -/
theorem State.InvInCycle.with_timers {s : State} {timers : List Timer} (hs : s.InvInCycle)
    (h : ({ s with timers := timers } : State).TimerInv) : ({ s with timers := timers } : State).InvInCycle :=
  { hs with timer := h }

theorem State.InvInCycle.stopTimer {s : State} (hs : s.InvInCycle) (k : Nat) : (s.stopTimer k).InvInCycle :=
  hs.with_timers (State.TimerInv.modify hs.timer rfl rfl fun tm _ => tm.stopped_succeeds)

/-- Taking a trap keeps the invariant (60_exceptions.md R192). -/
theorem State.InvInCycle.raise {s : State} (hs : s.InvInCycle) (k : TrapKind) (op : Word) (a : Nat) :
    (s.raise k op a).InvInCycle :=
  (hs.stopTimer (s.cfg.handleOf .cpu)).of_unread rfl

/-! ### The instructions that write what the invariant reads -/

/-- Bytes stored inside memory (20_memory.md R44). -/
theorem State.InvInCycle.storeBytes {s : State} (hs : s.InvInCycle) {a : Nat} {bs : List Byte}
    (h : a + bs.length ≤ s.cfg.memSize) : (s.storeBytes a bs).InvInCycle :=
  { hs with memory := Cells.writeList_wf hs.memory h }

/-- `Pop` leaves SP at the sentinel or one entry lower (R48). -/
theorem State.StackInv.pop {s : State} (h : s.StackInv) (hne : s.sp ≠ s.cfg.spEmpty) :
    ({ s with sp := if s.sp = 0x00#8 then s.cfg.spEmpty else s.sp - 1#8 } : State).StackInv := by
  obtain ⟨hlen, hsp⟩ := h
  have hlt := hsp.resolve_left hne
  refine ⟨hlen, ?_⟩
  by_cases h0 : s.sp = 0x00#8
  · exact .inl (if_pos h0)
  · have hle : (s.sp - 1#8).toNat ≤ s.sp.toNat := by bv_omega
    exact .inr (by simpa [h0] using Nat.lt_of_le_of_lt hle hlt)

/-- `Push` finds its entry below the capacity (R47). -/
theorem State.StackInv.push {s : State} {k : Nat} (a : Word) (hc : s.cfg.wf = true) (h : s.StackInv)
    (hk : s.pushIndex = some k) : ({ s with sp := BitVec.ofNat 8 k, stack := s.stack.set k a } : State).StackInv := by
  obtain ⟨hcap, hcap'⟩ := stackCap_bounds hc
  have hlt := State.pushIndex_lt hcap hk
  refine ⟨by simpa using h.1, .inr ?_⟩
  have hsmall : (BitVec.ofNat 8 k).toNat = k := Nat.mod_eq_of_lt (by omega)
  exact hsmall.trans_lt hlt

/-- The deadline recorded when a draw arms is later than that of the last commit, where the configuration asks it
(60_exceptions.md R209, log 34). -/
theorem State.InvInCycle.armDraw {s : State} {d : Nat} (hs : s.InvInCycle) (h : s.alreadyDrawn d = false) :
    ({ s with drawDeadline := d, drawPhase := .waiting } : State).InvInCycle :=
  { hs with
    cycle := ⟨rfl, (nomatch ·), hs.cycle.2.2⟩
    draw := fun hone _ => State.alreadyDrawn_eq_false.mp h hone }

/-- A commit keeps the invariant, whether it traps or draws (44_draw.md R133). -/
theorem State.InvInCycle.commitDraw {s : State} (hs : s.InvInCycle) (x y n : Nibble) : (s.commitDraw x y n).InvInCycle := by
  obtain ⟨-, e⟩ | ⟨cells, -, hcells, e⟩ := s.commitDraw_cases x y n
  · rw [e]
    exact hs.raise _ _ _
  · have hfb : FrameBuffer.wf s.cfg (drawCells s.fb cells).1 = true := hcells ▸ (drawSprite_spec _ _ _ hs.frameBuffer).1
    rw [e]
    exact { hs with frameBuffer := hfb, cycle := ⟨rfl, (nomatch ·), hs.cycle.2.2⟩, draw := fun _ => (nomatch ·) }

/-- Every instruction keeps the invariant inside its cycle. -/
theorem exec_invInCycle {i : Instr} {s t : State} (hs : s.InvInCycle) (h : exec i s = .next t) : t.InvInCycle := by
  obtain ⟨k, op, a, rfl⟩ | hw := exec_raises_or_writesOnly h
  · exact hs.raise k op a
  cases i
  case cls =>
    cases h
    exact { hs with frameBuffer := rfl }
  case ret =>
    obtain ⟨-, rfl⟩ | ⟨a, hne, -, rfl⟩ := execRet_cases h
    · exact hs.raise _ _ _
    · exact { hs with stack := State.StackInv.pop hs.stack hne }
  case call =>
    obtain ⟨-, rfl⟩ | ⟨k, hk, rfl⟩ := execCall_cases h
    · exact hs.raise _ _ _
    · exact { hs with stack := State.StackInv.push _ hs.config hs.stack hk }
  case ldB =>
    obtain ⟨hb, rfl⟩ | ⟨-, rfl⟩ := execLdB_cases h
    · exact hs.storeBytes hb
    · exact hs.raise _ _ _
  case store =>
    obtain ⟨hb, rfl⟩ | ⟨-, rfl⟩ := execStore_cases h
    · exact hs.storeBytes (by simpa [blockCount] using hb)
    · exact hs.raise _ _ _
  case drw =>
    obtain ⟨-, d, -, hd, rfl⟩ | ⟨-, rfl⟩ | ⟨-, rfl⟩ := execDrw_cases h
    · exact (hs.armDraw hd).of_unread rfl
    · exact hs.of_unread rfl
    · exact hs.commitDraw _ _ _
  case ldVxK =>
    obtain ⟨hk, e⟩ := execLdVxK_eq h
    have hlt : t.keyCounter < s.cfg.keyDiv := hk.elim (fun h0 => h0 ▸ keyDiv_pos s.cfg) id
    rw [e]
    exact { hs with cycle := ⟨rfl, hs.cycle.2.1, hlt⟩ }
  all_goals
    simp only [State.WritesOnly] at hw
    exact hs.of_unread (by rw [hw])

/-! ### The cycle -/

/-- An instruction sets `JumpFlag` only where it takes no trap: a trap changes nothing else (60_exceptions.md R203). -/
theorem exec_jumpFlag_of_trap {i : Instr} {s t : State} (h : exec i s = .next t) (hs : s.trap = none)
    (ht : t.trap.isSome) : t.jumpFlag = s.jumpFlag := by
  obtain ⟨k, op, a, rfl⟩ | hw := exec_raises_or_writesOnly h
  · rfl
  · have htrap : t.trap = s.trap := by
      cases i <;> (simp only [State.WritesOnly] at hw; rw [hw])
    rw [htrap, hs] at ht
    cases ht

/-- The end of a cycle clears `JumpFlag` where no trap stands (40_cpu_cycle.md R80 step 4). -/
theorem State.endCycle_inv {s : State} (hs : s.InvInCycle) (ht : s.trap.isSome → s.jumpFlag = false) (op : Word)
    (extra : Nat) : (s.endCycle op extra).Inv := by
  obtain ⟨hsome, e⟩ | ⟨-, -, e⟩ | ⟨-, hj, -, e⟩ | ⟨-, -, -, e⟩ := s.endCycle_cases op extra <;> rw [e]
  · exact hs.inv (ht hsome)
  · exact (hs.of_unread rfl).inv rfl
  · exact (hs.raise _ _ _).inv hj
  · exact (hs.of_unread rfl).inv rfl

/-- A CPU cycle keeps the invariant (R80, R86). -/
theorem State.Inv.cpuCycle {s t : State} (hs : s.Inv) (h : s.cpuCycle = .next t) : t.Inv := by
  obtain ⟨-, rfl⟩ | ⟨-, -, rfl⟩ | ⟨-, -, -, rfl⟩ | ⟨i, u, htrap, -, -, hu, rfl⟩ := State.cpuCycle_cases h
  · exact hs
  · exact (hs.inCycle.raise _ _ _).inv hs.cycle.1
  · exact (hs.inCycle.raise _ _ _).inv hs.cycle.1
  · exact State.endCycle_inv (exec_invInCycle hs.inCycle hu)
      (fun ht => (exec_jumpFlag_of_trap hu htrap ht).trans hs.cycle.1) _ _

end Sys2Proof.Machine
end

section
/-!
PROOFS. What every step keeps: the invariant, and the clock from `Start` to `Reset` (48_scheduler.md R157 to R167;
60_exceptions.md R206, R210).
-/

namespace Sys2Proof.Machine

/-- Outside a cycle too, the fields that the invariant does not read may change freely. -/
theorem State.Inv.of_unread {s t : State} (hs : s.Inv)
    (h : t = { s with
      v := t.v, pc := t.pc, i := t.i, dt := t.dt, st := t.st, keyPhase := t.keyPhase,
      keyLatched := t.keyLatched, trap := t.trap, tone := t.tone, out := t.out, frame := t.frame,
      hostQueue := t.hostQueue, reply := t.reply, moves := t.moves, moveDraws := t.moveDraws, randDraws := t.randDraws,
      keyDraws := t.keyDraws, cycles := t.cycles }) : t.Inv := by
  have hj : t.jumpFlag = false := by rw [h]; exact hs.cycle.1
  exact (hs.inCycle.of_unread (by rw [h])).inv hj

/-! ### What a callback leaves to the scheduler -/

/-- The two states agree in where the scheduler, its clock and the configuration stand. -/
structure State.SameSchedule (s t : State) : Prop where
  cfg : t.cfg = s.cfg
  sched : t.sched = s.sched
  wake : t.wake = s.wake
  tickTime : t.tickTime = s.tickTime
  now : t.now = s.now

/-- A CPU cycle touches nothing that belongs to the scheduler, the host or the collaborator, but for `T_CPU`. -/
theorem State.cpuCycle_sameSchedule {s t : State} (h : s.cpuCycle = .next t) :
    s.SameSchedule t ∧ t.fbLock = s.fbLock := by
  obtain ⟨-, rfl⟩ | ⟨-, -, rfl⟩ | ⟨-, -, -, rfl⟩ | ⟨i, u, -, -, -, hu, rfl⟩ := State.cpuCycle_cases h
  · exact ⟨⟨rfl, rfl, rfl, rfl, rfl⟩, rfl⟩
  · exact ⟨⟨rfl, rfl, rfl, rfl, rfl⟩, rfl⟩
  · exact ⟨⟨rfl, rfl, rfl, rfl, rfl⟩, rfl⟩
  · have ho := exec_sameOutside hu
    exact ⟨⟨by simp [ho.cfg], by simp [ho.sched], by simp [ho.wake], by simp [ho.tickTime], by simp [ho.now]⟩,
      by simp [ho.fbLock]⟩

theorem State.runCallback_sameSchedule {s t : State} {cb : Callback} (h : s.runCallback cb = .next t) :
    s.SameSchedule t ∧ t.fbLock = s.fbLock := by
  obtain ⟨-, h⟩ | ⟨-, rfl⟩ | ⟨-, rfl⟩ | ⟨-, rfl⟩ := State.runCallback_cases h
  · exact State.cpuCycle_sameSchedule h
  · rw [State.decay60_eq]
    exact ⟨⟨rfl, rfl, rfl, rfl, rfl⟩, rfl⟩
  · exact ⟨⟨rfl, rfl, rfl, rfl, rfl⟩, rfl⟩
  · exact ⟨⟨rfl, rfl, rfl, rfl, rfl⟩, rfl⟩

/-! ### The scheduler -/

/-- Every callback keeps the invariant. -/
theorem State.Inv.runCallback {s t : State} {cb : Callback} (hs : s.Inv) (h : s.runCallback cb = .next t) : t.Inv := by
  obtain ⟨-, h⟩ | ⟨-, rfl⟩ | ⟨-, rfl⟩ | ⟨-, rfl⟩ := State.runCallback_cases h
  · exact hs.cpuCycle h
  · exact hs.of_unread (by rw [State.decay60_eq])
  · exact { hs with lock := fun _ => ⟨rfl, rfl⟩ }
  · exact hs

/-- The reschedule after a firing below the bound (48_scheduler.md R159 to R163). -/
theorem State.Inv.afterFiring {s : State} {p : WakePos} (hs : s.Inv) (hr : s.sched = .running)
    (hp : p.count < s.cfg.maxExecPerWake) : (s.afterFiring p).Inv :=
  { hs with
    timer := hs.timer.modify rfl rfl fun tm _ => tm.reschedule_succeeds s.tickTime
    wake := by rintro _ ⟨⟩; exact ⟨hr, hp⟩ }

theorem State.Inv.nextTimer {s : State} (hs : s.Inv) (hr : s.sched = .running) (p : WakePos) : (s.nextTimer p).Inv :=
  { hs with wake := by rintro _ ⟨⟩; exact ⟨hr, Nat.zero_le _⟩ }

theorem State.Inv.beginWake {s : State} {gap : Nat} (hs : s.Inv) (hr : s.sched = .running)
    (hc : s.now + gap < Config.clockEnd) :
    ({ s with now := s.now + gap, tickTime := s.now + gap, wake := some ⟨0, 0⟩ } : State).Inv :=
  { hs with
    clock := ⟨le_rfl, hc⟩
    wake := by rintro _ ⟨⟩; exact ⟨hr, Nat.zero_le _⟩ }

theorem State.Inv.fireTimer {s t : State} {p : WakePos} {tm : Timer} (hs : s.Inv) (hr : s.sched = .running)
    (hp : p.count < s.cfg.maxExecPerWake) (h : s.fireTimer p tm = .next t) : t.Inv := by
  obtain ⟨-, ⟨-, rfl⟩ | ⟨-, u, hu, rfl⟩⟩ := State.fireTimer_cases h
  · exact hs
  · have hsame := (State.runCallback_sameSchedule hu).1
    exact (hs.runCallback hu).afterFiring (hsame.sched.trans hr) (hsame.cfg ▸ hp)

theorem State.fireTimer_now {s t : State} {p : WakePos} {tm : Timer} (h : s.fireTimer p tm = .next t) : t.now = s.now := by
  obtain ⟨-, ⟨-, rfl⟩ | ⟨-, u, hu, rfl⟩⟩ := State.fireTimer_cases h
  · rfl
  · exact (State.runCallback_sameSchedule hu).1.now

/-- A move of the scheduler keeps the invariant, and its clock does not go back. -/
theorem State.Inv.schedulerMove {s t : State} {gap : Nat} (hs : s.Inv) (h : s.schedulerMove gap = .next t) :
    t.Inv ∧ s.now ≤ t.now := by
  obtain ⟨-, rfl⟩ | ⟨hr, -, hc, rfl⟩ | ⟨p, hr, -, ⟨-, rfl⟩ | ⟨tm, -, rfl | ⟨-, -, hp, hf⟩⟩⟩ := State.schedulerMove_cases h
  · exact ⟨hs, le_rfl⟩
  · exact ⟨hs.beginWake hr hc, Nat.le_add_right _ _⟩
  · exact ⟨{ hs with wake := fun _ => (nomatch ·) }, le_rfl⟩
  · exact ⟨hs.nextTimer hr p, le_rfl⟩
  · exact ⟨hs.fireTimer hr hp hf, (State.fireTimer_now hf).ge⟩

/-! ### The collaborator and the host -/

/-- The collaborator's moves keep the invariant (60_exceptions.md R206). -/
theorem State.Inv.rendererMove {s : State} (hs : s.Inv) : s.rendererMove.Inv := by
  obtain ⟨-, e⟩ | ⟨-, hb, hp, e⟩ | ⟨hfree, e⟩ := s.rendererMove_cases <;> rw [e]
  · exact { hs with lock := (nomatch ·) }
  · exact { hs with lock := fun _ => ⟨hb, hp⟩ }
  · exact { hs with lock := fun hl => absurd (hfree.symm.trans hl) (nomatch ·) }

theorem State.rendererMove_now (s : State) : s.rendererMove.now = s.now := by
  obtain ⟨-, e⟩ | ⟨-, -, -, e⟩ | ⟨-, e⟩ := s.rendererMove_cases <;> rw [e]

/-- The clock read again (48_scheduler.md R157). -/
theorem State.Inv.readClock {s : State} {gap : Nat} (hs : s.Inv) (hc : s.now + gap < Config.clockEnd) :
    ({ s with now := s.now + gap } : State).Inv :=
  { hs with clock := ⟨hs.clock.1.trans (Nat.le_add_right _ _), hc⟩ }

/-- Timers changed in a way that keeps their own invariant, and the host told. -/
theorem State.Inv.with_timers {s : State} {timers : List Timer} (hs : s.Inv) (r : Option Reply)
    (h : ({ s with timers := timers } : State).TimerInv) : ({ s with timers := timers, reply := r } : State).Inv :=
  { hs with timer := h }

/-- The timer calls keep the invariant (48_scheduler.md R152 to R156). -/
theorem State.Inv.timerCall {s t : State} {call : TimerCall} (hs : s.Inv) (h : s.timerCall call = .next t) :
    t.Inv ∧ s.now ≤ t.now := by
  obtain ⟨cb, rfl⟩ | rfl | ⟨k, n, hn, rfl⟩ | ⟨k, n, b, hn, rfl⟩ | ⟨k, gap, tm, htm, hk, hc, rfl⟩ | ⟨k, rfl⟩ :=
    State.timerCall_cases h
  · exact ⟨hs.with_timers _ (hs.timer.register rfl rfl), le_rfl⟩
  · exact ⟨hs.of_unread rfl, le_rfl⟩
  · exact ⟨hs.with_timers _ (hs.timer.modify rfl rfl fun tm _ => tm.asOneShot_succeeds hn), le_rfl⟩
  · exact ⟨hs.with_timers _ (hs.timer.modify rfl rfl fun tm _ => tm.asCyclic_succeeds b hn), le_rfl⟩
  · refine ⟨(hs.readClock hc).with_timers _ (hs.timer.modify rfl rfl fun tm' htm' => ?_), Nat.le_add_right _ _⟩
    cases htm.symm.trans htm'
    exact Timer.startedAt_succeeds _ hk
  · exact ⟨hs.with_timers _ (hs.timer.modify rfl rfl fun tm _ => tm.stopped_succeeds), le_rfl⟩

theorem State.Inv.loadRom {s : State} (hs : s.Inv) (bytes : List Byte) : (s.loadRom bytes).Inv := by
  unfold State.loadRom
  split
  · rename_i hlen
    have hin : s.cfg.progStart + bytes.length ≤ s.cfg.memSize := by omega
    exact { hs with memory := Cells.writeList_wf hs.memory hin }
  · exact hs.of_unread rfl

theorem State.loadRom_now (s : State) (bytes : List Byte) : (s.loadRom bytes).now = s.now := by
  unfold State.loadRom
  split <;> rfl

/-- `Reset` reaches the invariant from any state with a well-formed configuration: it frees `FBLock` (70_reset_and_hazards.md
R220, log 25). -/
theorem State.resetMachine_inv {s : State} (h : s.cfg.wf = true) : s.resetMachine.Inv :=
  { State.resetWith_inv h with lock := (nomatch ·) }

/-- A host command between two wakes keeps the invariant; where the scheduler was started and still is, its clock does not go
back (60_exceptions.md R210). -/
theorem State.Inv.hostCommand {s t : State} {c : HostCommand} (hs : s.Inv) (hw : s.wake = none)
    (h : s.hostCommand c = .next t) : t.Inv ∧ (s.sched ≠ .notStarted → t.sched ≠ .notStarted → s.now ≤ t.now) := by
  have hidle : ∀ p, s.wake ≠ some p := fun p hp => by rw [hw] at hp; cases hp
  obtain ⟨-, -, rfl⟩ | ⟨bytes, -, -, rfl⟩ | ⟨-, hn, rfl⟩ | ⟨g, -, -, hc, rfl⟩ | ⟨g, -, -, hc, rfl⟩ | ⟨call, -, -, hcall⟩ :=
    State.hostCommand_cases h
  · exact ⟨State.resetMachine_inv hs.config, fun _ ht => absurd rfl ht⟩
  · exact ⟨hs.loadRom bytes, fun _ _ => (s.loadRom_now bytes).ge⟩
  · refine ⟨?_, fun h0 => absurd hn h0⟩
    exact { hs with
      clock := ⟨le_rfl, Nat.two_pow_pos 64⟩
      timer := State.startScheduler_timerInv hs.config hs.timer
      wake := fun p hp => absurd hp (hidle p) }
  · refine ⟨?_, fun _ _ => Nat.le_add_right _ _⟩
    exact { hs.readClock hc with
      timer := hs.timer.map rfl rfl fun tm => tm.pausedAt_succeeds _
      wake := fun p hp => absurd hp (hidle p) }
  · refine ⟨?_, fun _ _ => Nat.le_add_right _ _⟩
    exact { hs.readClock hc with
      timer := hs.timer.map rfl rfl fun tm => tm.resumedAt_succeeds _
      wake := fun p hp => absurd hp (hidle p) }
  · exact (hs.timerCall hcall).imp id fun hle _ _ => hle

/-! ### The step -/

theorem State.Poised.inv {s u : State} (h : s.Poised u) (hs : s.Inv) : u.Inv :=
  hs.of_unread (by rw [h])

end Sys2Proof.Machine

open Sys2Proof Sys2Proof.Machine

/-- Settles O55: each agent's move keeps the invariant, and what a step changes before the move is not read by it. -/
theorem everyStepKeepsTheInvariant : Obligations.EveryStepKeepsTheInvariant := by
  intro s t hs h
  obtain ⟨u, hu, hmove⟩ := step_cases h
  have hinv := hu.inv hs
  have hsched : u.sched = s.sched := by rw [hu]
  have hnow : u.now = s.now := by rw [hu]
  rw [← hsched, ← hnow]
  obtain ⟨gap, hm⟩ | rfl | ⟨hw, c, hc⟩ | ⟨-, c, rfl⟩ := hmove
  · exact (hinv.schedulerMove hm).imp id fun hle _ _ => hle
  · exact ⟨hinv.rendererMove, fun _ _ => u.rendererMove_now.ge⟩
  · exact hinv.hostCommand hw hc
  · exact ⟨hinv.of_unread rfl, fun _ _ => le_rfl⟩

/-- Settles O54, part by part: the table of R31 is blank but for the three timers, whose periods are in range. -/
theorem invariantHoldsAfterReset : Obligations.InvariantHoldsAfterReset := fun _ => State.resetWith_inv
end

section
/-!
PROOFS. No fault from the invariant, and which steps change the registers, memory, `FB` and the lock (10_state.md R10, R25;
20_memory.md R52, R55; 40_cpu_cycle.md R86).
-/

namespace Sys2Proof.Machine

/-! ### The step and its move -/

/-- A step serves a host command that waited for the end of a wake, or makes the next move. -/
theorem step_eq_command_or_move (s : State) :
    (∃ c rest, s.wake = none ∧ s.hostQueue = c :: rest ∧
        step s = ({ s with hostQueue := rest } : State).hostCommand c) ∨
      ∃ m u, s.takeMove = (m, u) ∧ step s = u.runMove m := by
  unfold step State.advance
  split
  · rename_i c rest hw hq
    exact .inl ⟨c, rest, hw, hq, rfl⟩
  · exact .inr ⟨_, _, rfl, rfl⟩

/-- The state that a move leaves to run in differs in the pending moves only. -/
theorem State.takeMove_snd {s u : State} {m : Move} (h : s.takeMove = (m, u)) :
    u = { s with moves := u.moves, moveDraws := u.moveDraws } := by
  have e := s.takeMove_eq
  rwa [h] at e

/-! ### Faults -/

/-- Only RET and a draw can fault: SP names no entry, or the table has no refresh timer (logs 17, 24). -/
theorem exec_fault_cases {i : Instr} {s : State} {f : Fault} (h : exec i s = .fault f) :
    (s.sp ≠ s.cfg.spEmpty ∧ s.stack[s.sp.toNat]? = none) ∨ s.refreshDeadline = none := by
  cases i
  case ret =>
    simp only [exec, execRet] at h
    obtain ⟨-, e⟩ | ⟨hne, hnone, -⟩ | ⟨a, -, -, e⟩ := s.pop_cases
    · rw [e] at h; cases h
    · exact .inl ⟨hne, hnone⟩
    · rw [e] at h; cases h
  case drw x y n =>
    simp only [exec, execDrw] at h
    split at h
    · split at h
      · split at h <;> cases h
      · rename_i hnone
        exact .inr hnone
    · split at h <;> cases h
    · cases h
  case call | ldB | store | load | ldVxK =>
    simp only [exec, execCall, execLdB, execStore, execLoad, execLdVxK] at h
    split at h <;> cases h
  all_goals cases h

theorem State.Inv.exec_ne_fault {s : State} (hs : s.Inv) (i : Instr) (f : Fault) : exec i s ≠ .fault f := by
  intro h
  obtain ⟨hne, hnone⟩ | hnone := exec_fault_cases h
  · have hlt := hs.stack.2.resolve_left hne
    have hle := List.getElem?_eq_none_iff.mp hnone
    have hlen := hs.stack.1
    omega
  · obtain ⟨tm, htm, -⟩ := hs.timer.2 .refresh
    simp [State.refreshDeadline, htm] at hnone

theorem State.Inv.cpuCycle_ne_fault {s : State} (hs : s.Inv) (f : Fault) : s.cpuCycle ≠ .fault f := by
  unfold State.cpuCycle State.runWord
  intro h
  split at h
  · cases h
  · split at h
    · cases h
    · split at h
      · cases h
      · rename_i i _
        split at h
        · cases h
        · rename_i hf
          exact hs.exec_ne_fault i _ hf
        · cases h

theorem State.Inv.runCallback_ne_fault {s : State} (hs : s.Inv) (cb : Callback) (f : Fault) :
    s.runCallback cb ≠ .fault f := by
  cases cb with
  | cpuCycle => exact hs.cpuCycle_ne_fault f
  | decay60 | refresh | noCallback => exact (nomatch ·)

/-- A legal timer that fires is configured, so its firing does not fault (48_scheduler.md R155). -/
theorem State.Inv.fireTimer_ne_fault {s : State} {p : WakePos} {tm : Timer} (hs : s.Inv)
    (hk : tm.kind ≠ .unconfigured) (f : Fault) : s.fireTimer p tm ≠ .fault f := by
  unfold State.fireTimer
  intro h
  rw [if_neg hk] at h
  split at h
  · cases h
  · split at h
    · cases h
    · rename_i hf
      exact hs.runCallback_ne_fault _ _ hf
    · cases h

theorem State.Inv.schedulerMove_ne_fault {s : State} (hs : s.Inv) (gap : Nat) (f : Fault) :
    s.schedulerMove gap ≠ .fault f := by
  unfold State.schedulerMove
  split
  · exact (nomatch ·)
  · exact (nomatch ·)
  · split
    · rename_i p _
      unfold State.wakeStep
      split
      · exact (nomatch ·)
      · rename_i tm htm
        split
        · rename_i hc
          simp only [Timer.due, Bool.and_eq_true] at hc
          exact hs.fireTimer_ne_fault ((hs.timer.1 tm (List.mem_of_getElem? htm)).configured (.inl hc.1.1)) f
        · exact (nomatch ·)
    · unfold State.beginWake
      split <;> exact (nomatch ·)

theorem State.timerCall_ne_fault (s : State) (call : TimerCall) (f : Fault) : s.timerCall call ≠ .fault f := by
  cases call with
  | register => exact (nomatch ·)
  | configureOneShot | configureCyclic =>
    simp only [State.timerCall]
    split
    · exact (nomatch ·)
    · split <;> exact (nomatch ·)
  | start =>
    simp only [State.timerCall]
    split
    · exact (nomatch ·)
    · split
      · exact (nomatch ·)
      · split <;> exact (nomatch ·)
  | stop =>
    simp only [State.timerCall]
    split <;> exact (nomatch ·)

theorem State.hostCommand_ne_fault (s : State) (c : HostCommand) (f : Fault) : s.hostCommand c ≠ .fault f := by
  cases c with
  | reset | loadRom | start =>
    simp only [State.hostCommand]
    split <;> exact (nomatch ·)
  | pause | resume =>
    simp only [State.hostCommand]
    split
    · split <;> exact (nomatch ·)
    · exact (nomatch ·)
  | timer call =>
    simp only [State.hostCommand]
    split
    · exact (nomatch ·)
    · exact s.timerCall_ne_fault call f

/-! ### What the moves of a running machine write -/

/-- A timer call writes the clock, the timers and the answer only. -/
theorem State.timerCall_only {s t : State} {call : TimerCall} (h : s.timerCall call = .next t) :
    t = { s with now := t.now, timers := t.timers, reply := t.reply } := by
  obtain ⟨cb, rfl⟩ | rfl | ⟨k, n, -, rfl⟩ | ⟨k, n, b, -, rfl⟩ | ⟨k, gap, tm, -, -, -, rfl⟩ | ⟨k, rfl⟩ :=
    State.timerCall_cases h <;> rfl

/-- A host command while the scheduler runs is a pause or a timer call (60_exceptions.md R210). -/
theorem State.hostCommand_running_only {s t : State} {c : HostCommand} (hr : s.sched = .running)
    (h : s.hostCommand c = .next t) :
    t = { s with sched := t.sched, now := t.now, timers := t.timers, reply := t.reply } := by
  obtain ⟨-, hn, -⟩ | ⟨bytes, -, hn, -⟩ | ⟨-, hn, -⟩ | ⟨g, -, -, -, rfl⟩ | ⟨g, -, -, -, rfl⟩ | ⟨call, -, -, hcall⟩ :=
    State.hostCommand_cases h
  · exact absurd hr hn
  · exact absurd hr hn
  · cases hr.symm.trans hn
  · rfl
  · rfl
  · rw [State.timerCall_only hcall]

/-- What a move of the scheduler writes beside a CPU cycle: the place of the wake, the clock, the timers, and what the two slow
callbacks write (48_scheduler.md R159, R172, R173). -/
def State.WritesNoCycle (s t : State) : Prop :=
  t = { s with
    now := t.now, tickTime := t.tickTime, wake := t.wake, timers := t.timers, dt := t.dt, st := t.st, out := t.out,
    tone := t.tone, composeBusy := t.composeBusy, copyPending := t.copyPending }

theorem State.WritesNoCycle.afterFiring {s u : State} (h : s.WritesNoCycle u) (p : WakePos) :
    s.WritesNoCycle (u.afterFiring p) := by
  rw [State.WritesNoCycle] at h
  rw [h]
  rfl

/-- The two slow callbacks, and none, run no cycle. -/
theorem State.runCallback_cycle_or_writesNoCycle {s t : State} {cb : Callback} (h : s.runCallback cb = .next t) :
    (cb = .cpuCycle ∧ s.cpuCycle = .next t) ∨ s.WritesNoCycle t := by
  obtain hcycle | ⟨-, rfl⟩ | ⟨-, rfl⟩ | ⟨-, rfl⟩ := State.runCallback_cases h
  · exact .inl hcycle
  · rw [State.decay60_eq]
    exact .inr rfl
  · exact .inr rfl
  · exact .inr rfl

/-- A firing of the timer `tm` runs a CPU cycle, which is not held (40_cpu_cycle.md R86). -/
structure State.RunsCycle (s : State) (p : WakePos) (tm : Timer) (u : State) : Prop where
  running : s.sched = .running
  wake : s.wake = some p
  timer : s.timers[p.handle]? = some tm
  configured : tm.kind ≠ .unconfigured
  active : tm.active = true
  due : tm.nextDeadline ≤ s.tickTime
  bound : p.count < s.cfg.maxExecPerWake
  handle : p.handle = s.cfg.handleOf .cpu
  callback : tm.callback = .cpuCycle
  free : s.cycleHeld = false
  cycle : s.cpuCycle = .next u

/-- A move of the scheduler runs one CPU cycle and reschedules `T_CPU`, or writes nothing that only a cycle writes. -/
theorem State.schedulerMove_runsCycle_or_writesNoCycle {s t : State} {gap : Nat} (h : s.schedulerMove gap = .next t) :
    (∃ p tm u, s.RunsCycle p tm u ∧ t = u.afterFiring p) ∨ s.WritesNoCycle t := by
  obtain ⟨-, rfl⟩ | ⟨-, -, -, rfl⟩ | ⟨p, hr, hwake, ⟨-, rfl⟩ | ⟨tm, htm, rfl | ⟨ha, hd, hb, hf⟩⟩⟩ :=
    State.schedulerMove_cases h
  · exact .inr rfl
  · exact .inr rfl
  · exact .inr rfl
  · exact .inr rfl
  obtain ⟨hk, ⟨-, rfl⟩ | ⟨hheld, u, hu, rfl⟩⟩ := State.fireTimer_cases hf
  · exact .inr rfl
  obtain ⟨hcb, hcycle⟩ | hw := State.runCallback_cycle_or_writesNoCycle hu
  · obtain ⟨hcall, hhandle⟩ := State.callbackOf_eq_cpuCycle.mp hcb
    rw [hcb] at hheld
    exact .inl ⟨p, tm, u, ⟨hr, hwake, htm, hk, ha, hd, hb, hhandle, hcall, hheld, hcycle⟩, rfl⟩
  · exact .inr (hw.afterFiring p)

/-- A step whose move runs a cycle is one that fires `T_CPU`. -/
theorem State.RunsCycle.firesCpu {s u t : State} {p : WakePos} {tm : Timer} {gap : Nat} (h : u.RunsCycle p tm t)
    (hm : s.takeMove = (.scheduler gap, u)) : s.FiresCpu u p tm := by
  obtain ⟨hr, hw, htm, hk, ha, hd, hb, hh, hc, -, -⟩ := h
  rw [State.takeMove_snd hm] at hr hw htm hd hb hh
  exact ⟨⟨⟨⟨gap, hm⟩, hr, hw, htm⟩, hk, ha, hd, hb⟩, hh, hc⟩

/-! ### The frame buffer under the lock -/

/-- The cycles that need `FBLock` are those that update `FB` (44_draw.md R130, R132, R133; log 18). -/
theorem needsLock_iff {s : State} {i : Instr} :
    needsLock s i = true ↔
      i = .cls ∨ ∃ x y n, i = .drw x y n ∧ s.i.toNat + n.toNat ≤ s.cfg.memSize ∧
        (s.drawPhase = .commit ∨ (s.drawPhase = .waiting ∧ s.drawDeadline ≤ s.tickTime)) := by
  cases i
  case cls => simp [needsLock]
  case drw x y n =>
    have hex : ∀ P : Nibble → Prop, (∃ x' y' n', Instr.drw x y n = .drw x' y' n' ∧ P n') ↔ P n := by simp
    rw [hex fun n => s.i.toNat + n.toNat ≤ s.cfg.memSize ∧ _]
    cases hp : s.drawPhase <;> simp [needsLock, hp, State.inMemory, and_comm]
  all_goals simp [needsLock]

/-- An instruction that does not need the lock leaves `FB` alone. -/
theorem exec_fb_of_not_needsLock {i : Instr} {s t : State} (h : exec i s = .next t) (hl : needsLock s i = false) :
    t.fb = s.fb := by
  obtain ⟨k, op, a, rfl⟩ | hw := exec_raises_or_writesOnly h
  · rfl
  cases i
  case cls => cases hl
  case drw x y n =>
    obtain ⟨-, d, -, -, rfl⟩ | ⟨-, rfl⟩ | ⟨hphase, rfl⟩ := execDrw_cases h
    · rfl
    · rfl
    · obtain ⟨-, e⟩ | ⟨cells, hin, -, -⟩ := s.commitDraw_cases x y n
      · rw [e]; rfl
      · rw [needsLock_iff.mpr (.inr ⟨x, y, n, rfl, hin, hphase⟩)] at hl
        cases hl
  all_goals
    simp only [State.WritesOnly] at hw
    rw [hw]

/-! ### The collaborator's three moves (60_exceptions.md R206) -/

theorem State.rendererMove_of_pending {s : State} (hl : s.fbLock = .free) (hb : s.composeBusy = true)
    (hp : s.copyPending = true) : s.rendererMove = { s with fbLock := .renderer } := by
  simp [State.rendererMove, hl, hb, hp]

theorem State.rendererMove_of_locked {s : State} (hl : s.fbLock = .renderer) :
    s.rendererMove = { s with frame := s.fb, fbLock := .free, copyPending := false } := by
  simp [State.rendererMove, hl]

theorem State.rendererMove_of_copied {s : State} (hl : s.fbLock = .free)
    (h : s.composeBusy = false ∨ s.copyPending = false) : s.rendererMove = { s with composeBusy := false } := by
  obtain h | h := h <;> simp [State.rendererMove, hl, h]

/-! ### The lock held -/

/-- While the collaborator holds the lock, a cycle that is not held leaves `FB` alone (10_state.md R25). -/
theorem State.cpuCycle_fb_of_locked {s t : State} (hl : s.fbLock = .renderer) (hheld : s.cycleHeld = false)
    (h : s.cpuCycle = .next t) : t.fb = s.fb := by
  obtain ⟨-, rfl⟩ | ⟨-, -, rfl⟩ | ⟨-, -, -, rfl⟩ | ⟨i, u, htrap, hf, hd, hu, rfl⟩ := State.cpuCycle_cases h
  · rfl
  · rfl
  · rfl
  · have hneeds : needsLock s i = false := by simpa [State.cycleHeld, hl, htrap, hf, hd] using hheld
    rw [State.endCycle_fb, exec_fb_of_not_needsLock hu hneeds]

/-- While the collaborator holds the lock, no move of the scheduler changes `FB` or the lock. -/
theorem State.schedulerMove_fb_of_locked {s t : State} {gap : Nat} (hl : s.fbLock = .renderer)
    (h : s.schedulerMove gap = .next t) : t.fb = s.fb ∧ t.fbLock = .renderer := by
  obtain ⟨p, tm, u, hrun, rfl⟩ | hw := State.schedulerMove_runsCycle_or_writesNoCycle h
  · have hlock := (State.cpuCycle_sameSchedule hrun.cycle).2
    have hfb := State.cpuCycle_fb_of_locked hl hrun.free hrun.cycle
    exact ⟨hfb, hlock.trans hl⟩
  · rw [State.WritesNoCycle] at hw
    rw [hw]
    exact ⟨rfl, hl⟩

end Sys2Proof.Machine

open Sys2Proof Sys2Proof.Machine

/-- Settles O56: the stack part and the timer part of the invariant rule the three faults out. -/
theorem noFaultFromTheInvariant : Obligations.NoFaultFromTheInvariant := by
  intro s f hs
  obtain ⟨c, rest, -, -, e⟩ | ⟨m, u, hm, e⟩ := step_eq_command_or_move s
  · rw [e]
    exact State.hostCommand_ne_fault _ _ _
  · have hu : u.Inv := hs.of_unread (by rw [State.takeMove_snd hm])
    rw [e]
    cases m with
    | scheduler gap => exact hu.schedulerMove_ne_fault gap f
    | renderer => exact (nomatch ·)
    | host c =>
      simp only [State.runMove]
      split
      · exact u.hostCommand_ne_fault c f
      · exact (nomatch ·)

/-- Settles O58: only the move that runs a cycle writes these fields, and that move fires `T_CPU`. -/
theorem onlyCyclesChangeTheRegisterFile : Obligations.OnlyCyclesChangeTheRegisterFile := by
  intro s t hr h hno
  obtain ⟨c, rest, -, -, e⟩ | ⟨m, u, hm, e⟩ := step_eq_command_or_move s <;> rw [e] at h
  · rw [State.hostCommand_running_only (s := { s with hostQueue := rest }) hr h]
    simp
  have hu := State.takeMove_snd hm
  cases m with
  | scheduler gap =>
    obtain ⟨p, tm, v, hrun, -⟩ | hw := State.schedulerMove_runsCycle_or_writesNoCycle h
    · exact absurd ⟨u, p, tm, hrun.firesCpu hm⟩ hno
    · rw [State.WritesNoCycle] at hw
      rw [hw, hu]
      simp
  | renderer =>
    cases h
    obtain ⟨-, e⟩ | ⟨-, -, -, e⟩ | ⟨-, e⟩ := u.rendererMove_cases <;> (rw [e, hu]; simp)
  | host c =>
    have hru : u.sched = .running := by rw [hu]; exact hr
    simp only [State.runMove] at h
    split at h
    · rw [State.hostCommand_running_only hru h, hu]
      simp
    · cases h
      rw [hu]
      simp

/-- Settles O60: a cycle that needs the lock is held, so only the collaborator's own move touches the lock, and none touches
`FB`. -/
theorem frameBufferStaysWhileLocked : Obligations.FrameBufferStaysWhileLocked := by
  refine ⟨fun s t hr hl h => ?_, fun s u hm hq => ?_, fun s i => needsLock_iff⟩
  · obtain ⟨u, hu, hmove⟩ := step_cases h
    have hr' : u.sched = .running := by rw [hu]; exact hr
    have hl' : u.fbLock = .renderer := by rw [hu]; exact hl
    have hfb : u.fb = s.fb := by rw [hu]
    rw [← hfb]
    obtain ⟨gap, hsch⟩ | rfl | ⟨-, c, hc⟩ | ⟨-, c, rfl⟩ := hmove
    · obtain ⟨e, hlt⟩ := State.schedulerMove_fb_of_locked hl' hsch
      exact ⟨e, fun hfree => by cases hlt.symm.trans hfree⟩
    · rw [State.rendererMove_of_locked hl']
      exact ⟨rfl, fun _ => ⟨rfl, rfl⟩⟩
    · rw [State.hostCommand_running_only hr' hc]
      exact ⟨rfl, fun hfree => by cases hl'.symm.trans hfree⟩
    · exact ⟨rfl, fun hfree => by cases hl'.symm.trans hfree⟩
  · have hwake : s.wake.isSome ∨ s.hostQueue = [] := by
      cases hw : s.wake with
      | none => exact .inr (hq hw)
      | some p => exact .inl rfl
    have hstep : step s = .next u.rendererMove := step_of_takeMove hm hwake
    have hu := State.takeMove_snd hm
    have hlock : u.fbLock = s.fbLock := by rw [hu]
    have hbusy : u.composeBusy = s.composeBusy := by rw [hu]
    have hpend : u.copyPending = s.copyPending := by rw [hu]
    have hfb : u.fb = s.fb := by rw [hu]
    rw [hstep, ← hlock, ← hbusy, ← hpend, ← hfb]
    exact ⟨fun hl hb hp => congrArg _ (State.rendererMove_of_pending hl hb hp),
      fun hl => congrArg _ (State.rendererMove_of_locked hl), fun hl h => congrArg _ (State.rendererMove_of_copied hl h)⟩
end

section
/-!
PROOFS. `Tone` and the trace (10_state.md R29), the sound timer and the key wait (45_keys_timers.md R143, R145), and the values
after reset (10_state.md R31).
-/

namespace Sys2Proof.Machine

/-! ### Tone follows the trace -/

/-- An event added to the trace comes last. -/
theorem toneAfterEvents_append (tone : Bool) (es : List (Event × Nat)) (e : Event) (tick : Nat) :
    toneAfterEvents tone (es ++ [(e, tick)]) = e.toneAfter (toneAfterEvents tone es) := by
  induction es generalizing tone with
  | nil => rfl
  | cons x es ih => exact ih _

theorem State.ToneInv.of_same {s t : State} (h : s.ToneInv) (htone : t.tone = s.tone) (hout : t.out = s.out) :
    t.ToneInv := by
  rw [State.ToneInv, htone, hout]
  exact h

theorem State.ToneInv.emit {s : State} (h : s.ToneInv) (e : Event) : (s.emit e).ToneInv := by
  rw [State.ToneInv, State.emit_tone, State.emit_out, toneAfterEvents_append, ← h]

theorem State.ToneInv.emitToneChange {s : State} (h : s.ToneInv) (old new : Byte) :
    (s.emitToneChange old new).ToneInv := by
  unfold State.emitToneChange
  split
  · exact h.emit _
  · split
    · exact h.emit _
    · exact h

/-- A poll emits at most the start or the stop of the cue (45_keys_timers.md R143). -/
theorem State.ToneInv.pollKeys {s : State} (h : s.ToneInv) (x : Nibble) : (s.pollKeys x).ToneInv := by
  have hcue : ∀ e, (s.emit e).ToneInv := h.emit
  unfold State.pollKeys
  split
  · split
    · exact (hcue .playTone).of_same rfl rfl
    · exact h
  · split
    · exact h
    · exact (hcue .stopTone).of_same rfl rfl

/-- Of the instructions only `LD Vx, K` and `LD ST, Vx` emit. -/
theorem exec_toneInv {i : Instr} {s t : State} (hs : s.ToneInv) (h : exec i s = .next t) : t.ToneInv := by
  obtain ⟨k, op, a, rfl⟩ | hw := exec_raises_or_writesOnly h
  · exact hs
  cases i
  case ldVxK x =>
    simp only [exec, execLdVxK] at h
    split at h <;> cases h
    · exact hs
    · exact State.ToneInv.pollKeys (s := s.setKeyCounter 0) hs x
  case ldStVx x =>
    cases h
    exact State.ToneInv.emitToneChange (s := s.setSt (s.reg x)) hs _ _
  all_goals
    simp only [State.WritesOnly] at hw
    exact hs.of_same (by rw [hw]) (by rw [hw])

theorem State.ToneInv.cpuCycle {s t : State} (hs : s.ToneInv) (h : s.cpuCycle = .next t) : t.ToneInv := by
  obtain ⟨-, rfl⟩ | ⟨-, -, rfl⟩ | ⟨-, -, -, rfl⟩ | ⟨i, u, -, -, -, hu, rfl⟩ := State.cpuCycle_cases h
  · exact hs
  · exact hs
  · exact hs
  · exact (exec_toneInv hs hu).of_same (State.endCycle_tone _ _ _) (State.endCycle_out _ _ _)

theorem State.ToneInv.decay60 {s : State} (hs : s.ToneInv) : s.decay60.ToneInv := by
  have hdt : s.tickDt.ToneInv := hs.of_same (by rw [State.tickDt_eq]) (by rw [State.tickDt_eq])
  unfold State.decay60 State.tickSt
  split
  · exact hdt
  · exact State.ToneInv.emitToneChange (s := s.tickDt.setSt (s.tickDt.st - 1#8)) hdt _ _

theorem State.ToneInv.runCallback {s t : State} {cb : Callback} (hs : s.ToneInv) (h : s.runCallback cb = .next t) :
    t.ToneInv := by
  obtain ⟨-, h⟩ | ⟨-, rfl⟩ | ⟨-, rfl⟩ | ⟨-, rfl⟩ := State.runCallback_cases h
  · exact hs.cpuCycle h
  · exact hs.decay60
  · exact (hs.emit .refresh).of_same rfl rfl
  · exact hs

theorem State.ToneInv.schedulerMove {s t : State} {gap : Nat} (hs : s.ToneInv) (h : s.schedulerMove gap = .next t) :
    t.ToneInv := by
  obtain ⟨-, rfl⟩ | ⟨-, -, -, rfl⟩ | ⟨p, -, -, ⟨-, rfl⟩ | ⟨tm, -, rfl | ⟨-, -, -, hf⟩⟩⟩ := State.schedulerMove_cases h
  · exact hs
  · exact hs
  · exact hs
  · exact hs
  · obtain ⟨-, ⟨-, rfl⟩ | ⟨-, u, hu, rfl⟩⟩ := State.fireTimer_cases hf
    · exact hs
    · exact (hs.runCallback hu).of_same rfl rfl

/-- No host command emits, and `Reset` empties the trace (10_state.md R31). -/
theorem State.ToneInv.hostCommand {s t : State} {c : HostCommand} (hs : s.ToneInv) (h : s.hostCommand c = .next t) :
    t.ToneInv := by
  obtain ⟨-, -, rfl⟩ | ⟨bytes, -, -, rfl⟩ | ⟨-, -, rfl⟩ | ⟨g, -, -, -, rfl⟩ | ⟨g, -, -, -, rfl⟩ | ⟨call, -, -, hcall⟩ :=
    State.hostCommand_cases h
  · rfl
  · unfold State.loadRom
    split <;> exact hs
  · exact hs
  · exact hs
  · exact hs
  · rw [State.timerCall_only hcall]
    exact hs

/-! ### The least pressed key -/

/-- Of the keys pressed at one instant one is the least, or none is pressed. -/
theorem exists_least_pressed_or_none (n : Nat) :
    (∃ k, Config.keyPressed n k = true ∧ ∀ j : Nibble, j.toNat < k.toNat → Config.keyPressed n j = false) ∨
      ∀ k, Config.keyPressed n k = false := by
  by_cases h : ∃ k, Config.keyPressed n k = true
  · obtain ⟨k, hk, hmin⟩ := (measure (BitVec.toNat (w := 4))).wf.has_min {k | Config.keyPressed n k = true} h
    exact .inl ⟨k, hk, fun j hj => by simpa using fun hp => hmin j hp hj⟩
  · exact .inr fun k => by simpa using fun hp => h ⟨k, hp⟩

/-! ### The polls of `LD Vx, K` (45_keys_timers.md R143) -/

theorem State.pollKeys_of_pressed {s : State} {k : Nibble} (x : Nibble) (hp : s.keyPhase = .waitPress)
    (hk : s.firstKey = some k) : s.pollKeys x = (s.keysAsked.keyFound x k).repeatCycle := by
  simp [State.pollKeys, hp, hk]

theorem State.pollKeys_of_none_pressed {s : State} (x : Nibble) (hp : s.keyPhase = .waitPress)
    (hk : s.firstKey = none) : s.pollKeys x = s.keysAsked.repeatCycle := by
  simp [State.pollKeys, hp, hk]

theorem State.pollKeys_of_waitRelease {s : State} (x : Nibble) (hp : s.keyPhase = .waitRelease) :
    s.pollKeys x =
      if s.keyPressed s.keyLatched then s.keysAsked.repeatCycle else s.keysAsked.keyReleased := by
  simp [State.pollKeys, hp]

/-- All that finding a pressed key does. -/
theorem State.keyFound_eq (s : State) (x k : Nibble) :
    s.keyFound x k = { s with
      v := (s.setReg x (k.setWidth 8)).v, keyLatched := k, keyPhase := .waitRelease, tone := true,
      out := s.out ++ [(.playTone, s.tickTime)] } :=
  rfl

/-- A cycle that polls. -/
theorem execLdVxK_of_poll {s : State} (x : Nibble) (h : s.cfg.keyDiv ≤ s.keyCounter + 1) :
    exec (.ldVxK x) s = .next ((s.setKeyCounter 0).pollKeys x) :=
  if_neg (Nat.not_lt.mpr h)

/-! ### The values after reset -/

theorem progStart_lt {c : Config} (h : c.wf = true) : c.progStart < 2 ^ 16 := by
  simp only [Config.wf, Bool.and_eq_true, decide_eq_true_eq] at h
  omega

theorem State.resetWith_hasResetValues {c : Config} (h : c.wf = true) : (State.resetWith c).HasResetValues where
  v x := by simp [State.reg, State.resetWith]
  pc := Nat.mod_eq_of_lt (progStart_lt h)
  sp := rfl
  i := rfl
  dt := rfl
  st := rfl
  jumpFlag := rfl
  stack := rfl
  font a (ha : a < c.font.length) := by simp [State.readByte, State.resetWith, Cells.read, Config.resetByte, ha]
  rest a (ha : c.font.length ≤ a) := by simp [State.readByte, State.resetWith, Cells.read, Config.resetByte, ha]
  fb _ _ := rfl
  fbLock := rfl
  drawPhase := rfl
  drawDeadline := rfl
  keyPhase := rfl
  keyCounter := rfl
  keyLatched := rfl
  trap := rfl
  sched := rfl
  tickTime := rfl
  tone := rfl
  out := rfl
  timerCount := by simp [State.resetWith, timerOrder_length h]
  timers t := ⟨_, resetWith_timer h t, rfl, resetRow_period_toNat h t, rfl, rfl, rfl, rfl, rfl, rfl⟩

/-- The fields that `Reset` keeps are not in the table of R31 (70_reset_and_hazards.md R220, log 25). -/
theorem State.resetMachine_hasResetValues {s : State} (h : s.cfg.wf = true) : s.resetMachine.HasResetValues :=
  { State.resetWith_hasResetValues h with }

end Sys2Proof.Machine

open Sys2Proof Sys2Proof.Machine

/-- Settles O59: every event goes through `emit`, and `Tone` with it. -/
theorem toneFollowsTheLastEvent : Obligations.ToneFollowsTheLastEvent := by
  intro s t hs h
  obtain ⟨u, hu, hmove⟩ := step_cases h
  have hinv : u.ToneInv := hs.of_same (by rw [hu]) (by rw [hu])
  obtain ⟨gap, hm⟩ | rfl | ⟨-, c, hc⟩ | ⟨-, c, rfl⟩ := hmove
  · exact hinv.schedulerMove hm
  · obtain ⟨-, e⟩ | ⟨-, -, -, e⟩ | ⟨-, e⟩ := u.rendererMove_cases <;> (rw [e]; exact hinv)
  · exact hinv.hostCommand hc
  · exact hinv

/-- Settles O41, by the three cases of a change between zero and non-zero. -/
theorem soundTimerWriteEmitsToneChanges : Obligations.SoundTimerWriteEmitsToneChanges := by
  intro s x
  refine ⟨_, rfl, State.emitToneChange_eq _ _ _, fun h0 hx => ?_, fun h0 hx => ?_, fun hiff => ?_⟩
  · simp [State.emitToneChange, h0, hx, Event.toneAfter]
  · simp [State.emitToneChange, h0, hx, Event.toneAfter]
  · by_cases h0 : s.st = 0x00#8
    · simp [State.emitToneChange, h0, hiff.mp h0]
    · simp [State.emitToneChange, h0, mt hiff.mpr h0]

/-- Settles O42, by the two kinds of cycle: one below `KEY_DIV` only counts, the other polls for the release. -/
theorem keyWaitCountsAndEndsAtRelease : Obligations.KeyWaitCountsAndEndsAtRelease := by
  refine fun s x => ⟨fun h => if_pos h, fun h hp => ?_⟩
  rw [execLdVxK_of_poll x h, State.pollKeys_of_waitRelease (s := s.setKeyCounter 0) x hp]
  rfl

/-- Settles O43: the least pressed key, where there is one, is what the scan finds. -/
theorem keyWaitTakesTheLeastPressedKey : Obligations.KeyWaitTakesTheLeastPressedKey := by
  intro s x h hp
  rw [execLdVxK_of_poll x h]
  obtain ⟨k, hk, hmin⟩ | hnone := exists_least_pressed_or_none s.keyDraws
  · have hfirst : (s.setKeyCounter 0).firstKey = some k := State.firstKey_eq_some _ hk hmin
    rw [State.pollKeys_of_pressed (s := s.setKeyCounter 0) x hp hfirst, State.keyFound_eq]
    refine .inl ⟨k, _, hk, hmin, rfl, ?_, fun y hy => ?_, rfl⟩
    · exact (congrArg BitVec.toNat (s.reg_setReg_same x _)).trans (BitVec.toNat_setWidth_of_le (by decide))
    · exact s.reg_setReg_other _ hy
  · have hfirst : (s.setKeyCounter 0).firstKey = none := State.firstKey_eq_none _ hnone
    rw [State.pollKeys_of_none_pressed (s := s.setKeyCounter 0) x hp hfirst]
    exact .inr ⟨hnone, rfl⟩

/-- Settles O53: the command `Reset` differs from the state after reset only in fields that the table does not name. -/
theorem resetLeavesTheSpecifiedValues : Obligations.ResetLeavesTheSpecifiedValues := by
  refine ⟨fun c h => ⟨State.resetWith_hasResetValues h, rfl⟩, fun s h hr => ⟨s.resetMachine, if_neg hr, ?_⟩⟩
  exact ⟨State.resetMachine_hasResetValues h, rfl, rfl, rfl, rfl, rfl, rfl, rfl, rfl, rfl, rfl, rfl, rfl, rfl, rfl⟩
end

section
/-!
PROOFS. The call stack: what CALL and RET do where they complete, and what a run of pushes leaves (20_memory.md R47, R48;
41_control_flow.md R90, R92).
-/

namespace Sys2Proof.Machine

/-! ### Push and pop -/

/-- Where `Push` finds room: at entry 0 of an empty stack, at the entry above SP otherwise (R47). -/
theorem State.pushIndex_eq_some_iff {s : State} {k : Nat} :
    s.pushIndex = some k ↔
      (s.sp = s.cfg.spEmpty ∧ k = 0) ∨ (s.sp ≠ s.cfg.spEmpty ∧ k = s.sp.toNat + 1 ∧ k < s.cfg.stackCap) := by
  unfold State.pushIndex
  split
  · rename_i he
    simp [he, eq_comm]
  · rename_i hne
    split <;> (simp [hne]; omega)

/-- With room, `Push` finds its entry. -/
theorem State.pushIndex_of_room {s : State} (h : s.sp = s.cfg.spEmpty ∨ s.sp.toNat + 1 < s.cfg.stackCap) :
    s.pushIndex = some (if s.sp = s.cfg.spEmpty then 0 else s.sp.toNat + 1) := by
  rw [State.pushIndex_eq_some_iff]
  by_cases he : s.sp = s.cfg.spEmpty
  · exact .inl ⟨he, if_pos he⟩
  · exact .inr ⟨he, if_neg he, by simpa [he] using h⟩

/-- On a full stack `Push` finds no entry (R47). -/
theorem State.pushIndex_of_full {s : State} (hne : s.sp ≠ s.cfg.spEmpty) (hfull : s.cfg.stackCap ≤ s.sp.toNat + 1) :
    s.pushIndex = none := by
  simp [State.pushIndex, hne, hfull]

theorem State.push_of_pushIndex {s : State} {k : Nat} (a : Word) (hk : s.pushIndex = some k) :
    s.push a = some { s with sp := BitVec.ofNat 8 k, stack := s.stack.set k a } := by
  simp [State.push, hk]

/-- The sentinel lies outside the indices of the stack (00_scope.md R5). -/
theorem stackCap_le_spEmpty {c : Config} (h : c.wf = true) : c.stackCap ≤ c.spEmpty.toNat := by
  simp only [Config.wf, Bool.and_eq_true, decide_eq_true_eq] at h
  omega

/-- SP below the capacity names an entry, so it is not the sentinel. -/
theorem ne_spEmpty_of_lt {c : Config} {b : Byte} (hc : c.wf = true) (h : b.toNat < c.stackCap) : b ≠ c.spEmpty := by
  have hempty := stackCap_le_spEmpty hc
  rintro rfl
  omega

/-- SP has room for every index of the stack (10_state.md R14). -/
theorem toNat_ofNat_of_lt_stackCap {c : Config} {k : Nat} (hc : c.wf = true) (hk : k < c.stackCap) :
    (BitVec.ofNat 8 k).toNat = k :=
  Nat.mod_eq_of_lt (by have := (stackCap_bounds hc).2; omega)

/-- A pop brings SP back to where it stood before the push (10_state.md D23). -/
theorem State.sp_of_pop_after_push {s : State} {k : Nat} (hc : s.cfg.wf = true) (hk : s.pushIndex = some k) :
    (if BitVec.ofNat 8 k = 0x00#8 then s.cfg.spEmpty else BitVec.ofNat 8 k - 1#8) = s.sp := by
  have hcap := (stackCap_bounds hc).2
  obtain ⟨he, rfl⟩ | ⟨-, rfl, hlt⟩ := State.pushIndex_eq_some_iff.mp hk
  · exact he.symm
  · rw [if_neg (by bv_omega)]
    bv_omega

/-! ### CALL and RET where they complete -/

/-- The return address as a number. -/
theorem State.returnAddr_eq (s : State) : s.returnAddr = BitVec.ofNat 16 (s.pc.toNat + 2) :=
  BitVec.eq_of_toNat_eq (by simp [State.returnAddr])

theorem toNat_addrOf (nnn : Addr12) : (addrOf nnn).toNat = nnn.toNat :=
  BitVec.toNat_setWidth_of_le (by decide)

/-- CALL with room on the stack (41_control_flow.md R92). -/
theorem exec_call_of_pushIndex {s : State} {k : Nat} (nnn : Addr12) (hk : s.pushIndex = some k) :
    exec (.call nnn) s = .next { s with
      sp := BitVec.ofNat 8 k, stack := s.stack.set k s.returnAddr, pc := addrOf nnn, jumpFlag := true } := by
  simp [exec, execCall, State.push_of_pushIndex _ hk, State.transfer]

/-- RET with an entry at SP (R90). -/
theorem exec_ret_of_entry {s : State} {a : Word} (hne : s.sp ≠ s.cfg.spEmpty) (ha : s.stack[s.sp.toNat]? = some a) :
    exec .ret s = .next { s with
      sp := if s.sp = 0x00#8 then s.cfg.spEmpty else s.sp - 1#8, pc := a, jumpFlag := true } := by
  simp [exec, execRet, State.pop, hne, ha, State.transfer]

/-! ### A run of pushes -/

/-- The addresses `as`, oldest first, are what stands on the stack: its first entries, with SP at the last of them, and the
sentinel where there is none (10_state.md R14, R18). -/
structure State.HoldsAddresses (s : State) (as : List Word) : Prop where
  length : s.stack.length = s.cfg.stackCap
  entries : s.stack.take as.length = as
  top : (as = [] ∧ s.sp = s.cfg.spEmpty) ∨ s.sp.toNat + 1 = as.length

/-- A push below the capacity adds its address at the end (R47). -/
theorem State.HoldsAddresses.push {s : State} {as : List Word} (hs : s.HoldsAddresses as) (hc : s.cfg.wf = true)
    (hroom : as.length < s.cfg.stackCap) (a : Word) :
    ∃ t, s.push a = some t ∧ t.cfg = s.cfg ∧ t.HoldsAddresses (as ++ [a]) := by
  obtain ⟨hlen, hentries, htop⟩ := hs
  have hk : s.pushIndex = some as.length := by
    rw [State.pushIndex_eq_some_iff]
    obtain ⟨rfl, he⟩ | htop := htop
    · exact .inl ⟨he, rfl⟩
    · exact .inr ⟨ne_spEmpty_of_lt hc (by omega), htop.symm, hroom⟩
  refine ⟨_, State.push_of_pushIndex a hk, rfl, by simpa using hlen, ?_, .inr ?_⟩
  · simp [List.take_add_one, List.take_set, List.set_eq_of_length_le, hentries, hlen, hroom]
  · simp [toNat_ofNat_of_lt_stackCap hc hroom]

/-- On a stack that holds `STACK_CAP` addresses a push overflows. -/
theorem State.HoldsAddresses.push_of_full {s : State} {as : List Word} (hs : s.HoldsAddresses as) (hc : s.cfg.wf = true)
    (hfull : as.length = s.cfg.stackCap) : s.sp.toNat = s.cfg.stackCap - 1 ∧ ∀ a, s.push a = none := by
  have hpos := (stackCap_bounds hc).1
  have htop : s.sp.toNat + 1 = as.length := hs.top.resolve_left fun h => by simp [h.1] at hfull; omega
  have hne : s.sp ≠ s.cfg.spEmpty := ne_spEmpty_of_lt hc (by omega)
  refine ⟨by omega, fun a => ?_⟩
  simp [State.push, State.pushIndex_of_full hne (by omega)]

/-- As many pushes as there is room for succeed. -/
theorem State.HoldsAddresses.pushes {s : State} {as : List Word} (hs : s.HoldsAddresses as) (hc : s.cfg.wf = true)
    (bs : List Word) (hroom : as.length + bs.length ≤ s.cfg.stackCap) :
    ∃ t, bs.foldlM State.push s = some t ∧ t.cfg = s.cfg ∧ t.HoldsAddresses (as ++ bs) := by
  induction bs generalizing s as with
  | nil => exact ⟨s, rfl, rfl, by simpa using hs⟩
  | cons b bs ih =>
    rw [List.length_cons] at hroom
    obtain ⟨u, hu, hcfg, hus⟩ := hs.push hc (by omega) b
    obtain ⟨t, ht, hcfg', hts⟩ := ih hus (hcfg ▸ hc) (by simp [hcfg]; omega)
    exact ⟨t, by simp [hu, ht], hcfg'.trans hcfg, by simpa using hts⟩

end Sys2Proof.Machine

open Sys2Proof Sys2Proof.Machine

/-- Settles O20: CALL writes the entry that SP then names, and one below it is where SP stood. -/
theorem callThenReturnComesBack : Obligations.CallThenReturnComesBack := by
  intro s nnn hc hs hroom
  obtain ⟨k, hk⟩ : ∃ k, s.pushIndex = some k := ⟨_, State.pushIndex_of_room hroom⟩
  have hlt : k < s.cfg.stackCap := State.pushIndex_lt (stackCap_bounds hc).1 hk
  have hsp := toNat_ofNat_of_lt_stackCap hc hlt
  have hne : BitVec.ofNat 8 k ≠ s.cfg.spEmpty := ne_spEmpty_of_lt hc (hsp.trans_lt hlt)
  refine ⟨_, _, exec_call_of_pushIndex nnn hk, exec_ret_of_entry (a := s.returnAddr) hne ?_, rfl, ?_, rfl, rfl⟩
  · simp [hsp, hs.1, hlt]
  · exact State.sp_of_pop_after_push hc hk

/-- Settles O21: the run starts from a stack that holds no address and ends at one that holds them all. -/
theorem stackHoldsCapacityAddresses : Obligations.StackHoldsCapacityAddresses := by
  intro s as hc hlen he hcap
  have hs : s.HoldsAddresses [] := ⟨hlen, rfl, .inl ⟨rfl, he⟩⟩
  obtain ⟨t, ht, hcfg, hts⟩ := hs.pushes hc as (by simp [hcap])
  obtain ⟨hsp, hfull⟩ := hts.push_of_full (hcfg ▸ hc) (by simpa [hcfg] using hcap)
  have hstack : t.stack.length = as.length := by rw [hts.length, hcfg, hcap]
  have hall : t.stack.take as.length = t.stack := List.take_of_length_le hstack.le
  exact ⟨t, ht, hall.symm.trans hts.entries, hcfg ▸ hsp, hfull⟩

/-- Settles O14, by the two cases of SP: at entry 0 and above it. -/
theorem returnPopsTheTopAddress : Obligations.ReturnPopsTheTopAddress := by
  intro s a hne ha
  refine ⟨_, exec_ret_of_entry hne ha, rfl, fun h0 => ?_, fun hpos => ?_, rfl⟩
  · exact if_pos (BitVec.eq_of_toNat_eq h0)
  · have h0 : s.sp ≠ 0x00#8 := by bv_omega
    simp only [if_neg h0]
    bv_omega

/-- Settles O16: the entry that the push finds is the one SP names afterwards. -/
theorem callPushesTheReturnAddress : Obligations.CallPushesTheReturnAddress := by
  intro s nnn hcap hlen hpos hroom
  have hk := State.pushIndex_of_room hroom
  have hlt := State.pushIndex_lt hpos hk
  refine ⟨_, exec_call_of_pushIndex nnn hk, ?_⟩
  generalize (if s.sp = s.cfg.spEmpty then 0 else s.sp.toNat + 1) = k at hlt ⊢
  have hsp : (BitVec.ofNat 8 k).toNat = k := Nat.mod_eq_of_lt (by omega)
  refine ⟨hsp, ?_, fun j hj => List.getElem?_set_ne ?_, toNat_addrOf nnn, rfl⟩
  · simp [hsp, hlen, hlt, State.returnAddr_eq]
  · simpa [hsp] using hj.symm
end

section
/-!
PROOFS. Memory: the bytes that a store leaves, and the accesses that do not lie in it (20_memory.md R43, R44, R49;
60_exceptions.md R198).
-/

namespace Sys2Proof.Machine

/-! ### Stored bytes -/

/-- Inside the range stored each address holds its byte. -/
theorem State.readByte_storeBytes_inside {s : State} {a : Nat} {bs : List Byte} (hm : s.MemoryInv)
    (h : a + bs.length ≤ s.cfg.memSize) (k : Nat) (hk : k < bs.length) :
    (s.storeBytes a bs).readByte (a + k) = bs[k] :=
  Cells.read_writeList_inside hm h k hk

/-- Outside the range stored every byte stays. -/
theorem State.readByte_storeBytes_outside (s : State) {a p : Nat} {bs : List Byte} (h : p < a ∨ a + bs.length ≤ p) :
    (s.storeBytes a bs).readByte p = s.readByte p :=
  Cells.read_writeList_outside h

/-! ### Accesses that do not lie in memory -/

theorem State.memWrite_of_outside {s : State} {a : Word} {bs : List Byte} (h : s.cfg.memSize < a.toNat + bs.length) :
    s.memWrite a bs = none := by
  simp [State.memWrite, State.inMemory, h]

theorem State.memRead_of_outside {s : State} {a : Word} {n : Nat} (h : s.cfg.memSize < a.toNat + n) :
    s.memRead a n = none := by
  simp [State.memRead, State.inMemory, h]

/-- The trap of an access that does not lie in memory (60_exceptions.md R198). -/
def State.raiseOutside (s : State) (i : Instr) : State := s.raise .memoryAccessOutOfBounds (encode i) s.i.toNat

variable {s : State} {x y n : Nibble}

theorem exec_ldB_of_outside (h : s.cfg.memSize < s.i.toNat + 3) : exec (.ldB x) s = .next (s.raiseOutside (.ldB x)) := by
  have hw : s.memWrite s.i (bcdDigits (s.reg x)) = none := State.memWrite_of_outside h
  simp [exec, execLdB, hw, State.raiseOutside]

theorem exec_store_of_outside (h : s.cfg.memSize < s.i.toNat + (x.toNat + 1)) :
    exec (.store x) s = .next (s.raiseOutside (.store x)) := by
  have hw : s.memWrite s.i (s.regsUpTo (blockCount x)) = none := State.memWrite_of_outside (by simpa [blockCount] using h)
  simp [exec, execStore, hw, State.raiseOutside]

theorem exec_load_of_outside (h : s.cfg.memSize < s.i.toNat + (x.toNat + 1)) :
    exec (.load x) s = .next (s.raiseOutside (.load x)) := by
  have hr : s.memRead s.i (blockCount x) = none := State.memRead_of_outside h
  simp [exec, execLoad, hr, State.raiseOutside]

/-- A draw in its committing cycle reads its sprite before it writes anything (44_draw.md R133). -/
theorem exec_drw_of_outside (hp : s.drawPhase = .waiting) (hd : s.drawDeadline ≤ s.tickTime)
    (h : s.cfg.memSize < s.i.toNat + n.toNat) : exec (.drw x y n) s = .next (s.raiseOutside (.drw x y n)) := by
  have hr : s.memRead s.i n.toNat = none := State.memRead_of_outside h
  simp [exec, execDrw, hp, hd, State.commitDraw, hr, State.raiseOutside]

end Sys2Proof.Machine

open Sys2Proof Sys2Proof.Machine

/-- Settles O52, by the two sides of the bound. -/
theorem loadRomCopiesOrRejects : Obligations.LoadRomCopiesOrRejects := by
  intro s bytes hm hr
  have hrun : s.hostCommand (.loadRom bytes) = .next (s.loadRom bytes) := if_neg hr
  rw [hrun]
  refine ⟨fun hlen => ?_, fun hlen => congrArg _ (if_neg (Nat.not_lt.mpr hlen))⟩
  have hin : s.cfg.progStart + bytes.length ≤ s.cfg.memSize := by omega
  have hload : s.loadRom bytes = (s.storeBytes s.cfg.progStart bytes).answer (.romLoaded true) := if_pos hlen
  rw [hload]
  exact ⟨_, rfl, rfl, State.readByte_storeBytes_inside hm hin, fun a => s.readByte_storeBytes_outside, rfl⟩

/-- Settles O32: each of the four answers its trap, and a trap changes nothing else. -/
theorem outOfRangeAccessTraps : Obligations.OutOfRangeAccessTraps := by
  intro s x y n i len hi hout
  refine ⟨s.raiseOutside i, ?_, s.raise_changesOnlyByTrap _ _ _⟩
  obtain ⟨rfl, rfl⟩ | ⟨rfl, rfl⟩ | ⟨rfl, rfl⟩ | ⟨rfl, rfl, hp, hd⟩ := hi
  · exact exec_ldB_of_outside hout
  · exact exec_store_of_outside hout
  · exact exec_load_of_outside hout
  · exact exec_drw_of_outside hp hd hout
end

section
/-!
PROOFS. The scheduler's step: what it does in each place of a wake, stated as equations (48_scheduler.md R158, R159, R163;
40_cpu_cycle.md R80, R86).
-/

namespace Sys2Proof.Machine

variable {s u t : State} {p : WakePos} {tm : Timer} {i : Instr} {gap : Nat}

/-! ### A move of the scheduler -/

/-- The state that a move leaves to run in, with its pending moves named. -/
theorem State.takeMove_exists {m : Move} (h : s.takeMove = (m, u)) :
    ∃ moves draws, u = { s with moves := moves, moveDraws := draws } :=
  ⟨_, _, State.takeMove_snd h⟩

/-- Where no host command waits to be served between wakes, a step whose move is the scheduler's is that move (log 5). -/
theorem step_of_scheduler (h : s.takeMove = (.scheduler gap, u)) (hq : s.wake = none → s.hostQueue = []) :
    step s = u.schedulerMove gap := by
  refine step_of_takeMove h ?_
  cases hw : s.wake with
  | none => exact .inr (hq hw)
  | some p => exact .inl rfl

/-- Not started or paused, the scheduler does nothing (R159, log 28). -/
theorem State.schedulerMove_of_stopped (h : s.sched ≠ .running) : s.schedulerMove gap = .next s := by
  unfold State.schedulerMove
  split
  · rfl
  · rfl
  · rename_i hr
    exact absurd hr h

/-- With no wake in progress the clock is read and a wake begins (R158). -/
theorem State.schedulerMove_of_no_wake (hr : s.sched = .running) (hw : s.wake = none)
    (hc : s.now + gap < Config.clockEnd) :
    s.schedulerMove gap =
      .next { s with now := s.now + gap, tickTime := s.now + gap, wake := some ⟨0, 0⟩ } := by
  simp [State.schedulerMove, hr, hw, State.beginWake, State.readClock, hc]

/-- Past the last timer the wake ends (R159). -/
theorem State.schedulerMove_past_last (hr : s.sched = .running) (hw : s.wake = some p)
    (hp : s.timers.length ≤ p.handle) : s.schedulerMove gap = .next s.endWake := by
  simp [State.schedulerMove, hr, hw, State.wakeStep, hp]

/-! ### A firing -/

/-- A timer whose callback is not held runs it, and is then rescheduled (R159). -/
theorem State.fireTimer_of_free {cb : Callback} (hk : tm.kind ≠ .unconfigured) (hcb : s.callbackOf p.handle tm = cb)
    (hfree : s.callbackHeld cb = false) (hrun : s.runCallback cb = .next t) :
    s.fireTimer p tm = .next (t.afterFiring p) := by
  simp [State.fireTimer, hk, hcb, hfree, hrun]

/-- A timer whose callback is held waits. -/
theorem State.fireTimer_of_held (hk : tm.kind ≠ .unconfigured) (hheld : s.callbackHeld (s.callbackOf p.handle tm) = true) :
    s.fireTimer p tm = .next s := by
  simp [State.fireTimer, hk, hheld]

/-- A firing of `T_CPU` after a trap, or of another timer registered with `CpuCycle` or with no callback, does nothing but
the reschedule (40_cpu_cycle.md R86; logs 14, 33). -/
theorem State.fireTimer_without_cycle (hk : tm.kind ≠ .unconfigured)
    (h : (tm.callback = .cpuCycle ∧ (s.trap.isSome ∨ p.handle ≠ s.cfg.handleOf .cpu)) ∨ tm.callback = .noCallback) :
    s.fireTimer p tm = .next (s.afterFiring p) := by
  by_cases hcpu : s.callbackOf p.handle tm = .cpuCycle
  · obtain ⟨hcb, hh⟩ := State.callbackOf_eq_cpuCycle.mp hcpu
    have htrap : s.trap.isSome := by simpa [hcb, hh] using h
    refine State.fireTimer_of_free hk hcpu ?_ (if_pos htrap)
    simp [State.callbackHeld, State.cycleHeld, Option.isNone_eq_false_iff.mpr htrap]
  · have hnone : s.callbackOf p.handle tm = .noCallback := by
      rw [State.callbackOf_eq_cpuCycle] at hcpu
      obtain ⟨hcb, -⟩ | hcb := h
      · exact if_pos ⟨hcb, fun hh => hcpu ⟨hcb, hh⟩⟩
      · exact (State.callbackOf_self (by simp [hcb])).trans hcb
    exact State.fireTimer_of_free hk hnone rfl rfl

/-- Whether the cycle of a decoded instruction is held (10_state.md R25, log 10). -/
theorem State.cycleHeld_of_decode (htrap : s.trap = none) (hin : s.fetchOutside = false)
    (hd : decode s.fetchWord = .instr i) : s.cycleHeld = (s.fbLock == .renderer && needsLock s i) := by
  simp [State.cycleHeld, htrap, hin, hd]

/-! ### The step before a timer -/

/-- A timer that is not due, or has fired up to the bound, is passed over (48_scheduler.md R163). -/
theorem State.StandsAt.step_of_passed (h : s.StandsAt u p tm)
    (hpass : tm.active = false ∨ s.tickTime < tm.nextDeadline ∨ s.cfg.maxExecPerWake ≤ p.count) :
    step s = .next (u.nextTimer p) := by
  have hnot : (tm.due s.tickTime && decide (p.count < s.cfg.maxExecPerWake)) = false := by
    obtain h | h | h := hpass <;> simp [Timer.due, h]
  rw [h.step_eq, hnot]
  rfl

/-- In the step that fires `T_CPU` the callback is the CPU cycle (40_cpu_cycle.md R86). -/
theorem State.FiresCpu.callbackOf_eq (h : s.FiresCpu u p tm) : u.callbackOf p.handle tm = .cpuCycle := by
  obtain ⟨hfires, hhandle, hcb⟩ := h
  obtain ⟨gap, hm⟩ := hfires.stands.1
  rw [State.takeMove_snd hm]
  exact State.callbackOf_eq_cpuCycle.mpr ⟨hcb, hhandle⟩

/-- The step that fires `T_CPU` waits where its cycle is held (10_state.md R25, log 10). -/
theorem State.FiresCpu.step_of_held (h : s.FiresCpu u p tm) (hheld : u.cycleHeld = true) : step s = .next u := by
  rw [h.1.step_eq]
  exact State.fireTimer_of_held h.1.configured (by rw [h.callbackOf_eq]; exact hheld)

/-- The step that fires `T_CPU` is its cycle and the reschedule (40_cpu_cycle.md R80). -/
theorem State.FiresCpu.step_of_free (h : s.FiresCpu u p tm) (hfree : u.cycleHeld = false) (hrun : u.cpuCycle = .next t) :
    step s = .next (t.afterFiring p) := by
  rw [h.1.step_eq]
  exact State.fireTimer_of_free h.1.configured h.callbackOf_eq hfree hrun

end Sys2Proof.Machine

open Sys2Proof Sys2Proof.Machine

/-- Settles O6, place by place: the step is the scheduler's move, in a state that differs in the pending moves only. -/
theorem stepRunsTheDecodedInstruction : Obligations.StepRunsTheDecodedInstruction := by
  refine ⟨fun s u gap hm hr hw hq hc => ?_, fun s u gap p hm hr hw hp => ?_, fun s u p tm hstands hpass => ?_,
    fun s u t p tm i hf htrap hpc hd => ?_, fun s u p tm hf hcb => ?_, fun s u gap hm hr hq => ?_⟩
  · rw [step_of_scheduler hm fun _ => hq]
    obtain ⟨moves, draws, rfl⟩ := State.takeMove_exists hm
    exact State.schedulerMove_of_no_wake hr hw hc
  · rw [step_of_scheduler hm (by simp [hw])]
    obtain ⟨moves, draws, rfl⟩ := State.takeMove_exists hm
    exact State.schedulerMove_past_last hr hw hp
  · exact hstands.step_of_passed hpass
  · obtain ⟨gap, hm⟩ := hf.1.stands.1
    obtain ⟨moves, draws, rfl⟩ := State.takeMove_exists hm
    rw [← State.fetchWord_eq] at hd ⊢
    have hin : s.fetchOutside = false := decide_eq_false (Nat.not_le.mpr hpc)
    have hheld : ({ s with moves := moves, moveDraws := draws } : State).cycleHeld =
        (s.fbLock == .renderer && needsLock s i) := State.cycleHeld_of_decode htrap hin hd
    refine ⟨fun ⟨hl, hn⟩ => hf.step_of_held (hheld.trans (by simp [hl, hn])), fun hfree he => ?_⟩
    refine hf.step_of_free (hheld.trans ?_) (State.cpuCycle_run htrap hin rfl hd he)
    obtain hl | hn := hfree
    · simp [hl]
    · simp [hn]
  · obtain ⟨gap, hm⟩ := hf.stands.1
    rw [hf.step_eq]
    obtain ⟨moves, draws, rfl⟩ := State.takeMove_exists hm
    exact State.fireTimer_without_cycle hf.configured hcb
  · rw [step_of_scheduler hm hq]
    obtain ⟨moves, draws, rfl⟩ := State.takeMove_exists hm
    exact State.schedulerMove_of_stopped hr
end

section
/-!
PROOFS. The decoder and the encoder are inverse to each other, the invalid words, and the rows of the opcode map
(30_encoding.md R61 to R66, R70).
-/

namespace Sys2Proof

variable {w : Word}

/-! ### The word of given fields -/

theorem packNNN_of_class {c : Nibble} (hc : (classOf w).toNat = c.toNat) : packNNN c (nnnOf w) = w := by
  rw [← BitVec.eq_of_toNat_eq hc, packNNN_fields]

theorem packXKK_of_class {c : Nibble} (hc : (classOf w).toNat = c.toNat) : packXKK c (xOf w) (kkOf w) = w := by
  rw [← BitVec.eq_of_toNat_eq hc, packXKK_fields]

theorem packXYN_of_class {c : Nibble} (hc : (classOf w).toNat = c.toNat) : packXYN c (xOf w) (yOf w) (nOf w) = w := by
  rw [← BitVec.eq_of_toNat_eq hc, packXYN_fields]

theorem packXKK_of_class_kk {c : Nibble} {k : Byte} (hc : (classOf w).toNat = c.toNat)
    (hk : (kkOf w).toNat = k.toNat) : packXKK c (xOf w) k = w := by
  rw [← BitVec.eq_of_toNat_eq hk, packXKK_of_class hc]

theorem packXYN_of_class_n {c n : Nibble} (hc : (classOf w).toNat = c.toNat) (hn : (nOf w).toNat = n.toNat) :
    packXYN c (xOf w) (yOf w) n = w := by
  rw [← BitVec.eq_of_toNat_eq hn, packXYN_of_class hc]

/-! ### What the decoder's answer says of the word -/

/-- The invalid words, class by class (R66). -/
def InvalidWord (w : Word) : Prop :=
  (classOf w = 0x0#4 ∧ nnnOf w ≠ 0x0E0#12 ∧ nnnOf w ≠ 0x0EE#12) ∨
    (classOf w = 0x8#4 ∧ nOf w ∈ [0x8#4, 0x9#4, 0xA#4, 0xB#4, 0xC#4, 0xD#4, 0xF#4]) ∨
    (classOf w = 0xE#4 ∧ kkOf w ≠ 0x9E#8 ∧ kkOf w ≠ 0xA1#8) ∨
    (classOf w = 0xF#4 ∧ kkOf w ∉ [0x07#8, 0x0A#8, 0x15#8, 0x18#8, 0x1E#8, 0x29#8, 0x33#8, 0x55#8, 0x65#8])

/-- The answer is right about the word: an instruction encodes back to it, and only an invalid word is rejected. -/
def Decoded.RightFor (w : Word) : Decoded → Prop
  | .instr i => encode i = w
  | .reject e => e = .invalidOpCode ∧ InvalidWord w

theorem decodeClass0_rightFor (hc : (classOf w).toNat = 0x0) : (decodeClass0 w).RightFor w := by
  have hw : packNNN 0x0#4 (nnnOf w) = w := packNNN_of_class hc
  unfold decodeClass0
  split
  · exact Eq.symm ‹_›
  · split
    · exact Eq.symm ‹_›
    · rename_i hcls hret
      refine ⟨rfl, .inl ⟨BitVec.eq_of_toNat_eq hc, fun h => hcls ?_, fun h => hret ?_⟩⟩ <;> (rw [← hw, h]; rfl)

theorem decodeClass8_rightFor (hc : (classOf w).toNat = 0x8) : (decodeClass8 w).RightFor w := by
  unfold decodeClass8
  split
  case h_10 =>
    refine ⟨rfl, .inr (.inl ⟨BitVec.eq_of_toNat_eq hc, ?_⟩)⟩
    have hlt := (nOf w).isLt
    simp only [imp_false] at *
    simp [← BitVec.toNat_inj]
    omega
  all_goals exact packXYN_of_class_n hc ‹_›

theorem decodeClassE_rightFor (hc : (classOf w).toNat = 0xE) : (decodeClassE w).RightFor w := by
  unfold decodeClassE
  split
  case h_3 hskp hsknp =>
    refine ⟨rfl, .inr (.inr (.inl ⟨BitVec.eq_of_toNat_eq hc, fun h => ?_, fun h => ?_⟩))⟩
    · exact hskp (congrArg BitVec.toNat h)
    · exact hsknp (congrArg BitVec.toNat h)
  all_goals exact packXKK_of_class_kk hc ‹_›

theorem decodeClassF_rightFor (hc : (classOf w).toNat = 0xF) : (decodeClassF w).RightFor w := by
  unfold decodeClassF
  split
  case h_10 =>
    refine ⟨rfl, .inr (.inr (.inr ⟨BitVec.eq_of_toNat_eq hc, ?_⟩))⟩
    simp_all [← BitVec.toNat_inj]
  all_goals exact packXKK_of_class_kk hc ‹_›

/-- Class F is the one that none of the decoder's other arms names. -/
theorem decode_rightFor (w : Word) : (decode w).RightFor w := by
  unfold decode
  split
  case h_1 hc => exact decodeClass0_rightFor hc
  case h_9 hc => exact decodeClass8_rightFor hc
  case h_15 hc => exact decodeClassE_rightFor hc
  case h_16 =>
    have hlt := (classOf w).isLt
    simp only [imp_false] at *
    exact decodeClassF_rightFor (by omega)
  case h_2 hc | h_3 hc | h_11 hc | h_12 hc => exact packNNN_of_class hc
  case h_4 hc | h_5 hc | h_7 hc | h_8 hc | h_13 hc => exact packXKK_of_class hc
  case h_6 hc | h_10 hc | h_14 hc => exact packXYN_of_class hc

theorem encode_of_decode {i : Instr} (h : decode w = .instr i) : encode i = w := by
  have hr := decode_rightFor w
  rwa [h] at hr

/-- The encoder writes no invalid word. -/
theorem not_invalidWord_encode (i : Instr) : ¬ InvalidWord (encode i) := by
  cases i
  case cls | ret => unfold InvalidWord; decide
  all_goals simp [encode, InvalidWord]

theorem decode_eq_reject_iff : decode w = .reject .invalidOpCode ↔ InvalidWord w := by
  have hr := decode_rightFor w
  cases hd : decode w with
  | instr i =>
    rw [hd] at hr
    have hvalid := hr ▸ not_invalidWord_encode i
    simp [hvalid]
  | reject e =>
    rw [hd] at hr
    obtain ⟨rfl, hinv⟩ := hr
    simp [hinv]

/-- The only other answer is an instruction. -/
theorem exists_decode_of_ne_reject (h : decode w ≠ .reject .invalidOpCode) : ∃ i, decode w = .instr i := by
  cases hd : decode w with
  | instr i => exact ⟨i, rfl⟩
  | reject e =>
    have hr := decode_rightFor w
    rw [hd] at hr
    exact absurd (hr.1 ▸ hd) h

/-! ### The row that a word selects -/

/-- The bits that select among the instructions of a class (R64). -/
def selectorMask (c : Nibble) : Word :=
  if c = 0x0#4 then 0xFFFF#16
  else if c = 0x8#4 then 0xF00F#16
  else if c = 0xE#4 ∨ c = 0xF#4 then 0xF0FF#16
  else 0xF000#16

/-- The word with the bits that select nothing cleared. -/
def selectorBits (w : Word) : Word := w &&& selectorMask (classOf w)

/-- The bits that select nothing do not make a word valid. -/
theorem InvalidWord.masked (h : InvalidWord w) : InvalidWord (selectorBits w) := by
  unfold selectorBits
  obtain ⟨hc, h⟩ | ⟨hc, h⟩ | ⟨hc, h⟩ | ⟨hc, h⟩ := h
  · exact .inl (by simpa [hc, selectorMask, and_FFFF] using h)
  · exact .inr (.inl (by simpa [hc, selectorMask, and_F00F] using h))
  · exact .inr (.inr (.inl (by simpa [hc, selectorMask, and_F0FF] using h)))
  · exact .inr (.inr (.inr (by simpa [hc, selectorMask, and_F0FF] using h)))

theorem classOf_and (a b : Word) : classOf (a &&& b) = classOf a &&& classOf b := by
  simp [classOf, opBits, BitVec.extractLsb'_and]

/-- The rows of R63 are written with the masks of R64, all of which keep the class; a row's own bits select it. -/
theorem opcodeRows_masks : ∀ r ∈ opcodeRows,
    r.mask = selectorMask (classOf r.bits) ∧ classOf r.mask = 0xF#4 ∧ r.selects r.bits = true := by decide

theorem decode_bits_ne_reject : ∀ r ∈ opcodeRows, decode r.bits ≠ .reject .invalidOpCode := by decide

/-- The class of a word gives the mask of the row it can select, and the mask gives the row's bits. -/
theorem OpcodeRow.eq_of_selects {r : OpcodeRow} (hr : r ∈ opcodeRows) (h : r.selects w = true) :
    r = ⟨selectorMask (classOf w), selectorBits w⟩ := by
  obtain ⟨hmask, hclass, -⟩ := opcodeRows_masks r hr
  have hbits : w &&& r.mask = r.bits := by simpa [OpcodeRow.selects] using h
  have hc : classOf w = classOf r.bits := by
    rw [← hbits, classOf_and, hclass]
    exact BitVec.and_allOnes.symm
  rw [selectorBits, hc, ← hmask, hbits]

theorem OpcodeRow.selects_unique {r r' : OpcodeRow} (hr : r ∈ opcodeRows) (hr' : r' ∈ opcodeRows)
    (h : r.selects w = true) (h' : r'.selects w = true) : r = r' :=
  (OpcodeRow.eq_of_selects hr h).trans (OpcodeRow.eq_of_selects hr' h').symm

/-- A word that selects a row is valid, because the row's bits are. -/
theorem decode_ne_reject_of_selects {r : OpcodeRow} (hr : r ∈ opcodeRows) (h : r.selects w = true) :
    decode w ≠ .reject .invalidOpCode := by
  intro hd
  have hinv : InvalidWord (selectorBits w) := (decode_eq_reject_iff.mp hd).masked
  have hbits : r.bits = selectorBits w := congrArg OpcodeRow.bits (OpcodeRow.eq_of_selects hr h)
  exact decode_bits_ne_reject r hr (decode_eq_reject_iff.mpr (hbits ▸ hinv))

open Laws.TableRow in
theorem encode_selects_rowOf (i : Instr) : (rowOf i).selects (encode i) = true ∧ rowOf i ∈ opcodeRows := by
  cases i
  exacts [cls, ret, jp _, call _, seImm _ _, sneImm _ _, seReg _ _ _, ldImm _ _, addImm _ _, ldReg _ _, orReg _ _,
    andReg _ _, xorReg _ _, addReg _ _, subReg _ _, shr _ _, subnReg _ _, shl _ _, sneReg _ _ _, ldI _, jpV0 _, rnd _ _,
    drw _ _ _, skp _, sknp _, ldVxDt _, ldVxK _, ldDtVx _, ldStVx _, addI _, ldF _, ldB _, store _, load _]

theorem selects_rowOf_of_decode {i : Instr} (h : decode w = .instr i) :
    (rowOf i).selects w = true ∧ rowOf i ∈ opcodeRows :=
  encode_of_decode h ▸ encode_selects_rowOf i

end Sys2Proof

open Sys2Proof

/-- Settles O2, class by class: the fields that the decoder reads are those that the encoder packed. -/
theorem decodeOfEncodeIsTheInstruction : Obligations.DecodeOfEncodeIsTheInstruction := by
  intro i
  cases i
  case cls | ret => decide
  case ldReg | orReg | andReg | xorReg | addReg | subReg | shr | subnReg | shl => simp [encode, decode, decodeClass8]
  case skp | sknp => simp [encode, decode, decodeClassE]
  case ldVxDt | ldVxK | ldDtVx | ldStVx | addI | ldF | ldB | store | load => simp [encode, decode, decodeClassF]
  all_goals simp [encode, decode]

/-- Settles O3: each arm of the decoder reads the fields that its instruction's format packs. -/
theorem encodeOfDecodeIsTheWord : Obligations.EncodeOfDecodeIsTheWord := fun _ _ => encode_of_decode

/-- Settles O5: the decoder rejects invalid words only, and the encoder writes none. -/
theorem invalidWordsByClass : Obligations.InvalidWordsByClass := fun _ => decode_eq_reject_iff

/-- Settles O4: the class and the selecting bits of a word spell the only row it can select. -/
theorem opcodeMapRowsSelectTheirWords : Obligations.OpcodeMapRowsSelectTheirWords := by
  refine ⟨rfl, fun op i hd => ?_, fun op r r' hr hr' h h' => OpcodeRow.selects_unique hr hr' h h',
    fun op => ⟨fun hd r hr => ?_, fun hno => ?_⟩, fun r hr => ?_⟩
  · obtain ⟨hsel, hmem⟩ := selects_rowOf_of_decode hd
    exact ⟨hmem, hsel⟩
  · exact Bool.eq_false_iff.mpr fun hsel => decode_ne_reject_of_selects hr hsel hd
  · by_contra hne
    obtain ⟨i, hd⟩ := exists_decode_of_ne_reject hne
    obtain ⟨hsel, hmem⟩ := selects_rowOf_of_decode hd
    simp [hno _ hmem] at hsel
  · have hbits : r.selects r.bits = true := (opcodeRows_masks r hr).2.2
    obtain ⟨i, hd⟩ := exists_decode_of_ne_reject (decode_ne_reject_of_selects hr hbits)
    obtain ⟨hsel, hmem⟩ := selects_rowOf_of_decode hd
    exact ⟨i, OpcodeRow.selects_unique hmem hr hsel hbits⟩

/-- Settles O1: the words are numbers, so the decoder can be run on each. -/
theorem specWordsDecodeAsNamed : Obligations.SpecWordsDecodeAsNamed := by
  unfold Obligations.SpecWordsDecodeAsNamed
  decide
end

section
/-!
PROOFS. The block load where its range lies in memory, and the PC update branch by branch (43_index_memory.md R125;
40_cpu_cycle.md R80, R81, R83).
-/

namespace Sys2Proof.Machine

/-! ### The block load -/

/-- `LD Vx, [I]` with its range in memory (43_index_memory.md R125). -/
theorem exec_load_of_inside {s : State} {x : Nibble} (h : s.i.toNat + (x.toNat + 1) ≤ s.cfg.memSize) :
    exec (.load x) s =
      .next (s.setRegsFrom 0 (Cells.readList s.cfg.resetByte s.mem s.i.toNat (x.toNat + 1))) := by
  simp [exec, execLoad, State.memRead, State.inMemory, blockCount, h]

/-- What a block load leaves in a register: its byte up to VX, the old value above (R125). -/
theorem State.reg_setRegsFrom_readList (s : State) (a n : Nat) (y : Nibble) :
    (s.setRegsFrom 0 (Cells.readList s.cfg.resetByte s.mem a n)).reg y =
      if y.toNat < n then s.readByte (a + y.toNat) else s.reg y := by
  rw [State.reg_setRegsFrom]
  by_cases h : y.toNat < n
  · rw [if_pos (by simpa using h), if_pos h, List.getD_eq_getElem?_getD, Nat.sub_zero, Cells.readList_getElem? _ _ _ _ h]
    rfl
  · rw [if_neg (by simpa using h), if_neg h]

/-! ### The PC update, branch by branch (40_cpu_cycle.md R80 step 4, R81) -/

variable {s : State} (op : Word) {extra : Nat}

theorem State.endCycle_of_jumpFlag (ht : s.trap = none) (hj : s.jumpFlag = true) :
    s.endCycle op extra = { s with jumpFlag := false, cycles := s.cycles + 1 } := by
  simp [State.endCycle, ht, hj]

theorem State.endCycle_of_inside (ht : s.trap = none) (hj : s.jumpFlag = false)
    (hin : s.pc.toNat + 2 + extra < s.cfg.memSize) :
    s.endCycle op extra = { s with pc := BitVec.ofNat 16 (s.pc.toNat + 2 + extra), cycles := s.cycles + 1 } := by
  simp [State.endCycle, ht, hj, hin]

theorem State.endCycle_of_outside (ht : s.trap = none) (hj : s.jumpFlag = false)
    (hout : s.cfg.memSize ≤ s.pc.toNat + 2 + extra) :
    s.endCycle op extra = s.raise .programCounterOutOfBounds op (s.pc.toNat + 2 + extra) := by
  simp [State.endCycle, ht, hj, hout]

/-- Only the three instructions of 30_encoding.md R68 have extra bytes. -/
theorem extraBytes_eq_zero (c : Config) {i : Instr} (hb : ∀ x, i ≠ .ldB x) (hs : ∀ x, i ≠ .store x)
    (hl : ∀ x, i ≠ .load x) : extraBytes c i = 0 := by
  cases i
  case ldB x => exact absurd rfl (hb x)
  case store x => exact absurd rfl (hs x)
  case load x => exact absurd rfl (hl x)
  all_goals rfl

end Sys2Proof.Machine

open Sys2Proof Sys2Proof.Machine

/-- Settles O31, by the two sides of the bound. -/
theorem blockLoadReadsV0ToVx : Obligations.BlockLoadReadsV0ToVx := by
  intro s x
  refine ⟨fun hin => ?_, fun hout => ?_, rfl, rfl⟩
  · refine ⟨_, exec_load_of_inside hin, fun y hy => ?_, fun y hy => ?_, s.setRegsFrom_only 0 _⟩
    · rw [State.reg_setRegsFrom_readList, if_pos (by omega)]
    · rw [State.reg_setRegsFrom_readList, if_neg (by omega)]
  · exact ⟨_, exec_load_of_outside hout, s.raise_changesOnlyByTrap _ _ _⟩

/-- Settles O7, branch by branch of the PC update. -/
theorem pcUpdateAdvancesHoldsOrTraps : Obligations.PcUpdateAdvancesHoldsOrTraps := by
  refine ⟨fun s op extra ht => ⟨State.endCycle_of_jumpFlag op ht, fun hj hin hmem => ?_, fun hj hout => ?_⟩,
    fun s op extra ht => if_pos ht, fun c i => extraBytes_eq_zero c⟩
  · exact ⟨_, State.endCycle_of_inside op ht hj hin, Nat.mod_eq_of_lt (by omega), rfl⟩
  · rw [State.endCycle_of_outside op ht hj hout]
    exact s.raise_changesOnlyByTrap _ _ _
end

section
/-!
PROOFS. Traps in the cycle, and the two jumps: the trap that an execute step raises, the fetch check, and what a machine keeps
once it has trapped (40_cpu_cycle.md R82, R85, R86; 41_control_flow.md R91, R93; 60_exceptions.md R191, R192, R203).
-/

namespace Sys2Proof.Machine

variable {s u t : State} {i : Instr} {gap : Nat}

/-! ### The trap of an execute step -/

/-- The kind and the `addr` of the trap that an instruction can raise in its execute step (60_exceptions.md R191, R199). -/
def State.MayRaise (s : State) : Instr → TrapKind → Nat → Prop
  | .ret, k, a => k = .stackUnderflow ∧ a = 0
  | .call _, k, a => k = .stackOverflow ∧ a = s.returnAddr.toNat
  | .drw _ _ _, k, a | .ldB _, k, a | .store _, k, a | .load _, k, a => k = .memoryAccessOutOfBounds ∧ a = s.i.toNat
  | _, _, _ => False

/-- An execute step leaves the trap record alone, or does nothing but raise the instruction's trap, with its own word
(40_cpu_cycle.md R85). -/
theorem exec_trap_cases (h : exec i s = .next t) :
    t.trap = s.trap ∨ ∃ k a, s.MayRaise i k a ∧ t = s.raise k (encode i) a := by
  cases i
  case ret =>
    obtain ⟨-, rfl⟩ | ⟨a, -, -, rfl⟩ := execRet_cases h
    · exact .inr ⟨_, _, ⟨rfl, rfl⟩, rfl⟩
    · exact .inl rfl
  case call =>
    obtain ⟨-, rfl⟩ | ⟨k, -, rfl⟩ := execCall_cases h
    · exact .inr ⟨_, _, ⟨rfl, rfl⟩, rfl⟩
    · exact .inl rfl
  case ldB =>
    obtain ⟨-, rfl⟩ | ⟨-, rfl⟩ := execLdB_cases h
    · exact .inl rfl
    · exact .inr ⟨_, _, ⟨rfl, rfl⟩, rfl⟩
  case store =>
    obtain ⟨-, rfl⟩ | ⟨-, rfl⟩ := execStore_cases h
    · exact .inl rfl
    · exact .inr ⟨_, _, ⟨rfl, rfl⟩, rfl⟩
  case load =>
    obtain ⟨-, rfl⟩ | ⟨-, rfl⟩ := execLoad_cases h
    · exact .inl (by rw [State.setRegsFrom_only])
    · exact .inr ⟨_, _, ⟨rfl, rfl⟩, rfl⟩
  case drw x y n =>
    obtain ⟨-, d, -, -, rfl⟩ | ⟨-, rfl⟩ | ⟨-, rfl⟩ := execDrw_cases h
    · exact .inl rfl
    · exact .inl rfl
    · obtain ⟨-, e⟩ | ⟨cells, -, -, e⟩ := s.commitDraw_cases x y n
      · exact .inr ⟨_, _, ⟨rfl, rfl⟩, e⟩
      · exact .inl (by rw [e]; rfl)
  case ldVxK => exact .inl (by rw [(execLdVxK_eq h).2])
  all_goals
    cases h
    exact .inl (by simp)

/-! ### The fetch check -/

/-- A cycle whose fetch does not lie in memory takes the trap of R82. -/
theorem State.cpuCycle_of_fetchOutside (ht : s.trap = none) (hout : s.fetchOutside = true) :
    s.cpuCycle = .next (s.raise .programCounterOutOfBounds 0x0000#16 s.pc.toNat) := by
  simp [State.cpuCycle, ht, hout]

/-- Such a cycle does not wait for `FBLock` (10_state.md R25, log 10). -/
theorem State.cycleHeld_of_fetchOutside (hout : s.fetchOutside = true) : s.cycleHeld = false := by
  simp [State.cycleHeld, hout]

/-! ### Once trapped -/

/-- Once trapped, a cycle does nothing, so no move of the scheduler writes what only a cycle writes (40_cpu_cycle.md R86). -/
theorem State.schedulerMove_of_trapped (ht : s.trap.isSome) (h : s.schedulerMove gap = .next t) : s.WritesNoCycle t := by
  obtain ⟨p, tm, u, hrun, rfl⟩ | hw := State.schedulerMove_runsCycle_or_writesNoCycle h
  · have hidle : s.cpuCycle = .next s := if_pos ht
    cases hidle.symm.trans hrun.cycle
    rfl
  · exact hw

/-! ### The jumps -/

/-- The target of `Bnnn` as a number: the sum modulo 2^16 (41_control_flow.md R93, D40). -/
theorem State.toNat_jumpV0Target (s : State) (nnn : Addr12) :
    (s.jumpV0Target nnn).toNat = (nnn.toNat + (s.reg 0x0#4).toNat) % 65536 := by
  have hreg : (wordOf (s.reg 0x0#4)).toNat = (s.reg 0x0#4).toNat := BitVec.toNat_setWidth_of_le (by decide)
  rw [State.jumpV0Target, BitVec.toNat_add, toNat_addrOf, hreg]

end Sys2Proof.Machine

open Sys2Proof Sys2Proof.Machine

/-- Settles O12: a record that was not there before is the one that the instruction's own trap wrote. -/
theorem executeTrapsArePrecise : Obligations.ExecuteTrapsArePrecise := by
  intro i s t r hs h ht
  obtain e | ⟨k, a, -, rfl⟩ := exec_trap_cases h
  · cases (e.trans hs).symm.trans ht
  · cases ht
    exact ⟨s.raise_changesOnlyByTrap _ _ _, rfl, rfl⟩

/-- Settles O11, agent by agent: a trapped machine runs no cycle, and while the scheduler runs no host command resets it. -/
theorem trappedMachineStaysTrapped : Obligations.TrappedMachineStaysTrapped := by
  intro s t r ht hr h
  obtain ⟨u, hu, hmove⟩ := step_cases h
  have htu : u.trap = some r := by rw [hu]; exact ht
  have hru : u.sched = .running := by rw [hu]; exact hr
  obtain ⟨gap, hm⟩ | rfl | ⟨-, c, hc⟩ | ⟨-, c, rfl⟩ := hmove
  · have hw : u.WritesNoCycle t := State.schedulerMove_of_trapped (by simp [htu]) hm
    rw [State.WritesNoCycle] at hw
    rw [hw, hu]
    simp [ht]
  · obtain ⟨-, e⟩ | ⟨-, -, -, e⟩ | ⟨-, e⟩ := u.rendererMove_cases <;> (rw [e, hu]; simp [ht])
  · rw [State.hostCommand_running_only hru hc, hu]
    simp [ht]
  · rw [hu]
    simp [ht]

/-- Settles O8: the cycle takes the trap of the fetch check, and it is never held, so the step that fires `T_CPU` runs it. -/
theorem fetchOutsideMemoryTraps : Obligations.FetchOutsideMemoryTraps := by
  refine ⟨fun s ht hpc => ?_, fun s u p tm hf ht hpc => ?_⟩
  · exact ⟨_, State.cpuCycle_of_fetchOutside ht (decide_eq_true hpc), s.raise_changesOnlyByTrap _ _ _⟩
  · obtain ⟨gap, hm⟩ := hf.1.stands.1
    obtain ⟨moves, draws, rfl⟩ := State.takeMove_exists hm
    have hout : ({ s with moves := moves, moveDraws := draws } : State).fetchOutside = true := decide_eq_true hpc
    exact ⟨_, State.raise_changesOnlyByTrap _ _ _ _,
      hf.step_of_free (State.cycleHeld_of_fetchOutside hout) (State.cpuCycle_of_fetchOutside ht hout)⟩

/-- Settles O18: both jumps are a control transfer, each to its target. -/
theorem jumpsSetPcAndJumpFlag : Obligations.JumpsSetPcAndJumpFlag :=
  fun s nnn => ⟨⟨_, rfl, toNat_addrOf nnn, rfl⟩, ⟨_, rfl, s.toNat_jumpV0Target nnn, rfl⟩⟩
end

section
/-!
PROOFS. The skips: each of the six is `skipIf` of its condition, the key skips after their one query (41_control_flow.md R94
to R98; 45_keys_timers.md R140, R141).
-/

namespace Sys2Proof.Machine

/-! ### `skipIf`: the PC -/

/-- A skip either way (41_control_flow.md R94). -/
@[simp] theorem State.skipIf_pc (s : State) (c : Bool) :
    (s.skipIf c).pc = if c then s.pc + 2#16 else s.pc := by
  cases c <;> rfl

/-! ### The compare skips -/

/-- The four compare skips are `skipIf` of their comparison, and the low nibble of classes 5 and 9 is not read
(41_control_flow.md R95 to R98, 30_encoding.md R65). -/
theorem exec_compareSkip {s : State} {x y n : Nibble} {kk : Byte} {i : Instr} {taken : Prop}
    (h : (i = .seImm x kk ∧ (taken ↔ s.reg x = kk)) ∨ (i = .sneImm x kk ∧ (taken ↔ s.reg x ≠ kk)) ∨
      (i = .seReg x y n ∧ (taken ↔ s.reg x = s.reg y)) ∨ (i = .sneReg x y n ∧ (taken ↔ s.reg x ≠ s.reg y))) :
    ∃ c : Bool, (taken ↔ c = true) ∧ exec i s = .next (s.skipIf c) := by
  obtain ⟨rfl, ht⟩ | ⟨rfl, ht⟩ | ⟨rfl, ht⟩ | ⟨rfl, ht⟩ := h
  · exact ⟨s.reg x == kk, ht.trans beq_iff_eq.symm, rfl⟩
  · exact ⟨s.reg x != kk, ht.trans bne_iff_ne.symm, rfl⟩
  · exact ⟨s.reg x == s.reg y, ht.trans beq_iff_eq.symm, rfl⟩
  · exact ⟨s.reg x != s.reg y, ht.trans bne_iff_ne.symm, rfl⟩

/-! ### The key skips -/

/-- The key that a byte names is its low nibble, and the query's answer is the free value (45_keys_timers.md R140). -/
theorem State.keyPressed_keyOf (s : State) (b : Byte) :
    s.keyPressed (keyOf b) = Config.keyPressed s.keyDraws (BitVec.ofNat 4 b.toNat) := by
  rw [BitVec.ofNat_toNat]
  rfl

end Sys2Proof.Machine

open Sys2Proof Sys2Proof.Machine

/-- Settles O19: a compare skip is `skipIf` of its comparison. -/
theorem skipsMovePcExactlyWhenTaken : Obligations.SkipsMovePcExactlyWhenTaken := by
  intro s x y n kk i taken h
  obtain ⟨c, hc, he⟩ := exec_compareSkip h
  refine ⟨_, he, s.skipIf_eq c, fun ht => ?_, fun hn => ?_⟩
  · simp [hc.mp ht, BitVec.toNat_add]
  · simp [mt hc.mpr hn]

/-- Settles O39: both key skips are `skipIf` after the one query, on its answer and on its negation. -/
theorem keySkipsFollowTheKey : Obligations.KeySkipsFollowTheKey := by
  intro s x
  refine ⟨⟨_, rfl, s.keysAsked.skipIf_eq _, ?_⟩, ⟨_, rfl, s.keysAsked.skipIf_eq _, ?_⟩⟩
  · rw [State.skipIf_pc, State.keyPressed_keyOf]
    rfl
  · rw [State.skipIf_pc, State.keyPressed_keyOf]
    cases Config.keyPressed s.keyDraws (BitVec.ofNat 4 (s.reg x).toNat) <;> rfl
end

section
/-!
PROOFS. The ALU: what one register write and the flag-first pair of writes leave, the flags as numbers, and the loads,
arithmetic, shifts and the random draw (42_alu.md R100 to R113).
-/

namespace Sys2Proof.Machine

variable (s : State)

/-! ### One register write -/

/-- A register write changes its own register and nothing else (10_state.md R10). -/
theorem State.setReg_changesOnlyRegs (x : Nibble) (b : Byte) : s.ChangesOnlyRegs (s.setReg x b) [x] :=
  ⟨rfl, fun _ hy => s.reg_setReg_other b (by simpa using hy)⟩

/-! ### The flag, then the result -/

/-- The result stays, also with `x = F` (42_alu.md R104). -/
@[simp] theorem State.reg_setFlagThenReg_same (f : Bool) (x : Nibble) (b : Byte) :
    (s.setFlagThenReg f x b).reg x = b :=
  State.reg_setReg_same _ x b

/-- Where the result goes elsewhere, VF holds the flag (10_state.md R12). -/
theorem State.toNat_reg_setFlagThenReg_flag {x : Nibble} (f : Bool) (b : Byte) (h : x ≠ flagReg) :
    ((s.setFlagThenReg f x b).reg flagReg).toNat = f.toNat := by
  rw [State.reg_setFlagThenReg, if_neg h.symm, if_pos rfl]
  cases f <;> rfl

theorem State.setFlagThenReg_changesOnlyRegs (f : Bool) (x : Nibble) (b : Byte) :
    s.ChangesOnlyRegs (s.setFlagThenReg f x b) [x, flagReg] := by
  refine ⟨rfl, fun y hy => ?_⟩
  obtain ⟨hx, hf⟩ : y ≠ x ∧ y ≠ flagReg := by simpa using hy
  rw [State.reg_setFlagThenReg, if_neg hx, if_neg hf]

/-- An instruction that completes with the flag and then the result leaves both as numbers, and the frame (R104). -/
theorem exec_setFlagThenReg {s : State} {i : Instr} {x : Nibble} {f : Bool} {b : Byte} {result flag : Nat}
    (he : exec i s = .next (s.setFlagThenReg f x b)) (hb : b.toNat = result) (hf : f.toNat = flag) :
    ∃ t, exec i s = .next t ∧ (t.reg x).toNat = result ∧ (x ≠ 0xF#4 → (t.reg 0xF#4).toNat = flag) ∧
      s.ChangesOnlyRegs t [x, 0xF#4] :=
  ⟨_, he, by rw [State.reg_setFlagThenReg_same, hb],
    fun hx => (s.toNat_reg_setFlagThenReg_flag f b hx).trans hf, s.setFlagThenReg_changesOnlyRegs f x b⟩

/-! ### The flags as numbers -/

variable (a b : Byte)

/-- The flag of `8xy4` (R107). -/
theorem toNat_carryFlag : (carryFlag a b).toNat = if a.toNat + b.toNat > 255 then 1 else 0 :=
  Bool.cond_decide _ _ _

/-- The flag of `8xy5` and `8xy7`: 0 for equal operands (R108, R110, R113). -/
theorem toNat_noBorrowFlag : (noBorrowFlag a b).toNat = if b.toNat < a.toNat then 1 else 0 :=
  Bool.cond_decide _ _ _

/-- The bit shifted out on the right is the number's parity (R109). -/
theorem toNat_lowBitFlag : (lowBitFlag a).toNat = a.toNat % 2 := by
  rw [lowBitFlag, BitVec.getLsbD, Nat.toNat_testBit, Nat.pow_zero, Nat.div_one]

/-- The bit shifted out on the left is the number's 128s place (R112). -/
theorem toNat_highBitFlag : (highBitFlag a).toNat = a.toNat / 128 := by
  have ha : a.toNat / 128 < 2 := by omega
  rw [highBitFlag, BitVec.getLsbD, Nat.toNat_testBit]
  exact Nat.mod_eq_of_lt ha

/-! ### The results as numbers -/

/-- A difference modulo 256 (R108, R110). -/
theorem toNat_byte_sub : (a - b).toNat = (256 + a.toNat - b.toNat) % 256 := by
  rw [BitVec.toNat_sub]
  omega

/-- One place to the right halves (R109). -/
theorem toNat_byte_ushiftRight_one : (a >>> 1).toNat = a.toNat / 2 := by
  rw [BitVec.toNat_ushiftRight, Nat.shiftRight_one]

/-- One place to the left doubles modulo 256 (R112). -/
theorem toNat_byte_shiftLeft_one : (a <<< 1).toNat = 2 * a.toNat % 256 := by
  rw [BitVec.toNat_shiftLeft, Nat.shiftLeft_eq, Nat.mul_comm]

end Sys2Proof.Machine

open Sys2Proof Sys2Proof.Machine

/-- Settles O22: each of the six is one register write. -/
theorem loadsAndLogicWriteOnlyVx : Obligations.LoadsAndLogicWriteOnlyVx := by
  intro s x y kk
  refine ⟨⟨_, rfl, s.reg_setReg_same x _, s.setReg_changesOnlyRegs x _⟩,
    ⟨_, rfl, ?_, s.setReg_changesOnlyRegs x _⟩,
    ⟨_, rfl, s.reg_setReg_same x _, s.setReg_changesOnlyRegs x _⟩,
    ⟨_, rfl, fun k => ?_, s.setReg_changesOnlyRegs x _⟩,
    ⟨_, rfl, fun k => ?_, s.setReg_changesOnlyRegs x _⟩,
    ⟨_, rfl, fun k => ?_, s.setReg_changesOnlyRegs x _⟩⟩
  · rw [State.reg_setReg_same, BitVec.toNat_add]
  · rw [State.reg_setReg_same, BitVec.getLsbD_or]
  · rw [State.reg_setReg_same, BitVec.getLsbD_and]
  · rw [State.reg_setReg_same, BitVec.getLsbD_xor]

/-- Settles O23: the carry first, the sum second. -/
theorem addSetsCarryThenResult : Obligations.AddSetsCarryThenResult := fun _ _ _ =>
  exec_setFlagThenReg rfl (BitVec.toNat_add _ _) (toNat_carryFlag _ _)

/-- Settles O24: the two subtractions are one, with the operands exchanged. -/
theorem subtractionsSetStrictNoBorrow : Obligations.SubtractionsSetStrictNoBorrow := fun _ _ _ =>
  ⟨exec_setFlagThenReg rfl (toNat_byte_sub _ _) (toNat_noBorrowFlag _ _),
    exec_setFlagThenReg rfl (toNat_byte_sub _ _) (toNat_noBorrowFlag _ _)⟩

/-- Settles O25: a shift by one place divides or multiplies by 2, and VF gets the bit that leaves. -/
theorem shiftsMoveVxByOnePlace : Obligations.ShiftsMoveVxByOnePlace := fun _ _ _ =>
  ⟨exec_setFlagThenReg rfl (toNat_byte_ushiftRight_one _) (toNat_lowBitFlag _),
    exec_setFlagThenReg rfl (toNat_byte_shiftLeft_one _) (toNat_highBitFlag _)⟩

/-- Settles O26: RND is one register write after the draw, and the draw stays whatever byte it is. -/
theorem randomIsTheMaskedDraw : Obligations.RandomIsTheMaskedDraw := by
  intro s x kk
  refine ⟨_, rfl, fun k => ?_, fun y hy => s.randomDrawn.reg_setReg_other _ hy, rfl⟩
  rw [State.reg_setReg_same, BitVec.getLsbD_and]
  rfl
end

section
/-!
PROOFS. The index register and the two stores where their range lies in memory: the sums and products of `I` as numbers, the
flag of `ADD I`, the digits of `LD B`, and a block load after a block store (43_index_memory.md R120 to R126).
-/

namespace Sys2Proof.Machine

/-! ### The index register -/

theorem toNat_wordOf (b : Byte) : (wordOf b).toNat = b.toNat :=
  BitVec.toNat_setWidth_of_le (by decide)

/-- Five bytes a glyph, and the last glyph address of a byte still fits in 16 bits (R122). -/
theorem toNat_glyphAddr (b : Byte) : (glyphAddr b).toNat = b.toNat * 5 := by
  have hfits : b.toNat * 5 < 2 ^ 16 := by omega
  rw [glyphAddr, BitVec.toNat_mul, toNat_wordOf]
  exact Nat.mod_eq_of_lt hfits

/-! ### The flag of `ADD I` (R121) -/

/-- VF holds the flag as a number (10_state.md R12). -/
theorem State.toNat_reg_setFlag (s : State) (f : Bool) : ((s.setFlag f).reg flagReg).toNat = f.toNat := by
  rw [State.reg_setFlag]
  cases f <;> rfl

/-- A flag write leaves the other registers alone (10_state.md R12). -/
theorem State.reg_setFlag_other (s : State) {y : Nibble} (f : Bool) (h : y ≠ flagReg) : (s.setFlag f).reg y = s.reg y :=
  s.reg_setReg_other _ h

theorem addIndexFlag_of_alwaysOne {c : Config} (h : c.addiVf = .alwaysOne) (old : Word) (a : Byte) :
    addIndexFlag c old a = true := by
  rw [addIndexFlag, h]

theorem toNat_addIndexFlag_of_overflow {c : Config} {limit : Nat} (h : c.addiVf = .overflow limit) (old : Word) (a : Byte) :
    (addIndexFlag c old a).toNat = if limit < old.toNat + a.toNat then 1 else 0 := by
  rw [addIndexFlag, h]
  exact Bool.cond_decide _ _ _

/-! ### A store whose range lies in memory -/

theorem State.memWrite_of_inside {s : State} {a : Word} {bs : List Byte} (h : a.toNat + bs.length ≤ s.cfg.memSize) :
    s.memWrite a bs = some (s.storeBytes a.toNat bs) := by
  simp [State.memWrite, State.inMemory, h]

theorem State.storeBytes_changesOnlyBytes (s : State) (a : Nat) (bs : List Byte) :
    s.ChangesOnlyBytes (s.storeBytes a bs) a bs.length :=
  ⟨rfl, fun _ => s.readByte_storeBytes_outside⟩

variable {s : State} {x : Nibble}

theorem exec_ldB_of_inside (h : s.i.toNat + 3 ≤ s.cfg.memSize) :
    exec (.ldB x) s = .next (s.storeBytes s.i.toNat (bcdDigits (s.reg x))) := by
  have hw : s.memWrite s.i (bcdDigits (s.reg x)) = _ := State.memWrite_of_inside h
  simp [exec, execLdB, hw]

theorem exec_store_of_inside (h : s.i.toNat + (x.toNat + 1) ≤ s.cfg.memSize) :
    exec (.store x) s = .next (s.storeBytes s.i.toNat (s.regsUpTo (x.toNat + 1))) := by
  have hw : s.memWrite s.i (s.regsUpTo (x.toNat + 1)) = _ := State.memWrite_of_inside (by simpa using h)
  simp [exec, execStore, blockCount, hw]

/-! ### What the two stores leave in memory -/

@[simp] theorem bcdDigits_length (b : Byte) : (bcdDigits b).length = 3 := rfl

/-- The three digits of a byte at `a` (R123): each fits in a byte. -/
theorem State.toNat_readByte_storeBytes_bcdDigits {a : Nat} (hm : s.MemoryInv) (h : a + 3 ≤ s.cfg.memSize) (b : Byte) :
    ((s.storeBytes a (bcdDigits b)).readByte a).toNat = b.toNat / 100 ∧
    ((s.storeBytes a (bcdDigits b)).readByte (a + 1)).toNat = b.toNat / 10 % 10 ∧
    ((s.storeBytes a (bcdDigits b)).readByte (a + 2)).toNat = b.toNat % 10 := by
  have hat := State.readByte_storeBytes_inside (bs := bcdDigits b) hm h
  refine ⟨(congrArg _ (hat 0 (by simp))).trans ?_, (congrArg _ (hat 1 (by simp))).trans ?_,
    (congrArg _ (hat 2 (by simp))).trans ?_⟩
  · exact Nat.mod_eq_of_lt (by omega)
  · exact Nat.mod_eq_of_lt (by omega)
  · exact Nat.mod_eq_of_lt (by omega)

/-- A block of registers at `a`, in ascending order (R124). -/
theorem State.readByte_storeBytes_regsUpTo {a n : Nat} (hm : s.MemoryInv) (h : a + n ≤ s.cfg.memSize) {y : Nibble}
    (hy : y.toNat < n) : (s.storeBytes a (s.regsUpTo n)).readByte (a + y.toNat) = s.reg y := by
  rw [State.readByte_storeBytes_inside hm (by simpa using h) _ (by simpa using hy), State.regsUpTo_getElem,
    BitVec.ofNat_toNat, BitVec.setWidth_eq]

end Sys2Proof.Machine

open Sys2Proof Sys2Proof.Machine

/-- Settles O29, by the two sides of the bound. -/
theorem bcdStoresTheDecimalDigits : Obligations.BcdStoresTheDecimalDigits := by
  intro s x hm
  refine ⟨fun hin => ?_, fun hout => ?_, rfl, rfl⟩
  · obtain ⟨hundreds, tens, units⟩ := State.toNat_readByte_storeBytes_bcdDigits hm hin (s.reg x)
    exact ⟨_, exec_ldB_of_inside hin, hundreds, tens, units, s.storeBytes_changesOnlyBytes _ _⟩
  · exact ⟨_, exec_ldB_of_outside hout, s.raise_changesOnlyByTrap _ _ _⟩

/-- Settles O30, by the two sides of the bound. -/
theorem blockStoreWritesV0ToVx : Obligations.BlockStoreWritesV0ToVx := by
  intro s x hm
  refine ⟨fun hin => ?_, fun hout => ?_, rfl, rfl⟩
  · refine ⟨_, exec_store_of_inside hin, fun y hy => ?_, ?_⟩
    · exact State.readByte_storeBytes_regsUpTo (n := x.toNat + 1) hm hin (Nat.lt_succ_of_le hy)
    · simpa using s.storeBytes_changesOnlyBytes s.i.toNat (s.regsUpTo (x.toNat + 1))
  · exact ⟨_, exec_store_of_outside hout, s.raise_changesOnlyByTrap _ _ _⟩

/-- Settles O33: the load finds the store's bytes, because the frame of the store keeps `I`, and memory does not depend on
the registers. -/
theorem blockLoadAfterStoreRestores : Obligations.BlockLoadAfterStoreRestores := by
  intro s x w hm hin
  obtain ⟨t, hstore, hbytes, hframe, -⟩ := (blockStoreWritesV0ToVx s x hm).1 hin
  have hi : t.i = s.i := by rw [hframe]
  have hcfg : t.cfg = s.cfg := by rw [hframe]
  obtain ⟨u, hload, hregs, -⟩ := (blockLoadReadsV0ToVx { t with v := w } x).1 (by rw [hi, hcfg]; exact hin)
  refine ⟨t, u, hstore, hload, fun y hy => ?_⟩
  calc u.reg y = t.readByte (t.i.toNat + y.toNat) := hregs y hy
    _ = t.readByte (s.i.toNat + y.toNat) := by rw [hi]
    _ = s.reg y := hbytes y hy

/-- Settles O27: each is one write of `I`. -/
theorem indexLoadsWriteOnlyI : Obligations.IndexLoadsWriteOnlyI := fun s x nnn =>
  ⟨⟨_, rfl, toNat_addrOf nnn, rfl⟩, ⟨_, rfl, toNat_glyphAddr (s.reg x), rfl⟩⟩

/-- Settles O28: the sum goes to `I`, and the flag that the mode asks for to VF; both are read off the old state. -/
theorem addToIndexWrapsAndWritesVf : Obligations.AddToIndexWrapsAndWritesVf := by
  intro s x
  refine ⟨_, rfl, ?_, fun hmode => ?_, fun limit hmode => ?_, fun y hy => ?_, rfl⟩
  · rw [State.setFlag_i, State.setI_i, BitVec.toNat_add, toNat_wordOf]
  · rw [addIndexFlag_of_alwaysOne hmode]
    exact State.reg_setFlag _ true
  · exact (State.toNat_reg_setFlag _ _).trans (toNat_addIndexFlag_of_overflow hmode _ _)
  · exact State.reg_setFlag_other _ _ hy
end

section
/-!
PROOFS. The frame buffer: the clear, the draw cycle by cycle, the cells that a draw flips, and the deadlines at which draws
commit (44_draw.md R130 to R134; 60_exceptions.md R209; log 34).
-/

namespace Sys2Proof.Machine

variable {s t : State} {x y n : Nibble}

/-! ### The draw, cycle by cycle (44_draw.md R132) -/

/-- The refresh timer's deadline, read off its record (48_scheduler.md R175). -/
theorem State.refreshDeadline_of_timer {tm : Timer} (h : s.timers[s.cfg.handleOf .refresh]? = some tm) :
    s.refreshDeadline = some tm.nextDeadline := by
  rw [State.refreshDeadline, h, Option.map_some]

/-- A commit stands at the deadline `d` or a later one, and the configuration admits one a deadline (log 34). -/
theorem State.alreadyDrawn_eq_true {d : Nat} :
    s.alreadyDrawn d = true ↔ s.cfg.oneDrawPerDeadline = true ∧ ∃ e, s.drawnDeadline = some e ∧ d ≤ e := by
  simp [← Bool.not_eq_false, State.alreadyDrawn_eq_false]

/-- An armed draw that may commit at the refresh deadline waits for it. -/
theorem exec_drw_of_armed {d : Nat} (hp : s.drawPhase = .armed) (hd : s.refreshDeadline = some d)
    (hfree : s.alreadyDrawn d = false) :
    exec (.drw x y n) s = .next { s with drawPhase := .waiting, drawDeadline := d, jumpFlag := true } := by
  simp [exec, execDrw, hp, hd, hfree, State.repeatCycle]

/-- An armed draw at a refresh deadline that has had its commit stays armed (log 34). -/
theorem exec_drw_of_alreadyDrawn {d : Nat} (hp : s.drawPhase = .armed) (hd : s.refreshDeadline = some d)
    (hdrawn : s.alreadyDrawn d = true) : exec (.drw x y n) s = .next s.repeatCycle := by
  simp [exec, execDrw, hp, hd, hdrawn]

/-- Before its deadline a waiting draw repeats its cycle. -/
theorem exec_drw_of_early (hp : s.drawPhase = .waiting) (hd : s.tickTime < s.drawDeadline) :
    exec (.drw x y n) s = .next s.repeatCycle := by
  simp [exec, execDrw, hp, hd]

/-- The cells of the sprite that a draw finds at `I`, from the origin that VX and VY name (R131). -/
def State.drawnCells (s : State) (x y n : Nibble) : List Nat :=
  spriteCells s.cfg (s.originCol x) (s.originRow y) (Cells.readList s.cfg.resetByte s.mem s.i.toNat n.toNat)

/-- The state after a draw of the sprite: its cells flipped, VF, phase 0, and the deadline remembered (R133, log 34). -/
def State.drawn (s : State) (x y n : Nibble) : State :=
  { s.setFlag (drawCells s.fb (s.drawnCells x y n)).2 with
    fb := (drawCells s.fb (s.drawnCells x y n)).1, drawPhase := .armed, drawnDeadline := some s.drawDeadline }

/-- At its deadline a waiting draw whose sprite lies in memory commits. -/
theorem exec_drw_of_inside (hp : s.drawPhase = .waiting) (hd : s.drawDeadline ≤ s.tickTime)
    (hin : s.i.toNat + n.toNat ≤ s.cfg.memSize) : exec (.drw x y n) s = .next (s.drawn x y n) := by
  simp [exec, execDrw, hp, hd, State.commitDraw, State.memRead, State.inMemory, hin, State.drawn, State.drawnCells]

/-! ### The cells that a draw flips (44_draw.md R131, R133) -/

/-- The origin is VX modulo the width and VY modulo the height (R131, D4). -/
theorem State.origin_eq_mod (hc : s.cfg.wf = true) :
    s.originCol x = (s.reg x).toNat % s.cfg.dispW ∧ s.originRow y = (s.reg y).toNat % s.cfg.dispH := by
  simp only [Config.wf, Bool.and_eq_true] at hc
  obtain ⟨⟨⟨⟨⟨⟨⟨⟨-, hW⟩, hH⟩, -⟩, -⟩, -⟩, -⟩, -⟩, -⟩ := hc
  exact ⟨and_pred_of_dispSizeWf hW _, and_pred_of_dispSizeWf hH _⟩

/-- The rows of a sprite of `len` bytes at `I` are the bytes of memory there. -/
theorem State.getD_readList {r len : Nat} (h : r < len) :
    (Cells.readList s.cfg.resetByte s.mem s.i.toNat len).getD r 0 = s.readByte (s.i.toNat + r) := by
  rw [List.getD_eq_getElem?_getD, Cells.readList_getElem? _ _ _ _ h]
  rfl

/-- A cell of the screen is one of the sprite's exactly where a set pixel falls on it. -/
theorem State.cellIndex_mem_drawnCells {row col : Nat} (hr : row < s.cfg.dispH) (hc : col < s.cfg.dispW) :
    Config.cellIndex s.cfg row col ∈ s.drawnCells x y n ↔
      s.spriteCovers (s.originCol x) (s.originRow y) n.toNat row col = true := by
  rw [State.drawnCells, mem_spriteCells, Cells.readList_length]
  simp only [State.spriteCovers, Bool.and_eq_true, decide_eq_true_eq]
  generalize s.originCol x = x0, s.originRow y = y0
  constructor
  · rintro ⟨r, k, hlen, -, hk, hbit, hw, e⟩
    obtain ⟨rfl, rfl⟩ := cellIndex_inj hc hw e
    rw [State.getD_readList hlen] at hbit
    simp [hlen, hk, hbit]
  · rintro ⟨⟨⟨⟨hy, hylen⟩, hx⟩, hx8⟩, hbit⟩
    obtain ⟨r, rfl⟩ := Nat.exists_eq_add_of_le hy
    obtain ⟨k, rfl⟩ := Nat.exists_eq_add_of_le hx
    rw [Nat.add_sub_cancel_left, Nat.add_sub_cancel_left] at hbit
    have hlen : r < n.toNat := Nat.lt_of_add_lt_add_left hylen
    exact ⟨r, k, hlen, hr, Nat.lt_of_add_lt_add_left hx8, by rwa [State.getD_readList hlen], hc, rfl⟩

/-- What a draw leaves on the screen. -/
theorem State.pixel_drawn {row col : Nat} (hfb : s.FrameBufferInv) (hr : row < s.cfg.dispH) (hc : col < s.cfg.dispW) :
    (s.drawn x y n).pixel row col =
      if s.spriteCovers (s.originCol x) (s.originRow y) n.toNat row col then s.pixel row col ^^^ 0xFF#8
      else s.pixel row col := by
  obtain ⟨-, hread, -⟩ := drawSprite_spec (s.originCol x) (s.originRow y)
    (Cells.readList s.cfg.resetByte s.mem s.i.toNat n.toNat) hfb
  exact (hread _).trans (if_congr (State.cellIndex_mem_drawnCells hr hc) rfl rfl)

/-- A draw collides exactly where one of the sprite's set pixels falls on a lit cell of the screen. -/
theorem State.drawCells_drawnCells_hit (hfb : s.FrameBufferInv) :
    (drawCells s.fb (s.drawnCells x y n)).2 = true ↔
      ∃ row col, row < s.cfg.dispH ∧ col < s.cfg.dispW ∧
        s.spriteCovers (s.originCol x) (s.originRow y) n.toNat row col = true ∧ s.pixel row col = 0xFF#8 := by
  have hflag : (drawCells s.fb (s.drawnCells x y n)).2 = collisionFlag s.fb (s.drawnCells x y n) :=
    (drawSprite_spec _ _ _ hfb).2.2
  rw [hflag, collisionFlag, List.any_eq_true]
  simp only [beq_iff_eq]
  constructor
  · rintro ⟨p, hp, hlit⟩
    obtain ⟨r, k, -, hr, -, -, hc, rfl⟩ := mem_spriteCells.mp hp
    exact ⟨_, _, hr, hc, (State.cellIndex_mem_drawnCells hr hc).mp hp, hlit⟩
  · rintro ⟨row, col, hr, hc, hcovers, hlit⟩
    exact ⟨_, (State.cellIndex_mem_drawnCells hr hc).mpr hcovers, hlit⟩

/-! ### The deadline of the last commit (60_exceptions.md R209, log 34) -/

/-- The step commits a draw whose deadline has come and is later than that of the commit before. -/
def State.CommitsAtLaterDeadline (s t : State) : Prop :=
  t.drawnDeadline = some s.drawDeadline ∧ s.drawDeadline ≤ s.tickTime ∧
    ∀ d, s.drawnDeadline = some d → d < s.drawDeadline

/-- Only a draw in its committing cycle touches the deadline of the last commit. -/
theorem exec_drawnDeadline_cases {i : Instr} (h : exec i s = .next t) :
    t.drawnDeadline = s.drawnDeadline ∨
      (t.drawnDeadline = some s.drawDeadline ∧
        (s.drawPhase = .commit ∨ (s.drawPhase = .waiting ∧ s.drawDeadline ≤ s.tickTime))) := by
  obtain ⟨k, op, a, rfl⟩ | hw := exec_raises_or_writesOnly h
  · exact .inl rfl
  cases i
  case drw x y n =>
    obtain ⟨-, d, -, -, rfl⟩ | ⟨-, rfl⟩ | ⟨hphase, rfl⟩ := execDrw_cases h
    · exact .inl rfl
    · exact .inl rfl
    · obtain ⟨-, e⟩ | ⟨cells, -, -, e⟩ := s.commitDraw_cases x y n
      · exact .inl (by rw [e]; rfl)
      · exact .inr ⟨by rw [e], hphase⟩
  all_goals
    simp only [State.WritesOnly] at hw
    exact .inl (by rw [hw])

/-- From the invariant a cycle that commits does so at a later deadline: no draw stands in the commit phase, and one that
waits has a later deadline than the last commit. -/
theorem State.Inv.cpuCycle_drawnDeadline (hs : s.Inv) (hone : s.cfg.oneDrawPerDeadline = true)
    (h : s.cpuCycle = .next t) : t.drawnDeadline = s.drawnDeadline ∨ s.CommitsAtLaterDeadline t := by
  obtain ⟨-, rfl⟩ | ⟨-, -, rfl⟩ | ⟨-, -, -, rfl⟩ | ⟨i, u, -, -, -, hu, rfl⟩ := State.cpuCycle_cases h
  · exact .inl rfl
  · exact .inl rfl
  · exact .inl rfl
  · rw [State.CommitsAtLaterDeadline, State.endCycle_drawnDeadline]
    obtain e | ⟨e, hcommit | ⟨hwait, hdue⟩⟩ := exec_drawnDeadline_cases hu
    · exact .inl e
    · exact absurd hcommit hs.cycle.2.1
    · exact .inr ⟨e, hdue, hs.draw hone hwait⟩

/-- A move of the scheduler touches the deadline of the last commit in a cycle only. -/
theorem State.Inv.schedulerMove_drawnDeadline {gap : Nat} (hs : s.Inv) (hone : s.cfg.oneDrawPerDeadline = true)
    (h : s.schedulerMove gap = .next t) : t.drawnDeadline = s.drawnDeadline ∨ s.CommitsAtLaterDeadline t := by
  obtain ⟨p, tm, u, hrun, rfl⟩ | hw := State.schedulerMove_runsCycle_or_writesNoCycle h
  · have hcycle := hs.cpuCycle_drawnDeadline hone hrun.cycle
    exact hcycle
  · rw [State.WritesNoCycle] at hw
    exact .inl (by rw [hw])

theorem State.rendererMove_drawnDeadline (s : State) : s.rendererMove.drawnDeadline = s.drawnDeadline := by
  obtain ⟨-, e⟩ | ⟨-, -, -, e⟩ | ⟨-, e⟩ := s.rendererMove_cases <;> rw [e]

@[simp] theorem State.loadRom_drawnDeadline (s : State) (bytes : List Byte) :
    (s.loadRom bytes).drawnDeadline = s.drawnDeadline := by
  unfold State.loadRom
  split <;> rfl

/-- Of the host's commands only `Reset` touches the deadline of the last commit, and forgets it (70_reset_and_hazards.md
R220). -/
theorem State.hostCommand_drawnDeadline {c : HostCommand} (h : s.hostCommand c = .next t) :
    t.drawnDeadline = s.drawnDeadline ∨ (s.sched ≠ .running ∧ t.sched = .notStarted ∧ t.drawnDeadline = none) := by
  obtain ⟨-, hstopped, rfl⟩ | ⟨bytes, -, -, rfl⟩ | ⟨-, -, rfl⟩ | ⟨g, -, -, -, rfl⟩ | ⟨g, -, -, -, rfl⟩ |
    ⟨call, -, -, hcall⟩ := State.hostCommand_cases h
  · exact .inr ⟨hstopped, rfl, rfl⟩
  · exact .inl (s.loadRom_drawnDeadline bytes)
  · exact .inl rfl
  · exact .inl rfl
  · exact .inl rfl
  · exact .inl (by rw [State.timerCall_only hcall])

/-- Between two resets the deadlines of the commits rise strictly, step by step. -/
theorem step_drawnDeadline (hs : s.Inv) (hone : s.cfg.oneDrawPerDeadline = true) (h : step s = .next t) :
    t.drawnDeadline = s.drawnDeadline ∨ (s.sched ≠ .running ∧ t.sched = .notStarted ∧ t.drawnDeadline = none) ∨
      s.CommitsAtLaterDeadline t := by
  obtain ⟨u, hu, hmove⟩ := step_cases h
  have hinv : u.Inv := hu.inv hs
  obtain ⟨moves, draws, queue, rfl⟩ :
      ∃ moves draws queue, u = { s with moves := moves, moveDraws := draws, hostQueue := queue } := ⟨_, _, _, hu⟩
  obtain ⟨gap, hm⟩ | rfl | ⟨-, c, hc⟩ | ⟨-, c, rfl⟩ := hmove
  · exact (hinv.schedulerMove_drawnDeadline hone hm).imp_right .inr
  · exact .inl (State.rendererMove_drawnDeadline _)
  · exact (State.hostCommand_drawnDeadline hc).imp_right .inl
  · exact .inl rfl

/-! ### Drawing twice (44_draw.md R134) -/

/-- A byte flipped twice is the byte. -/
theorem xor_FF_xor_FF (b : Byte) : b ^^^ 0xFF#8 ^^^ 0xFF#8 = b := by
  rw [BitVec.xor_assoc, BitVec.xor_self, BitVec.xor_zero]

/-- A flipped byte is lit exactly where the byte was blank. -/
theorem xor_FF_eq_FF_iff {b : Byte} : b ^^^ 0xFF#8 = 0xFF#8 ↔ b = 0x00#8 := by
  constructor
  · intro h
    rw [← xor_FF_xor_FF b, h]
    rfl
  · rintro rfl
    rfl

end Sys2Proof.Machine

open Sys2Proof Sys2Proof.Machine

/-- Settles O37: the steps by agent, of which only a cycle commits; the commit by the cells that it flips. -/
theorem drawCommitsTheSprite : Obligations.DrawCommitsTheSprite := by
  refine ⟨fun s t => step_drawnDeadline, fun s x y n hc hfb hp hd hin => ?_⟩
  obtain ⟨hcol, hrow⟩ := State.origin_eq_mod (x := x) (y := y) hc
  have hhit := State.drawCells_drawnCells_hit (x := x) (y := y) (n := n) hfb
  have hvf : (s.drawn x y n).reg 0xF#4 = if (drawCells s.fb (s.drawnCells x y n)).2 then 0x01#8 else 0x00#8 :=
    s.reg_setFlag _
  rw [← hcol, ← hrow]
  refine ⟨s.drawn x y n, exec_drw_of_inside hp hd hin, fun row col => State.pixel_drawn hfb, ?_,
    fun r hr => s.reg_setFlag_other _ hr, rfl⟩
  by_cases hlit : (drawCells s.fb (s.drawnCells x y n)).2 = true
  · exact .inl ⟨hvf.trans (if_pos hlit), hhit.mp hlit⟩
  · exact .inr ⟨hvf.trans (if_neg hlit), fun row col hr hc hcov h => hlit (hhit.mpr ⟨row, col, hr, hc, hcov, h⟩)⟩

/-- Settles O38: each cell is flipped twice, and the second draw finds lit what the first found blank. -/
theorem drawingTwiceRestoresTheFrame : Obligations.DrawingTwiceRestoresTheFrame := by
  intro c fb x0 y0 rows hfb
  obtain ⟨hfb₁, hread₁, -⟩ := drawSprite_spec x0 y0 rows hfb
  obtain ⟨hfb₂, hread₂, hflag₂⟩ := drawSprite_spec x0 y0 rows hfb₁
  refine ⟨Cells.wf_ext (FrameBuffer.wf_iff.mp hfb₂).1 (FrameBuffer.wf_iff.mp hfb).1 fun q => ?_, ?_⟩
  · rw [hread₂, hread₁]
    split
    · exact xor_FF_xor_FF _
    · rfl
  · rw [hflag₂, collisionFlag, List.any_eq_true]
    refine exists_congr fun p => and_congr_right fun hp => ?_
    rw [beq_iff_eq, hread₁, if_pos hp, xor_FF_eq_FF_iff]

/-- Settles O35: the empty list is the blank frame buffer. -/
theorem clearBlanksEveryCell : Obligations.ClearBlanksEveryCell := fun _ => ⟨_, rfl, fun _ _ => rfl, rfl⟩

/-- Settles O36, phase by phase; an armed draw by whether one has committed at the refresh deadline. -/
theorem drawArmsThenWaits : Obligations.DrawArmsThenWaits := by
  refine fun s x y n => ⟨fun tm hp htm => ⟨fun hfree => ?_, fun hone hdrawn => ?_⟩, exec_drw_of_early⟩
  · refine exec_drw_of_armed hp (State.refreshDeadline_of_timer htm) (State.alreadyDrawn_eq_false.mpr fun hone => ?_)
    exact hfree.resolve_left (by simp [hone])
  · exact exec_drw_of_alreadyDrawn hp (State.refreshDeadline_of_timer htm) (State.alreadyDrawn_eq_true.mpr ⟨hone, hdrawn⟩)
end

section
/-!
PROOFS. The delay timer's two instructions (45_keys_timers.md R142, R144).
-/

open Sys2Proof Sys2Proof.Machine

/-- Settles O40: the one is a register write of `DT`, the other a write of `DT` from the register. -/
theorem delayTimerMoves : Obligations.DelayTimerMoves := fun s x =>
  ⟨⟨_, rfl, s.reg_setReg_same x s.dt, s.setReg_changesOnlyRegs x s.dt⟩, rfl⟩
end

section
/-!
PROOFS. What the timers do: the three ways to reschedule, a pause and the resume after it, and the steps that fire a timer with
each callback (48_scheduler.md R160 to R173; 60_exceptions.md R194).
-/

namespace Sys2Proof.Machine

variable {s u : State} {p : WakePos} {tm : Timer} {tick : Nat} {e : DecodeError}

/-! ### Rescheduling (R160 to R162) -/

/-- A strict timer moves its deadline by one period, whatever the snapshot (R160). -/
theorem Timer.reschedule_of_strict (hk : tm.kind = .cyclic) (hskip : tm.skipMissed = false) (tick : Nat) :
    tm.reschedule tick = { tm with nextDeadline := tm.nextDeadline + tm.period.toNat } := by
  simp [Timer.reschedule, hk, hskip]

/-- A skip-missed timer moves its deadline by the periods it skips (R161). -/
theorem Timer.reschedule_of_skipMissed (hk : tm.kind = .cyclic) (hskip : tm.skipMissed = true) (tick : Nat) :
    tm.reschedule tick = { tm with nextDeadline := tm.nextDeadline + tm.periodsToSkip tick * tm.period.toNat } := by
  simp [Timer.reschedule, hk, hskip]

/-- A one-shot timer only becomes inactive (R162). -/
theorem Timer.reschedule_of_oneShot (hk : tm.kind = .oneShot) (tick : Nat) :
    tm.reschedule tick = { tm with active := false } := by
  simp [Timer.reschedule, hk]

/-- The model's quotient is the library's: it is at most `k` where `k` times the divisor reaches the dividend. -/
theorem ceilDiv_le_iff {a b k : Nat} (hb : 0 < b) : ceilDiv a b ≤ k ↔ a ≤ k * b := by
  rw [ceilDiv, ← Nat.ceilDiv_eq_add_pred_div, ceilDiv_le_iff_le_mul hb, Nat.mul_comm]

/-- The periods skipped are the least number, at least one, that takes the deadline to the snapshot or past it (R161, D32). -/
theorem Timer.periodsToSkip_le_iff (hp : tm.period ≠ 0#64) {k : Nat} :
    tm.periodsToSkip tick ≤ k ↔ 1 ≤ k ∧ tick ≤ tm.nextDeadline + k * tm.period.toNat := by
  have hpos : 0 < tm.period.toNat := Nat.pos_of_ne_zero fun h => hp (BitVec.eq_of_toNat_eq h)
  rw [Timer.periodsToSkip, max_le_iff, ceilDiv_le_iff hpos, Nat.sub_le_iff_le_add']

/-! ### Pause and resume (R166 to R168) -/

/-- A pause that completes pauses the scheduler at a fresh reading of the clock (R166). -/
theorem State.hostCommand_pause_next {g : Nat} (h : s.hostCommand (.pause g) = .next u) :
    u = ({ s with now := s.now + g } : State).pauseScheduler := by
  obtain ⟨⟨⟩, -⟩ | ⟨_, ⟨⟩, -⟩ | ⟨⟨⟩, -⟩ | ⟨_, ⟨⟩, -, -, e⟩ | ⟨_, ⟨⟩, -⟩ | ⟨_, ⟨⟩, -⟩ := State.hostCommand_cases h
  exact e

/-- A resume that completes resumes it at a fresh reading (R167). -/
theorem State.hostCommand_resume_next {g : Nat} (h : s.hostCommand (.resume g) = .next u) :
    u = ({ s with now := s.now + g } : State).resumeScheduler := by
  obtain ⟨⟨⟩, -⟩ | ⟨_, ⟨⟩, -⟩ | ⟨⟨⟩, -⟩ | ⟨_, ⟨⟩, -⟩ | ⟨_, ⟨⟩, -, -, e⟩ | ⟨_, ⟨⟩, -⟩ := State.hostCommand_cases h
  exact e

/-- What a pause does to one record: it puts an active timer aside and leaves the deadline (R166). -/
theorem Timer.pausedAt_spec (tm : Timer) (t : Nat) :
    (tm.pausedAt t).active = false ∧ (tm.pausedAt t).nextDeadline = tm.nextDeadline ∧
      (tm.pausedAt t).wasActive = tm.active ∧
      (tm.active = true → (tm.pausedAt t).phaseOffset = (tm.nextDeadline : Int) - t) := by
  cases ha : tm.active <;> simp [Timer.pausedAt, ha]

/-- A record paused and resumed: the deadline of an active timer has moved by the time between (R167). -/
theorem Timer.resumedAt_pausedAt (tm : Timer) (t d : Nat) :
    (tm.pausedAt t).resumedAt (t + d) =
      { tm with wasActive := false, phaseOffset := ((tm.pausedAt t).resumedAt (t + d)).phaseOffset,
                nextDeadline := if tm.active then tm.nextDeadline + d else tm.nextDeadline } := by
  cases ha : tm.active with
  | false => simp [Timer.pausedAt, Timer.resumedAt, ha]
  | true =>
    have hshift : (((t + d : Nat) : Int) + ((tm.nextDeadline : Int) - t)).toNat = tm.nextDeadline + d := by omega
    simpa [Timer.pausedAt, Timer.resumedAt, ha] using hshift

/-! ### The 60 Hz tick (R172) -/

theorem toNat_sub_one_of_ne_zero {b : Byte} (h : b ≠ 0x00#8) : (b - 1#8).toNat = b.toNat - 1 := by
  bv_omega

/-- The tick of DT is a write of its predecessor, where that is 0 for 0. -/
theorem State.tickDt_eq_setDt (s : State) : ∃ b : Byte, b.toNat = s.dt.toNat - 1 ∧ s.tickDt = s.setDt b := by
  by_cases h0 : s.dt = 0x00#8
  · exact ⟨s.dt, by simp [h0], if_pos h0⟩
  · exact ⟨_, toNat_sub_one_of_ne_zero h0, if_neg h0⟩

/-- Where ST does not become zero its tick is silent: a write of its predecessor. -/
theorem State.tickSt_eq_setSt (h1 : s.st ≠ 0x01#8) : ∃ b : Byte, b.toNat = s.st.toNat - 1 ∧ s.tickSt = s.setSt b := by
  by_cases h0 : s.st = 0x00#8
  · exact ⟨s.st, by simp [h0], if_pos h0⟩
  · have hrest : s.st - 1#8 ≠ 0x00#8 := fun h => h1 (by bv_omega)
    exact ⟨_, toNat_sub_one_of_ne_zero h0, by simp [State.tickSt, State.emitToneChange, h0, hrest]⟩

/-- Where ST becomes zero the tone stops (60_exceptions.md R208). -/
theorem State.tickSt_of_one (h1 : s.st = 0x01#8) : s.tickSt = (s.setSt 0x00#8).emit .stopTone := by
  simp [State.tickSt, State.emitToneChange, h1]

/-! ### A firing with each callback -/

/-- A step that fires a timer with the callback `Decay60` is one tick and the reschedule (R172, log 4). -/
theorem State.Fires.step_of_decay60 (h : s.Fires u p tm) (hcb : tm.callback = .decay60) :
    step s = .next (u.decay60.afterFiring p) := by
  rw [h.step_eq]
  exact State.fireTimer_of_free h.configured ((State.callbackOf_self (by simp [hcb])).trans hcb) rfl rfl

/-- A due refresh timer waits while a composition is running (R173). -/
theorem State.Fires.step_of_refresh_held (h : s.Fires u p tm) (hcb : tm.callback = .refresh)
    (hbusy : u.composeBusy = true) : step s = .next u := by
  rw [h.step_eq]
  refine State.fireTimer_of_held h.configured ?_
  rw [State.callbackOf_self (by simp [hcb]), hcb]
  exact hbusy

/-- With no composition running it signals, and is rescheduled (R173). -/
theorem State.Fires.step_of_refresh_free (h : s.Fires u p tm) (hcb : tm.callback = .refresh)
    (hfree : u.composeBusy = false) : step s = .next (u.refreshSignal.afterFiring p) := by
  rw [h.step_eq]
  exact State.fireTimer_of_free h.configured ((State.callbackOf_self (by simp [hcb])).trans hcb) hfree rfl

/-! ### A word that is no instruction (60_exceptions.md R194) -/

/-- A cycle whose word is no instruction takes the trap of the decode step. -/
theorem State.cpuCycle_of_reject (ht : s.trap = none) (hin : s.fetchOutside = false)
    (hd : decode s.fetchWord = .reject e) :
    s.cpuCycle = .next (s.raise .invalidOpCode s.fetchWord s.pc.toNat) := by
  simp [State.cpuCycle, State.runWord, ht, hin, hd]

/-- Such a cycle does not wait for `FBLock` (10_state.md R25, log 10). -/
theorem State.cycleHeld_of_reject (hd : decode s.fetchWord = .reject e) : s.cycleHeld = false := by
  simp [State.cycleHeld, hd]

end Sys2Proof.Machine

open Sys2Proof Sys2Proof.Machine

/-- Settles O44, by induction on the snapshots: a strict timer rescheduled is a strict timer. -/
theorem strictTimerKeepsItsGrid : Obligations.StrictTimerKeepsItsGrid := by
  intro tm ticks hk hskip
  induction ticks generalizing tm with
  | nil => simp
  | cons tick ticks ih =>
    rw [List.foldl_cons, Timer.reschedule_of_strict hk hskip,
      ih { tm with nextDeadline := tm.nextDeadline + tm.period.toNat } hk hskip]
    simp only [List.length_cons, Nat.succ_mul, Nat.add_assoc, Nat.add_comm]

/-- Settles O46: the number of periods is the least one that `Timer.periodsToSkip_le_iff` admits. -/
theorem skipMissedRealignsToTheGrid : Obligations.SkipMissedRealignsToTheGrid := by
  intro tm tick hk hskip hp _
  obtain ⟨hone, hreach⟩ := (Timer.periodsToSkip_le_iff hp).mp (le_refl (tm.periodsToSkip tick))
  exact ⟨_, hone, Timer.reschedule_of_skipMissed hk hskip tick, hreach,
    fun j hj hreach' => (Timer.periodsToSkip_le_iff hp).mpr ⟨hj, hreach'⟩⟩

/-- Settles O47, record by record: both commands map the table, and the clock has moved by `g'` between them. -/
theorem pauseThenResumeShiftsDeadlines : Obligations.PauseThenResumeShiftsDeadlines := by
  intro s p r g g' hr hp hres
  obtain rfl := State.hostCommand_pause_next hp
  obtain rfl := State.hostCommand_resume_next hres
  refine ⟨rfl, ?_, List.length_map _, (List.length_map _).trans (List.length_map _), fun h tm htm => ⟨?_, ?_⟩⟩
  · simp [State.resumeScheduler, State.pauseScheduler, State.answer, hr]
  · exact ⟨tm.pausedAt (s.now + g), by simp [State.pauseScheduler, htm], tm.pausedAt_spec _⟩
  · exact ⟨(tm.pausedAt (s.now + g)).resumedAt (s.now + g + g'),
      by simp [State.resumeScheduler, State.pauseScheduler, htm], tm.resumedAt_pausedAt _ _⟩

/-- Settles O9: the cycle takes the trap of the decode step, and it is never held, so the step that fires `T_CPU` runs it. -/
theorem invalidWordRaisesInvalidOpCode : Obligations.InvalidWordRaisesInvalidOpCode := by
  refine ⟨fun s e ht hpc hd => ?_, fun s u p tm e hf ht hpc hd => ?_, rfl, by decide⟩
  · exact ⟨_, State.cpuCycle_of_reject ht (decide_eq_false (Nat.not_le.mpr hpc)) hd, s.raise_changesOnlyByTrap _ _ _⟩
  · obtain ⟨gap, hm⟩ := hf.1.stands.1
    obtain ⟨moves, draws, rfl⟩ := State.takeMove_exists hm
    exact ⟨_, State.raise_changesOnlyByTrap _ _ _ _,
      hf.step_of_free (State.cycleHeld_of_reject hd)
        (State.cpuCycle_of_reject ht (decide_eq_false (Nat.not_le.mpr hpc)) hd)⟩

/-- Settles O45: a timer that is not active is not due. -/
theorem oneShotBecomesInactive : Obligations.OneShotBecomesInactive := by
  intro tm tick hk
  rw [Timer.reschedule_of_oneShot hk]
  exact ⟨rfl, rfl⟩

/-- Settles O48: DT first, then ST by whether it becomes zero; the step is `State.Fires.step_of_decay60`. -/
theorem decayTickCountsDown : Obligations.DecayTickCountsDown := by
  refine ⟨fun s => ?_, fun s u p tm hf hcb => ?_⟩
  · obtain ⟨d, hd, hdt⟩ := s.tickDt_eq_setDt
    rw [State.decay60, hdt]
    by_cases h1 : s.st = 0x01#8
    · rw [State.tickSt_of_one (s := s.setDt d) h1]
      exact ⟨hd, by rw [h1]; rfl, fun _ => ⟨rfl, rfl⟩, fun h => absurd h1 h, rfl⟩
    · obtain ⟨b, hb, hst⟩ := State.tickSt_eq_setSt (s := s.setDt d) h1
      rw [hst]
      exact ⟨hd, hb, fun h => absurd h h1, fun _ => ⟨rfl, rfl⟩, rfl⟩
  · obtain ⟨gap, hm⟩ := hf.stands.1
    rw [hf.step_of_decay60 hcb]
    obtain ⟨moves, draws, rfl⟩ := State.takeMove_exists hm
    rw [State.decay60_eq]
    rfl

/-- Settles O49, by whether a composition is running. -/
theorem refreshWaitsForTheComposition : Obligations.RefreshWaitsForTheComposition := by
  intro s u p tm hf hcb
  obtain ⟨gap, hm⟩ := hf.stands.1
  obtain ⟨moves, draws, rfl⟩ := State.takeMove_exists hm
  exact ⟨hf.step_of_refresh_held hcb, hf.step_of_refresh_free hcb⟩
end

section
/-!
PROOFS. The host's commands and timer calls: which are admitted, what an admitted timer call does, and the steps that run or
serve a command (48_scheduler.md R152 to R156, R166, R169; 60_exceptions.md R210; logs 11 to 13).
-/

namespace Sys2Proof.Machine

variable {s u : State} {c : HostCommand} {call : TimerCall} {bytes : List Byte} {tm : Timer} {n : Duration} {h g : Nat}

/-! ### Where a command is admitted (R210) -/

/-- The table of 60_exceptions.md R210, and 48_scheduler.md R169 for the timer calls. -/
def State.Admits (s : State) : HostCommand → Prop
  | .reset | .loadRom _ => s.sched ≠ .running
  | .start => s.sched = .notStarted
  | .pause _ => s.sched = .running
  | .resume _ => s.sched = .paused
  | .timer _ => s.sched ≠ .paused

/-- The five commands of R210, the two that read the clock with the gap `g`. -/
def fiveCommands (bytes : List Byte) (g : Nat) : List HostCommand := [.reset, .loadRom bytes, .start, .pause g, .resume g]

theorem mem_fiveCommands :
    c ∈ fiveCommands bytes g ↔
      c = .reset ∨ c = .loadRom bytes ∨ c = .start ∨ c = .pause g ∨ c = .resume g := by
  simp [fiveCommands]

theorem State.readClock_of_lt (hc : s.now + g < Config.clockEnd) : s.readClock g = some { s with now := s.now + g } :=
  if_pos hc

/-- Each of the five completes where it is admitted, at a reading of the clock within 64 bits (D47). -/
theorem State.hostCommand_of_admits (hmem : c ∈ fiveCommands bytes g) (hc : s.now + g < Config.clockEnd)
    (ha : s.Admits c) : ∃ t, s.hostCommand c = .next t := by
  obtain rfl | rfl | rfl | rfl | rfl := mem_fiveCommands.mp hmem
  · exact ⟨_, if_neg ha⟩
  · exact ⟨_, if_neg ha⟩
  · exact ⟨_, if_pos ha⟩
  · exact ⟨_, (if_pos ha).trans (by rw [State.readClock_of_lt hc])⟩
  · exact ⟨_, (if_pos ha).trans (by rw [State.readClock_of_lt hc])⟩

/-- Each of the five is refused where it is not admitted (R247). -/
theorem State.hostCommand_of_not_admits (hmem : c ∈ fiveCommands bytes g) (ha : ¬ s.Admits c) :
    s.hostCommand c = .refused .commandNotAdmitted := by
  obtain rfl | rfl | rfl | rfl | rfl := mem_fiveCommands.mp hmem
  · exact if_pos (not_not.mp ha)
  · exact if_pos (not_not.mp ha)
  · exact if_neg ha
  · exact if_neg ha
  · exact if_neg ha

theorem State.hostCommand_refused_iff (hmem : c ∈ fiveCommands bytes g) (hc : s.now + g < Config.clockEnd) :
    s.hostCommand c = .refused .commandNotAdmitted ↔ ¬ s.Admits c := by
  refine ⟨fun h ha => ?_, State.hostCommand_of_not_admits hmem⟩
  obtain ⟨t, ht⟩ := State.hostCommand_of_admits hmem hc ha
  cases ht.symm.trans h

/-! ### Timer calls (48_scheduler.md R152 to R156) -/

/-- Where timer calls are admitted, the command is the call. -/
theorem State.hostCommand_timer (hs : s.sched ≠ .paused) (call : TimerCall) :
    s.hostCommand (.timer call) = s.timerCall call := if_neg hs

/-- One record of the table changed is that record replaced. -/
theorem State.changeTimer_eq_set (ht : s.timers[h]? = some tm) (f : Timer → Timer) :
    s.changeTimer h f = { s with timers := s.timers.set h (f tm) } := by
  rw [State.changeTimer, List.modify_eq_set_getElem?, ht]
  rfl

theorem State.timerCall_configureOneShot (ht : s.timers[h]? = some tm) (n : Duration) :
    s.timerCall (.configureOneShot h n) = .next
      (if n = 0#64 then s.answer .error else { s with timers := s.timers.set h (tm.asOneShot n), reply := some .done }) := by
  simp only [State.timerCall, ht, State.changeTimer_eq_set ht]
  split <;> rfl

theorem State.timerCall_configureCyclic (ht : s.timers[h]? = some tm) (n : Duration) (skip : Bool) :
    s.timerCall (.configureCyclic h n skip) = .next
      (if n = 0#64 then s.answer .error
        else { s with timers := s.timers.set h (tm.asCyclic n skip), reply := some .done }) := by
  simp only [State.timerCall, ht, State.changeTimer_eq_set ht]
  split <;> rfl

theorem State.timerCall_start (ht : s.timers[h]? = some tm) (hc : s.now + g < Config.clockEnd) :
    s.timerCall (.start h g) = .next
      (if tm.kind = .unconfigured then s.answer .error
        else { s with now := s.now + g, timers := s.timers.set h (tm.startedAt (s.now + g)), reply := some .done }) := by
  simp only [State.timerCall, ht, State.readClock_of_lt hc,
    State.changeTimer_eq_set (s := { s with now := s.now + g }) ht]
  split <;> rfl

theorem State.timerCall_stop (ht : s.timers[h]? = some tm) :
    s.timerCall (.stop h) =
      .next { s with timers := s.timers.set h { tm with active := false }, reply := some .done } := by
  have hstop : s.stopTimer h = { s with timers := s.timers.set h { tm with active := false } } :=
    State.changeTimer_eq_set ht _
  simp only [State.timerCall, ht, hstop]
  rfl

/-- The handle that a call names; `register` names none. -/
def namedHandle : TimerCall → Option Nat
  | .register _ => none
  | .configureOneShot h _ | .configureCyclic h _ _ | .start h _ | .stop h => some h

/-- A call on a handle that was never registered is refused as such (log 13). -/
theorem State.timerCall_of_unregistered (hh : namedHandle call = some h) (hlen : s.timers.length ≤ h) :
    s.timerCall call = .refused .noSuchTimer := by
  have ht : s.timers[h]? = none := List.getElem?_eq_none hlen
  cases call with
  | register => cases hh
  | configureOneShot | configureCyclic | start | stop =>
    cases hh
    simp only [State.timerCall, ht]

/-- A timer call that runs is refused only for its handle or for the reading of the clock (D47, log 13). -/
theorem State.timerCall_refused_cases {r : Refusal} (h : s.timerCall call = .refused r) :
    r = .noSuchTimer ∨ r = .clockBeyond64Bits := by
  cases hnamed : namedHandle call with
  | none =>
    cases call <;> cases hnamed
    cases h
  | some k =>
    cases ht : s.timers[k]? with
    | none =>
      cases (State.timerCall_of_unregistered hnamed (List.getElem?_eq_none_iff.mp ht)).symm.trans h
      exact .inl rfl
    | some tm =>
      cases call with
      | register => cases hnamed
      | configureOneShot k n =>
        cases hnamed
        cases (State.timerCall_configureOneShot ht n).symm.trans h
      | configureCyclic k n skip =>
        cases hnamed
        cases (State.timerCall_configureCyclic ht n skip).symm.trans h
      | start k gap =>
        cases hnamed
        by_cases hc : s.now + gap < Config.clockEnd
        · cases (State.timerCall_start ht hc).symm.trans h
        · have hclock : s.readClock gap = none := if_neg hc
          simp only [State.timerCall, ht, hclock] at h
          split at h <;> cases h
          exact .inr rfl
      | stop k =>
        cases hnamed
        cases (State.timerCall_stop ht).symm.trans h

/-! ### The step that runs, queues or serves a command (log 11) -/

theorem State.runMove_host_between_wakes (hw : s.wake = none) (c : HostCommand) :
    s.runMove (.host c) = s.hostCommand c := by
  simp [State.runMove, hw]

theorem State.runMove_host_inside_wake (hw : s.wake.isSome) (c : HostCommand) :
    s.runMove (.host c) = .next { s with hostQueue := s.hostQueue ++ [c] } := by
  obtain ⟨p, hp⟩ := Option.isSome_iff_exists.mp hw
  simp [State.runMove, hp]

/-- Between wakes the oldest command that waits is served before any move (R166). -/
theorem step_of_queued {rest : List HostCommand} (hw : s.wake = none) (hq : s.hostQueue = c :: rest) :
    step s = ({ s with hostQueue := rest } : State).hostCommand c := by
  simp [step, State.advance, hw, hq]

end Sys2Proof.Machine

open Sys2Proof Sys2Proof.Machine

/-- Settles O51, command by command: the table of R210 is `State.Admits`, and each timer call has its equation. -/
theorem hostCommandsWhereAdmitted : Obligations.HostCommandsWhereAdmitted := by
  refine ⟨fun s bytes g hc => ?_, fun s call => ⟨fun h => ?_, fun hp => if_pos hp⟩, fun s cb hs => ?_,
    fun s h tm n skip g hs ht => ⟨?_, ?_, fun hc => ?_, ?_⟩, fun s h call hs hlen hcall => ?_,
    fun s u c hm => ⟨fun hw hq => ?_, fun hw => ?_⟩, fun s c rest => step_of_queued⟩
  · have hiff : ∀ c ∈ fiveCommands bytes g, s.hostCommand c = .refused .commandNotAdmitted ↔ ¬ s.Admits c :=
      fun c hmem => State.hostCommand_refused_iff hmem hc
    have hadmitted : ∀ c ∈ fiveCommands bytes g, s.hostCommand c ≠ .refused .commandNotAdmitted →
        ∃ t, s.hostCommand c = .next t := fun c hmem hne =>
      State.hostCommand_of_admits hmem hc (not_not.mp (mt (hiff c hmem).mpr hne))
    simp only [fiveCommands, List.forall_mem_cons] at hiff
    obtain ⟨hreset, hload, hstart, hpause, hresume, -⟩ := hiff
    exact ⟨hreset.trans not_not, hload.trans not_not, hstart, hpause, hresume, hadmitted⟩
  · by_contra hs
    obtain hr | hr := State.timerCall_refused_cases ((State.hostCommand_timer hs call).symm.trans h) <;> cases hr
  · rw [State.hostCommand_timer hs]
    rfl
  · exact (State.hostCommand_timer hs _).trans (State.timerCall_configureOneShot ht n)
  · exact (State.hostCommand_timer hs _).trans (State.timerCall_configureCyclic ht n skip)
  · exact (State.hostCommand_timer hs _).trans (State.timerCall_start ht hc)
  · exact (State.hostCommand_timer hs _).trans (State.timerCall_stop ht)
  · have hh : namedHandle call = some h := by
      obtain ⟨n, rfl⟩ | ⟨n, skip, rfl⟩ | ⟨g, rfl⟩ | rfl := hcall <;> rfl
    exact (State.hostCommand_timer hs _).trans (State.timerCall_of_unregistered hh hlen)
  · have hwake : u.wake = s.wake := by rw [State.takeMove_snd hm]
    rw [step_of_takeMove hm (.inr hq)]
    exact State.runMove_host_between_wakes (hwake.trans hw) c
  · have hwake : u.wake = s.wake := by rw [State.takeMove_snd hm]
    have hqueue : u.hostQueue = s.hostQueue := by rw [State.takeMove_snd hm]
    rw [step_of_takeMove hm (.inl hw), ← hqueue]
    exact State.runMove_host_inside_wake (hwake ▸ hw) c
end

section
/-!
PROOFS. What each trap says of its cause, and what no step changes: the configuration (60_exceptions.md R191, R192, R195, R196,
R199, R211).
-/

namespace Sys2Proof.Machine

variable {s t : State}

/-! ### The traps of the call stack -/

/-- RET on the empty stack (60_exceptions.md R196). -/
theorem exec_ret_of_empty (h : s.sp = s.cfg.spEmpty) :
    exec .ret s = .next (s.raise .stackUnderflow (encode .ret) 0) := by
  simp [exec, execRet, State.pop, h]

/-- CALL on the full stack (60_exceptions.md R195). -/
theorem exec_call_of_full (nnn : Addr12) (hne : s.sp ≠ s.cfg.spEmpty) (hfull : s.cfg.stackCap ≤ s.sp.toNat + 1) :
    exec (.call nnn) s = .next (s.raise .stackOverflow (encode (.call nnn)) s.returnAddr.toNat) := by
  simp [exec, execCall, State.push, State.pushIndex_of_full hne hfull]

/-! ### The configuration, agent by agent -/

/-- No move of the scheduler changes the configuration (60_exceptions.md R211). -/
theorem State.schedulerMove_cfg {gap : Nat} (h : s.schedulerMove gap = .next t) : t.cfg = s.cfg := by
  obtain ⟨p, tm, u, hrun, rfl⟩ | hw := State.schedulerMove_runsCycle_or_writesNoCycle h
  · exact (State.cpuCycle_sameSchedule hrun.cycle).1.cfg
  · rw [State.WritesNoCycle] at hw
    rw [hw]

theorem State.rendererMove_cfg (s : State) : s.rendererMove.cfg = s.cfg := by
  obtain ⟨-, e⟩ | ⟨-, -, -, e⟩ | ⟨-, e⟩ := s.rendererMove_cases <;> rw [e]

theorem State.timerCall_cfg {call : TimerCall} (h : s.timerCall call = .next t) : t.cfg = s.cfg := by
  obtain ⟨cb, rfl⟩ | rfl | ⟨k, n, -, rfl⟩ | ⟨k, n, b, -, rfl⟩ | ⟨k, gap, tm, -, -, -, rfl⟩ | ⟨k, rfl⟩ :=
    State.timerCall_cases h <;> rfl

theorem State.loadRom_cfg (s : State) (bytes : List Byte) : (s.loadRom bytes).cfg = s.cfg := by
  unfold State.loadRom
  split <;> rfl

/-- No host command changes the configuration, and `Reset` reads it to set the rest (60_exceptions.md R211). -/
theorem State.hostCommand_cfg {c : HostCommand} (h : s.hostCommand c = .next t) : t.cfg = s.cfg := by
  obtain ⟨-, -, rfl⟩ | ⟨bytes, -, -, rfl⟩ | ⟨-, -, rfl⟩ | ⟨g, -, -, -, rfl⟩ | ⟨g, -, -, -, rfl⟩ | ⟨call, -, -, hcall⟩ :=
    State.hostCommand_cases h
  · rfl
  · exact s.loadRom_cfg bytes
  · rfl
  · rfl
  · rfl
  · exact State.timerCall_cfg hcall

end Sys2Proof.Machine

open Sys2Proof Sys2Proof.Machine

/-- Settles O13: a record that was not there before is that of a trap the instruction may raise. -/
theorem eachInstructionRaisesOnlyItsOwnTrap : Obligations.EachInstructionRaisesOnlyItsOwnTrap := by
  intro i s t r hs h ht
  obtain e | ⟨k, a, hmay, rfl⟩ := exec_trap_cases h
  · cases (e.trans hs).symm.trans ht
  cases ht
  cases i
  case call nnn => exact .inl ⟨hmay.1, nnn, rfl⟩
  case ret => exact .inr (.inl ⟨hmay.1, rfl, hmay.2⟩)
  case ldB x => exact .inr (.inr ⟨hmay.1, hmay.2, .inl ⟨x, rfl⟩⟩)
  case store x => exact .inr (.inr ⟨hmay.1, hmay.2, .inr (.inl ⟨x, rfl⟩)⟩)
  case load x => exact .inr (.inr ⟨hmay.1, hmay.2, .inr (.inr (.inl ⟨x, rfl⟩))⟩)
  case drw x y n => exact .inr (.inr ⟨hmay.1, hmay.2, .inr (.inr (.inr ⟨x, y, n, rfl⟩))⟩)
  all_goals exact hmay.elim

/-- Settles O57, agent by agent: what a step changes before the move is not the configuration. -/
theorem configurationNeverChanges : Obligations.ConfigurationNeverChanges := by
  intro s t h
  obtain ⟨u, hu, hmove⟩ := step_cases h
  have hcfg : u.cfg = s.cfg := by rw [hu]
  rw [← hcfg]
  obtain ⟨gap, hm⟩ | rfl | ⟨-, c, hc⟩ | ⟨-, c, rfl⟩ := hmove
  · exact State.schedulerMove_cfg hm
  · exact u.rendererMove_cfg
  · exact State.hostCommand_cfg hc
  · rfl

/-- Settles O10: taking a trap changes only what R192 names, and the codes are the table of R191. -/
theorem trapEntryWritesRecordAndStopsCpuTimer : Obligations.TrapEntryWritesRecordAndStopsCpuTimer :=
  ⟨State.raise_changesOnlyByTrap, rfl, rfl, rfl, rfl, rfl⟩

/-- Settles O15: the pop finds the stack empty, and taking the trap leaves SP. -/
theorem returnOnEmptyStackTraps : Obligations.ReturnOnEmptyStackTraps :=
  fun s h => ⟨_, exec_ret_of_empty h, s.raise_changesOnlyByTrap _ _ _, h, rfl⟩

/-- Settles O17: the push finds no entry, and the record keeps the return address. -/
theorem callOnFullStackTraps : Obligations.CallOnFullStackTraps :=
  fun s nnn hne hfull => ⟨_, exec_call_of_full nnn hne hfull, s.raise_changesOnlyByTrap _ _ _, rfl⟩
end
